-- ==== Sys2Proof/Word.lean ====
section
/-! DEFINITION. The values the block works on: bytes, 12-bit codes, the 13-bit NEXT, and phrases
(00_scope.md R8, R9). -/

namespace Sys2Proof

/-- A byte, bits 7 down to 0 (R8). -/
abbrev Byte := BitVec 8

/-- Four bits: half a byte, the padding of a tail (R82). -/
abbrev Nibble := BitVec 4

/-- A code: a 12-bit unsigned dictionary index (R8, R80). -/
abbrev Code := BitVec 12

/-- The type of NEXT: 13 bits, because it must hold 4096 (R8, R23). -/
abbrev Next := BitVec 13

/-- A phrase: a byte sequence of length at least 1 (R9), a value that assigning copies. The first byte is
kept apart, so that no empty phrase exists (R21 "of length `size ≥ 1`"). -/
structure Phrase where
  head : Byte
  tail : List Byte
  deriving DecidableEq, Repr, Inhabited

/-- The bytes of a phrase, `p[0]` first. -/
def Phrase.bytes (p : Phrase) : List Byte := p.head :: p.tail

end Sys2Proof
end

