-- ==== Sys2Proof/Syntax.lean ====
section
/-! DEFINITION. The names of the block: its modes, phases, error kinds and results, and one constructor for every row of
spec/opcode_table.json (30_encoding.md R95). -/

namespace Sys2Proof

/-- The states of the decode state machine (R30). Their two-bit encoding is `Machine.modeCode`. -/
inductive Mode where
  | idle     -- no session
  | boot     -- bootstrap: the first code only
  | steady   -- all later codes
  | done     -- session ended, result in ERR
  deriving DecidableEq, Repr

/-- The alignment phase of the code reader (R27): first or second code of a three-byte group. -/
inductive Phase where
  | even
  | odd
  deriving DecidableEq, Repr, Inhabited

/-- The six error kinds (R170), in the order of R171. -/
inductive ErrKind where
  | sourceOpen
  | sinkOpen
  | allocation
  | read
  | write
  | invalidFormat
  deriving DecidableEq, Repr

/-- What ERR holds: OK or one error kind (R31, R171). There is no value 7 (U15). -/
inductive Result where
  | ok
  | error (e : ErrKind)
  deriving DecidableEq, Repr

/-- The operations of the block, one constructor per row of the opcode table. Operands are those of the rows:
a literal byte, a code, a phrase, the code width, an error kind. -/
inductive Instr where
  | decBoot (b : Byte)            -- DEC.BOOT, code `0000bbbbbbbb` in BOOT (R143)
  | decBootInvalid (c : Code)     -- DEC.BOOT.INVALID, a first code of 256 or more (R143)
  | decBootEmpty                  -- DEC.BOOT.EMPTY, clean end in BOOT (R143)
  | decHitLit (b : Byte)          -- DEC.HIT.LIT, code `0000bbbbbbbb` in STEADY (R144)
  | decHitRef (c : Code)          -- DEC.HIT.REF, 256 ≤ c < NEXT in STEADY (R144)
  | decKwk (c : Code)             -- DEC.KWK, c ≥ NEXT in STEADY (R145)
  | decEnd                        -- DEC.END, clean end in STEADY (R146)
  | decAbort (e : ErrKind)        -- DEC.ABORT (R147)
  | rdInit                        -- RD.INIT (R120)
  | rdCode                        -- RD.CODE (R123)
  | rdEven                        -- RD.EVEN (R121)
  | rdOdd                         -- RD.ODD (R122)
  | dictInit (width : Nat)        -- DICT.INIT (R100)
  | dictContains (c : Code)       -- DICT.CONTAINS (R101)
  | dictGet (c : Code)            -- DICT.GET (R102)
  | dictAdd (p : Phrase)          -- DICT.ADD (R103)
  | dictReset                     -- DICT.RESET (R104)
  | dictFree                      -- DICT.FREE (R105)
  | snkWrite (p : Phrase)         -- SNK.WRITE (R148)
  | start                         -- START (R141)
  deriving DecidableEq, Repr

end Sys2Proof
end

