-- ==== Sys2Proof/Config.lean ====
section
/-! DEFINITION. The constants of this hardware (00_scope.md R6) and the alphabet table (10_state.md R22). The open
parameter PHRASE_MAX (R7) is a field of State, so that every statement is about every value of it. Last stand the free
values, which nothing can evaluate: the treatment `any value` of 93_implementation_defined.md U6 for a register that holds
no value (log 21). The argument is the number of the draw. -/

namespace Sys2Proof

/-- `CW`, the code width in bits (R6). -/
abbrev Config.codeWidth : Nat := 12

/-- `CAP`, the capacity of the dictionary: 4096 entries (R6, R24). -/
abbrev Config.cap : Next := 4096#13

/-- `FIRST`, the first dynamically assigned code, the value of NEXT after initialisation and reset (R6). -/
abbrev Config.firstCode : Next := 256#13

/-- `ALPHA[i] = i`: the constant table of 256 bytes behind the first 256 entries (R22). -/
def Config.alpha (i : Byte) : Byte := i

/-- Where the source stands at a read made while SPOS has no value. -/
opaque Config.freeOffset (n : Nat) : Nat

/-- The phase that RD.CODE finds while PHASE has no value. -/
opaque Config.freePhase (n : Nat) : Phase

/-- The byte that RD.ODD finds while PEND has no value. -/
opaque Config.freePend (n : Nat) : Byte

/-- The phrase that DEC.HIT and DEC.KWK find while PREV has no value. -/
opaque Config.freePrev (n : Nat) : Phrase

end Sys2Proof
end

