-- ==== Sys2Proof/WellFormed.lean ====
section
/-! DEFINITION. Which operands an operation of the block may have (the opcode table's patterns and operands). -/

namespace Sys2Proof

/-- The error kinds the block itself raises; the other two belong to the collaborator (R172). -/
def ErrKind.ofBlock : ErrKind → Bool
  | .sourceOpen => false
  | .sinkOpen => false
  | .allocation => true
  | .read => true
  | .write => true
  | .invalidFormat => true

/-- A code outside the literal half of the code space: bits 11 to 8 not all zero (R85). -/
def Code.dynamic (c : Code) : Bool := !(c < 256#12)

/-- The operands the opcode table admits. A literal row's byte, a phrase and a looked-up code are unrestricted. -/
def Instr.wf : Instr → Bool
  | .decBoot _ => true
  | .decBootInvalid c => Code.dynamic c
  | .decBootEmpty => true
  | .decHitLit _ => true
  | .decHitRef c => Code.dynamic c
  | .decKwk c => Code.dynamic c
  | .decEnd => true
  | .decAbort e => e.ofBlock
  | .rdInit => true
  | .rdCode => true
  | .rdEven => true
  | .rdOdd => true
  | .dictInit width => width == Config.codeWidth
  | .dictContains _ => true
  | .dictGet _ => true
  | .dictAdd _ => true
  | .dictReset => true
  | .dictFree => true
  | .snkWrite _ => true
  | .start => true

end Sys2Proof
end

