-- ==== Sys2Proof/Decode.lean ====
section
/-! DEFINITION. From bytes to a decode step and back (30_encoding.md). What a code does depends on MODE and NEXT, so the
decoder is a function of (bits, MODE, NEXT, PHASE, PEND), as R95 says; it is total and rejects by name. After it stands
the encoder, from the same tables: the 12-bit patterns, the group layout (R81), the tail (R82) and `Pack` (R92). -/

namespace Sys2Proof

/-- Why bits are no instruction. -/
inductive Reject where
  | noSession   -- MODE is IDLE or DONE: no code is read (R142, precondition)
  deriving DecidableEq, Repr

/-- Even assembly (R83): `(zext_12(B0) << 4) | zext_12(B1[7:4])`. -/
def assembleEven (b0 b1 : Byte) : Code :=
  (b0.setWidth 12 <<< 4) ||| (b1.extractLsb' 4 4).setWidth 12

/-- Odd assembly (R83): `(zext_12(PEND[3:0]) << 8) | zext_12(B2)`. -/
def assembleOdd (pend b2 : Byte) : Code :=
  ((pend.extractLsb' 0 4).setWidth 12 <<< 8) ||| b2.setWidth 12

/-- Whether a code is a literal: pattern `0000bbbbbbbb` (R85). -/
def isLiteral (c : Code) : Bool := c < 256#12

/-- The byte of a literal code: its bits 7 to 0 (R95). -/
def literalByte (c : Code) : Byte := c.setWidth 8

/-- The code of a literal byte: `0000bbbbbbbb` (R85). -/
def literalCode (b : Byte) : Code := b.setWidth 12

/-- The predicate `HIT(c)`: `zext_13(c) < NEXT` (R34, R101). -/
def isHit (c : Code) (next : Next) : Bool := c.setWidth 13 < next

/-- Selection in BOOT (R86), by what the reader returned (`none` is the clean end). -/
def selectBoot : Option Code → Instr
  | none => .decBootEmpty
  | some c => if isLiteral c then .decBoot (literalByte c) else .decBootInvalid c

/-- Selection in STEADY (R87): literals always hit (R85), other codes by comparison with NEXT. -/
def selectSteady (next : Next) : Option Code → Instr
  | none => .decEnd
  | some c =>
    if isLiteral c then .decHitLit (literalByte c)
    else if isHit c next then .decHitRef c else .decKwk c

/-- The decode step that MODE, NEXT and the reader's result select (R86, R87, R142). -/
def select (mode : Mode) (next : Next) (r : Option Code) : Except Reject Instr :=
  match mode with
  | .idle => .error .noSession
  | .boot => .ok (selectBoot r)
  | .steady => .ok (selectSteady next r)
  | .done => .error .noSession

/-- The decode step at the front of `bytes`, the rest of the source, and how many bytes it takes (R88): two in EVEN, one
in ODD, none at a clean end; one byte where two are expected is a ReadError. -/
def decode (mode : Mode) (next : Next) (phase : Phase) (pend : Byte) (bytes : List Byte) :
    Except Reject (Instr × Nat) :=
  match phase, bytes with
  | .even, [] => (select mode next none).map (·, 0)
  | .even, [_] => (select mode next none).map fun _ => (.decAbort .read, 1)
  | .even, b0 :: b1 :: _ => (select mode next (some (assembleEven b0 b1))).map (·, 2)
  | .odd, [] => (select mode next none).map (·, 0)
  | .odd, b2 :: _ => (select mode next (some (assembleOdd pend b2))).map (·, 1)

/-! ## The encoder -/

/-- The 12-bit pattern of a code-selected row; the other rows have none (R95). -/
def codeOf : Instr → Option Code
  | .decBoot b => some (literalCode b)
  | .decBootInvalid c => some c
  | .decBootEmpty => none
  | .decHitLit b => some (literalCode b)
  | .decHitRef c => some c
  | .decKwk c => some c
  | .decEnd => none
  | .decAbort _ => none
  | .rdInit => none
  | .rdCode => none
  | .rdEven => none
  | .rdOdd => none
  | .dictInit _ => none
  | .dictContains _ => none
  | .dictGet _ => none
  | .dictAdd _ => none
  | .dictReset => none
  | .dictFree => none
  | .snkWrite _ => none
  | .start => none

/-- A byte from its high and its low nibble: `hi ‖ lo`. -/
def joinNibbles (hi lo : Nibble) : Byte := hi ++ lo

/-- `c[11:8]`, the half of an odd code that travels in B1 (R81). -/
def highNibble (c : Code) : Nibble := c.extractLsb' 8 4

/-- B0 of a group or tail: `c0[11:4]` (R81, R82). -/
def encodeB0 (c : Code) : Byte := c.extractLsb' 4 8

/-- B1 of a group or tail: `c0[3:0] ‖ n`, with `n` the top of the next code or the padding (R81, R82). -/
def encodeB1 (c : Code) (n : Nibble) : Byte := joinNibbles (c.extractLsb' 0 4) n

/-- B2 of a group: `c1[7:0]` (R81). -/
def encodeB2 (c : Code) : Byte := c.extractLsb' 0 8

/-- The two bytes of a code read in EVEN, with the nibble that follows it. -/
def encodeEven (c : Code) (n : Nibble) : List Byte := [encodeB0 c, encodeB1 c n]

/-- `Pack(codes, pad)` (R92): three bytes for two codes, a two-byte tail for a code left over. -/
def pack (pad : Nibble) : List Code → List Byte
  | [] => []
  | [a] => encodeEven a pad
  | a :: b :: rest => encodeB0 a :: encodeB1 a (highNibble b) :: encodeB2 b :: pack pad rest

/-- The bytes of an instruction as it stands first in a code stream: a tail with padding 0 for a row with a code, nothing
for a clean end, one stray byte for the abort that a ReadError enters (R88, R82). -/
def encode (i : Instr) : List Byte :=
  match codeOf i with
  | some c => encodeEven c 0#4
  | none => if i = .decAbort .read then [0#8] else []

/-- The bytes of a table word: no bits are the empty stream; otherwise `w` is the 12-bit code, bits numbered as the
table numbers them, laid out as the first code of a stream. -/
def tableBytes (nbits w : Nat) : List Byte :=
  if nbits = 0 then [] else encodeEven (BitVec.ofNat 12 w) 0#4

/-- The instruction the decoder reads from a table word: the first code of a session (BOOT, EVEN, NEXT = 256). A row that
is selected in another mode has the same bits as a BOOT row, so this answers the BOOT row; a word of more than 12 bits is
no code. -/
def decodeTableWord (nbits w : Nat) : Option Instr :=
  if w < 4096 then
    match decode .boot Config.firstCode .even 0#8 (tableBytes nbits w) with
    | .ok (i, _) => some i
    | .error _ => none
  else none

end Sys2Proof
end

