-- ==== Sys2Proof/Machine/State.lean ====
section
/-! DEFINITION. The state of the block and of its environment as plain data (10_state.md), the reasons a step can stop,
and the state after hardware reset (R39). -/

namespace Sys2Proof.Machine

/-- Why an operation has no next step. Each is the treatment `stuck` of 93_implementation_defined.md: an operation used
where the spec gives it no effect. All are safe: the model stops, and no run of the block from reset gets there. -/
inductive Fault where
  /-- Raised by a dictionary operation before DICT.INIT or after DICT.FREE, `stuck` by U17: there is no NEXT to compare with
  or to store at. A lookup of a literal needs none (R101, R102). Safe. -/
  | noDictionary
  /-- Raised by DICT.GET for a code from 256 on below NEXT without an entry, a table that R25 rules out. Safe. -/
  | notDense
  /-- Raised by a decode step run in a MODE that does not select it (R142 to R147). Safe. -/
  | wrongMode
  /-- Raised by a decode step whose code its row does not select (R86, R87). Safe. -/
  | notSelected
  /-- Raised by DICT.ADD when NEXT is outside 256 to 4096, which would write outside the table or into the alphabet
  (R103 (c), U17). Safe. -/
  | entryRange
  /-- Raised by DICT.INIT with a width other than 12 (R100, U17). Safe. -/
  | codeWidth
  /-- Raised by DEC.ABORT with one of the two kinds that are the collaborator's (R172). Safe. -/
  | notOfBlock
  deriving DecidableEq, Repr

/-- What the model says nothing about. -/
inductive Refusal where
  /-- Raised by an arm of `exec` whose instruction has no meaning yet. Safe. -/
  | notModelled (mnemonic : String)
  /-- Raised when the host connects another source during a session, which the spec excludes (R214, U18). Safe. -/
  | streamChanged
  deriving DecidableEq, Repr

/-- The environment's answer to one `SrcRead` (R56): the bytes that are there, or a failure, after which the source
stands wherever the environment says (U10: the offset is unspecified). -/
inductive SrcAns where
  | bytes
  | fail (spos : Nat)
  deriving DecidableEq, Repr

/-- The environment's answer to one `SinkWrite` (R58): how many bytes were accepted, or a failure with the number that
reached the sink all the same (U11). -/
inductive SinkAns where
  | accepted (k : Nat)
  | fail (k : Nat)
  deriving DecidableEq, Repr

/-- What the host does at a step (R35, R200, R203): nothing, START, connecting a source, or the reset input, which comes
before the step or while it is under way. -/
inductive HostIn where
  | quiet
  | start
  | reset
  /-- START, and the reset input before START has asked for its storage. -/
  | resetInStart
  /-- The reset input inside the step: `ops` of its sub-operations (the read of a code, then writes and additions in the
  order of the decode step's rule) are done, and of a write then under way the sink has up to `bytes` bytes. -/
  | resetInStep (ops bytes : Nat)
  | connect (src : List Byte)
  deriving DecidableEq, Repr

/-- The value an operation returns to its caller (R12); the model's own, read by no rule. -/
inductive Ret where
  | unit
  | code (c : Code)                  -- RD.CODE and its two reads: a code
  | noCode                           -- the same: `none`, the clean end
  | bit (b : Bool)                   -- DICT.CONTAINS
  | entry (e : Option Phrase)        -- DICT.GET
  | added (k : Code) (p : Phrase)    -- DICT.ADD: the pair (code, phrase)
  deriving DecidableEq, Repr

/-- The entries 256 to 4095 of the code space: (code, phrase), codes strictly rising; a code not listed holds no value
(R21). This is the block's one addressed memory (R50). -/
abbrev Memory := List (Nat × Phrase)

/-- The block's registers, the environment's pending answers, and the model's own return slot and draw counter. `none` is the spec's
"no value" (R41). -/
structure State where
  /-- `MODE` (R30). -/
  mode : Mode
  /-- `ERR` (R31). -/
  err : Result
  /-- `NEXT` (R23). -/
  next : Option Next
  /-- Whether `ENT[0..255]` hold their values, the references to ALPHA (R22). -/
  seeded : Bool
  /-- `ENT[256..4095]` (R21). -/
  ent : Memory
  /-- `PHASE` (R27). -/
  phase : Option Phase
  /-- `PEND` (R28). -/
  pend : Option Byte
  /-- `PREV`, by value (R29). -/
  prev : Option Phrase
  /-- `SPOS` (R26). -/
  spos : Option Nat
  /-- `OUT` (R33); `OPOS` is its length. -/
  out : List Byte
  /-- `SRC` (R32), fixed during a session (R66). -/
  src : List Byte
  /-- The answers to the coming source reads; past the end of the list, `bytes`. -/
  srcAns : List SrcAns
  /-- The answers to the coming sink writes; past the end of the list, the whole phrase is accepted. -/
  sinkAns : List SinkAns
  /-- `AllocOk` for the coming requests; past the end of the list, true. -/
  allocAns : List Bool
  /-- `PHRASE_MAX` (R7); `none` is unbounded. No step changes it. -/
  phraseMax : Option Nat
  /-- What the host does before the coming steps; past the end of the list, nothing. -/
  inputs : List HostIn
  /-- The model's own: what the last operation returned. -/
  ret : Ret
  /-- The model's own: how many free values have been drawn (log 21). -/
  draws : Nat
  deriving DecidableEq, Repr

/-- Power-on (R39): MODE is IDLE, ERR is OK, every register of the session without a value; no stream connected, nothing
pending, PHRASE_MAX unbounded. -/
def State.reset : State where
  mode := .idle
  err := .ok
  next := none
  seeded := false
  ent := []
  phase := none
  pend := none
  prev := none
  spos := none
  out := []
  src := []
  srcAns := []
  sinkAns := []
  allocAns := []
  phraseMax := none
  inputs := []
  ret := .unit
  draws := 0

end Sys2Proof.Machine
end

