-- ==== Sys2Proof/Machine/Ops.lean ====
section
/-! DEFINITION. The named operations over the state: the entry table, the three ports, results that may raise, taking an
error (the block's trap entry, R177), and hardware reset. There is no return from an error (R179). -/

namespace Sys2Proof.Machine

/-! ## The entry table -/

/-- What a code of 256 or more holds; a code not listed holds no value (R21). -/
def Memory.read : Memory → Nat → Option Phrase
  | [], _ => none
  | (k, q) :: m, c => if k = c then some q else Memory.read m c

/-- `ENT[c] <- p`, keeping the codes strictly rising. -/
def Memory.write : Memory → Nat → Phrase → Memory
  | [], c, p => [(c, p)]
  | (k, q) :: m, c, p =>
    if c < k then (c, p) :: (k, q) :: m
    else if c = k then (c, p) :: m
    else (k, q) :: Memory.write m c p

/-- The canonical form: codes strictly rising, all of them dynamic codes of the table. -/
abbrev Memory.wf (m : Memory) : Prop :=
  (m.map Prod.fst).Pairwise (· < ·) ∧ ∀ e ∈ m, 256 ≤ e.1 ∧ e.1 < 4096

/-- The phrase of a literal code: `[ALPHA[c]]` (R22). -/
def alphaPhrase (c : Code) : Phrase := ⟨Config.alpha (literalByte c), []⟩

/-- `ENT[c]`: below 256 the reference to ALPHA, `[c]` (R22); otherwise the table's entry. -/
def State.entry (s : State) (c : Code) : Option Phrase :=
  if isLiteral c then
    if s.seeded then some (alphaPhrase c) else none
  else Memory.read s.ent c.toNat

/-- What a lookup of c finds: `[c]` for a literal, always (R102); otherwise the table's entry. -/
def State.found (s : State) (c : Code) : Option Phrase :=
  if isLiteral c then some (alphaPhrase c) else Memory.read s.ent c.toNat

/-- Discarding the entries 256 to 4095 and setting NEXT to 256 (R100, R104). -/
def State.clearDynamic (s : State) : State :=
  { s with ent := [], next := some Config.firstCode }

/-! ## The ports -/

/-- The source bytes that `SrcRead(n)` at offset k finds: `SRC[k : min(k + n, |SRC|)]` (R56). -/
def sourceBytes (src : List Byte) (k n : Nat) : List Byte := (src.drop k).take n

/-- What `SrcRead` gives back (R11): bytes, or a failure. -/
inductive SrcOut where
  | bytes (bs : List Byte)
  | fail
  deriving DecidableEq, Repr

/-- The source's answer to the next read. -/
def srcAnswer (s : State) : SrcAns := s.srcAns.headD .bytes

/-- `SrcRead(n)` with the source standing at k (R56): the pending answer is used up; the bytes found are consumed. -/
def srcReadAt (n k : Nat) (s : State) : SrcOut × State :=
  match srcAnswer s with
  | .bytes =>
    (.bytes (sourceBytes s.src k n),
      { s with srcAns := s.srcAns.tail, spos := some (k + (sourceBytes s.src k n).length) })
  | .fail j => (.fail, { s with srcAns := s.srcAns.tail, spos := some j })

/-- The state after a free value has been drawn. -/
def State.drawn (s : State) : State := { s with draws := s.draws + 1 }

/-- `SrcRead(n)` (R56), at SPOS. Where SPOS has no value (U6: any value until the next START) the source stands at a free
offset, a fresh one for each read, and SPOS stays without a value (log 21). -/
def srcRead (n : Nat) (s : State) : SrcOut × State :=
  match s.spos with
  | some k => srcReadAt n k s
  | none =>
    let r := srcReadAt n (Config.freeOffset s.draws) s.drawn
    (r.1, { r.2 with spos := none })

/-- How many bytes of a phrase of length n reach the sink: never more than n (R58). -/
def SinkAns.count (n : Nat) : SinkAns → Nat
  | .accepted k => min k n
  | .fail k => min k n

/-- Whether the answer is `accepted(n)`, the only success (R58). -/
def SinkAns.full (n : Nat) : SinkAns → Bool
  | .accepted k => n ≤ k
  | .fail _ => false

/-- The sink's answer to the next write of a phrase of length n. -/
def sinkAnswer (n : Nat) (s : State) : SinkAns := s.sinkAns.headD (.accepted n)

/-- `SinkWrite(p)` (R58): whether it succeeded, and the state with the accepted bytes, first byte first, in OUT. -/
def sinkPut (p : Phrase) (s : State) : Bool × State :=
  let a := sinkAnswer p.bytes.length s
  (a.full p.bytes.length,
    { s with sinkAns := s.sinkAns.tail, out := s.out ++ p.bytes.take (a.count p.bytes.length) })

/-- `SinkWrite(p)` under way: the sink has taken up to `bytes` bytes of p, and no more than its answer lets it (R58). -/
def sinkPart (bytes : Nat) (p : Phrase) (s : State) : State :=
  { s with
    sinkAns := s.sinkAns.tail
    out := s.out ++ p.bytes.take (min bytes ((sinkAnswer p.bytes.length s).count p.bytes.length)) }

/-- The environment's answer to the next storage request, whatever its size (R108). -/
def allocAnswer (s : State) : Bool := s.allocAns.headD true

/-- The state after a storage request: its answer is used up. -/
def State.afterAlloc (s : State) : State := { s with allocAns := s.allocAns.tail }

/-- Whether a phrase of length n is longer than PHRASE_MAX (R103, R108). -/
def State.tooLong (s : State) (n : Nat) : Bool :=
  match s.phraseMax with
  | none => false
  | some m => m < n

/-! ## Reading a register that may hold no value

The value where there is one, else a free value (U6, log 21), which the register does not keep. -/

/-- PHASE as RD.CODE reads it. -/
def readPhase (s : State) : Phase × State :=
  match s.phase with
  | some ph => (ph, s)
  | none => (Config.freePhase s.draws, s.drawn)

/-- PEND as RD.ODD reads it. -/
def readPend (s : State) : Byte × State :=
  match s.pend with
  | some b => (b, s)
  | none => (Config.freePend s.draws, s.drawn)

/-- PREV as DEC.HIT and DEC.KWK read it. -/
def readPrev (s : State) : Phrase × State :=
  match s.prev with
  | some q => (q, s)
  | none => (Config.freePrev s.draws, s.drawn)

/-! ## Taking an error -/

/-- `DICT.FREE`: the entries of 256 and up and NEXT hold no value; ENT[0..255] are skipped (R105). -/
def State.freeDict (s : State) : State := { s with ent := [], next := none }

/-- `Finish(x)` (R147, R177): the single end of a session, on success and on every error. DICT.FREE, then ERR and MODE;
PHASE, PEND, PREV and SPOS are discarded (R40, R202, U6). OUT stays. -/
def State.finish (x : Result) (s : State) : State :=
  { s.freeDict with phase := none, pend := none, prev := none, spos := none, err := x, mode := .done, ret := .unit }

/-- Hardware reset (R39, R200): the session is abandoned without a result and every register but MODE and ERR is without
a value (R202, U6); the streams are not touched: accepted bytes stay in OUT. -/
def State.hardReset (s : State) : State :=
  { s with
    mode := .idle, err := .ok, next := none, seeded := false, ent := [], phase := none, pend := none, prev := none,
    spos := none, ret := .unit }

/-! ## Operations that may raise -/

/-- How an operation ends (R12): with a value, raising an error kind, or stuck. -/
inductive Res (α : Type) where
  | ok (a : α) (s : State)
  | raise (e : ErrKind) (s : State)
  | stuck (f : Fault)
  deriving DecidableEq, Repr

/-- One operation after another; an error passes through unchanged (R175). -/
def Res.andThen {α β : Type} (x : Res α) (f : α → State → Res β) : Res β :=
  match x with
  | .ok a s => f a s
  | .raise e s => .raise e s
  | .stuck g => .stuck g

/-- An operation as an instruction: its value goes to `ret`; an error it raises ends the session with that kind (R147,
R177); stuck is a fault. -/
def Res.outcome {α : Type} (ret : α → Ret) (x : Res α) : Host.Outcome State Fault Refusal :=
  match x with
  | .ok a s => .next { s with ret := ret a }
  | .raise e s => .next (s.finish (.error e))
  | .stuck f => .fault f

/-- The return slot of an operation that returns nothing. -/
def noValue (_ : Unit) : Ret := .unit

end Sys2Proof.Machine
end

