-- ==== Sys2Proof/Machine/Operands.lean ====
section
/-! DEFINITION. The operand forms: the phrases an operation builds (R9, R61) and the codes it looks up. -/

namespace Sys2Proof.Machine

/-- The one-byte phrase `[b]` (R9). -/
def single (b : Byte) : Phrase := ⟨b, []⟩

/-- `p ++ [b]`: the bytes of p first, b last (R61). -/
def snoc (p : Phrase) (b : Byte) : Phrase := ⟨p.head, p.tail ++ [b]⟩

/-- `p[0]`. -/
def firstByte (p : Phrase) : Byte := p.head

/-- What DEC.HIT adds: `PREV ++ [e[0]]` (R144). -/
def hitPhrase (prev e : Phrase) : Phrase := snoc prev (firstByte e)

/-- What DEC.KWK adds and writes: `PREV ++ [PREV[0]]` (R145). -/
def kwkPhrase (prev : Phrase) : Phrase := snoc prev (firstByte prev)

/-- The code at which NEXT points, as a 12-bit code; used only where NEXT is below 4096. -/
def codeAt (n : Next) : Code := n.setWidth 12

end Sys2Proof.Machine
end

