-- ==== Sys2Proof/Machine/Flags.lean ====
section
/-! DEFINITION. The block has no condition codes (R34). Here are its predicates, its host-visible status fields (R35),
and the encodings of PHASE, MODE and ERR (R27, R30, R171). `HIT(c)` is `isHit` in Decode.lean. -/

namespace Sys2Proof.Machine

/-- The one-bit encoding of PHASE (R27). -/
def phaseCode : Phase → BitVec 1
  | .even => 0#1
  | .odd => 1#1

/-- The two-bit encoding of MODE (R30). -/
def modeCode : Mode → BitVec 2
  | .idle => 0#2
  | .boot => 1#2
  | .steady => 2#2
  | .done => 3#2

/-- The numbers of the error kinds (R171). -/
def errCode : ErrKind → BitVec 3
  | .sourceOpen => 1#3
  | .sinkOpen => 2#3
  | .allocation => 3#3
  | .read => 4#3
  | .write => 5#3
  | .invalidFormat => 6#3

/-- The three-bit encoding of ERR (R171); 7 is never produced. -/
def resultCode : Result → BitVec 3
  | .ok => 0#3
  | .error e => errCode e

/-- A mode in which a session runs. -/
def modeBusy : Mode → Bool
  | .idle => false
  | .boot => true
  | .steady => true
  | .done => false

/-- The status field BUSY (R35): MODE is BOOT or STEADY. -/
def State.busy (s : State) : Bool := modeBusy s.mode

/-- The status field DONE (R35): MODE is DONE. -/
def State.done (s : State) : Bool := s.mode == .done

/-- The status field ERR[2:0] (R35), meaningful only while DONE is 1. -/
def State.errField (s : State) : BitVec 3 := resultCode s.err

/-- `OPOS = len(OUT)` (R33). -/
def State.opos (s : State) : Nat := s.out.length

/-- Whether NEXT stands at the capacity, so that the next addition resets (R103). -/
def isFull (n : Next) : Bool := n == Config.cap

end Sys2Proof.Machine
end

