-- ==== Sys2Proof/Machine/Dictionary.lean ====
section
/-! DEFINITION. The Dictionary (40_dictionary.md R100 to R105): each operation once, and the meaning of each row. -/

namespace Sys2Proof.Machine

/-- `DICT.INIT(codeWidth)` (R100). -/
def dictInit (width : Nat) (s : State) : Res Unit :=
  if width = Config.codeWidth then
    if allocAnswer s then .ok () { s.afterAlloc.clearDynamic with seeded := true }
    else .raise .allocation s.afterAlloc
  else .stuck .codeWidth

/-- `DICT.CONTAINS(c)` (R101): true for a literal "in every state", otherwise the comparison with NEXT, which is `stuck`
before DICT.INIT and after DICT.FREE (U17). -/
def dictContains (c : Code) (s : State) : Res Bool :=
  if isLiteral c then .ok true s
  else
    match s.next with
    | none => .stuck .noDictionary
    | some n => .ok (isHit c n) s

/-- `DICT.GET(c)` (R102): "always `some([i])`" for a literal; otherwise a copy of the entry below NEXT, none from NEXT on,
and `stuck` before DICT.INIT and after DICT.FREE (U17). -/
def dictGet (c : Code) (s : State) : Res (Option Phrase) :=
  if isLiteral c then .ok (s.found c) s
  else
    match s.next with
    | none => .stuck .noDictionary
    | some n =>
      if isHit c n then
        match s.found c with
        | none => .stuck .notDense
        | some e => .ok (some e) s
      else .ok none s

/-- `DICT.RESET()` (R104). Its body does not read NEXT; that NEXT is CAP is its caller's to see to (R103, log 22).
Before DICT.INIT and after DICT.FREE it is `stuck` (U17). -/
def dictReset (s : State) : Res Unit :=
  match s.next with
  | none => .stuck .noDictionary
  | some _ => .ok () s.clearDynamic

/-- Storing p at NEXT when NEXT is n (R103): the storage request first, then the entry and the increment. -/
def dictStore (p : Phrase) (n : Next) (s : State) : Res (Code × Phrase) :=
  if s.tooLong p.bytes.length then .raise .allocation s
  else if allocAnswer s then
    .ok (codeAt n, p) { s.afterAlloc with ent := Memory.write s.ent n.toNat p, next := some (n + 1#13) }
  else .raise .allocation s.afterAlloc

/-- `DICT.ADD(p)` (R103), with the lazy reset: an addition that finds NEXT at the capacity resets first.
Before DICT.INIT and after DICT.FREE it is `stuck` (U17). -/
def dictAdd (p : Phrase) (s : State) : Res (Code × Phrase) :=
  match s.next with
  | none => .stuck .noDictionary
  | some n =>
    if isFull n then (dictReset s).andThen fun _ s => dictStore p Config.firstCode s
    else if n < Config.firstCode ∨ Config.cap < n then .stuck .entryRange
    else dictStore p n s

/-- The value DICT.ADD returns (R103): the pair (code, phrase). -/
def addedValue (r : Code × Phrase) : Ret := .added r.1 r.2

/-- DICT.INIT. -/
def execDictInit (width : Nat) (s : State) : Host.Outcome State Fault Refusal :=
  (dictInit width s).outcome noValue

/-- DICT.CONTAINS. -/
def execDictContains (c : Code) (s : State) : Host.Outcome State Fault Refusal :=
  (dictContains c s).outcome .bit

/-- DICT.GET. -/
def execDictGet (c : Code) (s : State) : Host.Outcome State Fault Refusal :=
  (dictGet c s).outcome .entry

/-- DICT.ADD. -/
def execDictAdd (p : Phrase) (s : State) : Host.Outcome State Fault Refusal :=
  (dictAdd p s).outcome addedValue

/-- DICT.RESET. -/
def execDictReset (s : State) : Host.Outcome State Fault Refusal :=
  (dictReset s).outcome noValue

/-- DICT.FREE (R105): never raises; with nothing allocated it has nothing to release. -/
def execDictFree (s : State) : Host.Outcome State Fault Refusal :=
  (Res.ok () s.freeDict).outcome noValue

end Sys2Proof.Machine
end

