-- ==== Sys2Proof/Machine/Reader.lean ====
section
/-! DEFINITION. The Code Reader (41_code_reader.md R120 to R123). -/

namespace Sys2Proof.Machine

/-- `RD.INIT()` (R120): PHASE is EVEN, and PEND has no value while it is (R28). -/
def rdInit (s : State) : State := { s with phase := some .even, pend := none }

/-- What `RD.EVEN` makes of the source's answer (R121). -/
def evenAnswer (r : SrcOut) (s : State) : Res (Option Code) :=
  match r with
  | .fail => .raise .read s
  | .bytes [] => .ok none s
  | .bytes [_] => .raise .read s
  | .bytes (b0 :: b1 :: _) => .ok (some (assembleEven b0 b1)) { s with pend := some b1, phase := some .odd }

/-- `RD.EVEN()` (R121): one request for two bytes. Its body does not read PHASE; that PHASE is EVEN is its caller's to
see to (R123, log 22). -/
def rdEven (s : State) : Res (Option Code) := evenAnswer (srcRead 2 s).1 (srcRead 2 s).2

/-- What `RD.ODD` makes of the source's answer, with `pend` in PEND (R122). Back in EVEN, PEND has no value (R28). -/
def oddAnswer (pend : Byte) (r : SrcOut) (s : State) : Res (Option Code) :=
  match r with
  | .fail => .raise .read s
  | .bytes [] => .ok none s
  | .bytes (b2 :: _) => .ok (some (assembleOdd pend b2)) { s with pend := none, phase := some .even }

/-- `RD.ODD()` (R122): one request for one byte. Its body does not read PHASE; that PHASE is ODD is its caller's to see to
(R123, log 22). -/
def rdOdd (s : State) : Res (Option Code) :=
  let p := readPend s
  oddAnswer p.1 (srcRead 1 p.2).1 (srcRead 1 p.2).2

/-- `RD.CODE()` (R123): `if PHASE == EVEN then RD.EVEN() else RD.ODD()`. -/
def rdCode (s : State) : Res (Option Code) :=
  let p := readPhase s
  match p.1 with
  | .even => rdEven p.2
  | .odd => rdOdd p.2

/-- The value a read returns (R123): a code, or `none`. -/
def readValue : Option Code → Ret
  | some c => .code c
  | none => .noCode

/-- RD.INIT. -/
def execRdInit (s : State) : Host.Outcome State Fault Refusal :=
  (Res.ok () (rdInit s)).outcome noValue

/-- RD.CODE. -/
def execRdCode (s : State) : Host.Outcome State Fault Refusal :=
  (rdCode s).outcome readValue

/-- RD.EVEN. -/
def execRdEven (s : State) : Host.Outcome State Fault Refusal :=
  (rdEven s).outcome readValue

/-- RD.ODD. -/
def execRdOdd (s : State) : Host.Outcome State Fault Refusal :=
  (rdOdd s).outcome readValue

end Sys2Proof.Machine
end

