-- ==== Sys2Proof/Machine/DecodeLoop.lean ====
section
/-! DEFINITION. The Decode Loop (42_decode_loop.md R141, R143 to R148): START, the decode steps, the phrase write. -/

namespace Sys2Proof.Machine

/-- `SNK.WRITE(p)` (R148): one request; anything but `accepted(len(p))` raises WriteError. -/
def snkWrite (p : Phrase) (s : State) : Res Unit :=
  if (sinkPut p s).1 then .ok () (sinkPut p s).2 else .raise .write (sinkPut p s).2

/-- `DEC.BOOT(r)` (R143), with `r` what the reader returned. NEXT is 256 in BOOT, so that `DICT.GET(r)` finds exactly the
literals, `[r]` (R102): a code of 256 or more raises (R86). -/
def decBoot (r : Option Code) (s : State) : Res Unit :=
  if s.mode ≠ .boot then .stuck .wrongMode
  else
    match r with
    | none => .raise .invalidFormat s
    | some c =>
      if isLiteral c then
        (snkWrite (alphaPhrase c) s).andThen fun _ s => .ok () { s with prev := some (alphaPhrase c), mode := .steady }
      else .raise .invalidFormat s

/-- The body of `DEC.HIT(c, e)` (R144), with `q` what PREV holds: write the entry, add `PREV ++ [e[0]]`, then PREV is the
entry. The entry and PREV are read before the addition (R208). -/
def hitBody (q : Phrase) (c : Code) (s : State) : Res Unit :=
  (dictGet c s).andThen fun found s =>
    match found with
    | none => .stuck .notSelected
    | some e =>
      (snkWrite e s).andThen fun _ s =>
        (dictAdd (hitPhrase q e) s).andThen fun _ s => .ok () { s with prev := some e }

/-- `DEC.HIT(c, e)` (R144), in STEADY. -/
def decHit (c : Code) (s : State) : Res Unit :=
  if s.mode ≠ .steady then .stuck .wrongMode
  else hitBody (readPrev s).1 c (readPrev s).2

/-- The body of `DEC.KWK(c)` (R145), with `q` what PREV holds: add `PREV ++ [PREV[0]]`, write it, then PREV is that phrase.
Whether `c == NEXT` is not checked (R89 (b)). -/
def kwkBody (q : Phrase) (c : Code) (s : State) : Res Unit :=
  (dictContains c s).andThen fun hit s =>
    if hit then .stuck .notSelected
    else
      (dictAdd (kwkPhrase q) s).andThen fun _ s =>
        (snkWrite (kwkPhrase q) s).andThen fun _ s => .ok () { s with prev := some (kwkPhrase q) }

/-- `DEC.KWK(c)` (R145), in STEADY. -/
def decKwk (c : Code) (s : State) : Res Unit :=
  if s.mode ≠ .steady then .stuck .wrongMode
  else kwkBody (readPrev s).1 c (readPrev s).2

/-- The registers START sets before it calls DICT.INIT (R141). -/
def startRegs (s : State) : State :=
  { s with err := .ok, out := [], spos := some 0, prev := none, pend := none }

/-- START when it is accepted (R141). -/
def startSession (s : State) : Res Unit :=
  (dictInit Config.codeWidth (startRegs s)).andThen fun _ s => .ok () { rdInit s with mode := .boot }

/-- DEC.BOOT: the first code is the literal b. -/
def execDecBoot (b : Byte) (s : State) : Host.Outcome State Fault Refusal :=
  (decBoot (some (literalCode b)) s).outcome noValue

/-- DEC.BOOT.INVALID: the first code is 256 or more. -/
def execDecBootInvalid (c : Code) (s : State) : Host.Outcome State Fault Refusal :=
  (if isLiteral c then Res.stuck .notSelected else decBoot (some c) s).outcome noValue

/-- DEC.BOOT.EMPTY: there is no first code. -/
def execDecBootEmpty (s : State) : Host.Outcome State Fault Refusal :=
  (decBoot none s).outcome noValue

/-- DEC.HIT.LIT: the code is the literal b. -/
def execDecHitLit (b : Byte) (s : State) : Host.Outcome State Fault Refusal :=
  (decHit (literalCode b) s).outcome noValue

/-- DEC.HIT.REF: the code is a reference. -/
def execDecHitRef (c : Code) (s : State) : Host.Outcome State Fault Refusal :=
  (if isLiteral c then Res.stuck .notSelected else decHit c s).outcome noValue

/-- DEC.KWK. -/
def execDecKwk (c : Code) (s : State) : Host.Outcome State Fault Refusal :=
  (decKwk c s).outcome noValue

/-- DEC.END (R146): `Finish(OK)`. -/
def execDecEnd (s : State) : Host.Outcome State Fault Refusal :=
  (if s.mode = .steady then Res.ok () (s.finish .ok) else Res.stuck .wrongMode).outcome noValue

/-- DEC.ABORT (R147): `Finish(E)`, in BOOT or STEADY, for the kinds the block raises (R172). -/
def execDecAbort (e : ErrKind) (s : State) : Host.Outcome State Fault Refusal :=
  (if !s.busy then Res.stuck .wrongMode
    else if e.ofBlock then Res.raise e s else Res.stuck .notOfBlock).outcome noValue

/-- SNK.WRITE. -/
def execSnkWrite (p : Phrase) (s : State) : Host.Outcome State Fault Refusal :=
  (snkWrite p s).outcome noValue

/-- START (R141, R35): accepted in IDLE and DONE, otherwise ignored with no change of state. -/
def execStart (s : State) : Host.Outcome State Fault Refusal :=
  if s.busy then .next s else (startSession s).outcome noValue

end Sys2Proof.Machine
end

