-- ==== Sys2Proof/Machine/Dispatch.lean ====
section
/-! DEFINITION. One arm per row of the opcode table: the meaning of each instruction. -/

namespace Sys2Proof.Machine

def exec (i : Instr) (s : State) : Host.Outcome State Fault Refusal :=
  match i with
  | .decBoot b => Sys2Proof.Machine.execDecBoot b s
  | .decBootInvalid c => Sys2Proof.Machine.execDecBootInvalid c s
  | .decBootEmpty => Sys2Proof.Machine.execDecBootEmpty s
  | .decHitLit b => Sys2Proof.Machine.execDecHitLit b s
  | .decHitRef c => Sys2Proof.Machine.execDecHitRef c s
  | .decKwk c => Sys2Proof.Machine.execDecKwk c s
  | .decEnd => Sys2Proof.Machine.execDecEnd s
  | .decAbort e => Sys2Proof.Machine.execDecAbort e s
  | .rdInit => Sys2Proof.Machine.execRdInit s
  | .rdCode => Sys2Proof.Machine.execRdCode s
  | .rdEven => Sys2Proof.Machine.execRdEven s
  | .rdOdd => Sys2Proof.Machine.execRdOdd s
  | .dictInit width => Sys2Proof.Machine.execDictInit width s
  | .dictContains c => Sys2Proof.Machine.execDictContains c s
  | .dictGet c => Sys2Proof.Machine.execDictGet c s
  | .dictAdd p => Sys2Proof.Machine.execDictAdd p s
  | .dictReset => Sys2Proof.Machine.execDictReset s
  | .dictFree => Sys2Proof.Machine.execDictFree s
  | .snkWrite p => Sys2Proof.Machine.execSnkWrite p s
  | .start => Sys2Proof.Machine.execStart s

end Sys2Proof.Machine
end

