-- ==== Sys2Proof/Machine/Fetch.lean ====
section
/-! DEFINITION. What one step has to do: first what the host does (R35, R200, R203), then, in a session, the reading of one
code and the selection of its decode step (R142); and how far a step has come when the reset input ends it (R200). -/

namespace Sys2Proof.Machine

/-- What a step comes down to. -/
inductive Plan where
  | run (i : Instr) (s : State)     -- run one instruction
  | rest (s : State)                -- no instruction: this is the next state
  | stuck (f : Fault)
  | refuse (r : Refusal)
  deriving DecidableEq, Repr

/-- Whether the selection compares the code with NEXT: in STEADY, for a code that is no literal (R85, R87). -/
def comparesNext (mode : Mode) (r : Option Code) : Bool :=
  match mode, r with
  | .steady, some c => !isLiteral c
  | _, _ => false

/-- The decode step for what the reader returned, with the state after the read. A code that has to be compared with NEXT
is `stuck` while NEXT has no value (U17, through the DICT.GET of R142); for every other, NEXT does not matter. -/
def planRead (r : Option Code) (s : State) : Plan :=
  match s.next, comparesNext s.mode r with
  | none, true => .stuck .noDictionary
  | n, _ =>
    match select s.mode (n.getD Config.firstCode) r with
    | .ok i => .run i s
    | .error _ => .stuck .wrongMode

/-- `Step` in a session (R142): read one code; a ReadError goes to DEC.ABORT. -/
def planCode (s : State) : Plan :=
  match rdCode s with
  | .ok r t => planRead r t
  | .raise e t => .run (.decAbort e) t
  | .stuck f => .stuck f

/-- A step with nothing from the host: in a session one code, otherwise the block waits (R183). -/
def planQuiet (s : State) : Plan := if s.busy then planCode s else .rest s

/-! ## The reset input inside a step (R200) -/

/-- What a decode step does after its read, that its surroundings can see: a phrase written, a phrase added. -/
inductive SubOp where
  | write (p : Phrase)
  | add (p : Phrase)
  deriving DecidableEq, Repr

/-- The sub-operations of DEC.BOOT for a code (R143): the write of a literal. -/
def bootOps (c : Code) : List SubOp := if isLiteral c then [.write (alphaPhrase c)] else []

/-- The sub-operations of a step in STEADY for a code: if it is found, write, then add (R144); if not, add, then write
(R145). -/
def steadyOps (c : Code) (s : State) : List SubOp :=
  let q := (readPrev s).1
  match dictGet c s with
  | .ok (some e) _ => [.write e, .add (hitPhrase q e)]
  | .ok none _ => [.add (kwkPhrase q), .write (kwkPhrase q)]
  | _ => []

/-- The sub-operations of the step after its read, by MODE and what the reader returned; a clean end has none. -/
def subOps (r : Option Code) (s : State) : List SubOp :=
  match r, s.mode with
  | some c, .boot => bootOps c
  | some c, .steady => steadyOps c s
  | _, _ => []

/-- One sub-operation carried out. -/
def SubOp.run (o : SubOp) (s : State) : Res Unit :=
  match o with
  | .write p => snkWrite p s
  | .add p => (dictAdd p s).andThen fun _ s => .ok () s

/-- One sub-operation under way: a write may have got some of its bytes into the sink; an addition has no effect before
it is done. -/
def SubOp.part (bytes : Nat) (o : SubOp) (s : State) : State :=
  match o with
  | .write p => sinkPart bytes p s
  | .add _ => s

/-- The state with the first `ops` sub-operations done and the next one under way. One that raises ends the session, so
nothing comes after it. -/
def runSubOps : List SubOp → Nat → Nat → State → State
  | [], _, _, s => s
  | o :: _, 0, bytes, s => o.part bytes s
  | o :: os, n + 1, bytes, s =>
    match o.run s with
    | .ok _ t => runSubOps os n bytes t
    | .raise _ t => t
    | .stuck _ => s

/-- The state inside a step, `ops` of its sub-operations done, the read of the code being the first of them. Between
sessions a step does nothing. -/
def State.insideStep (ops bytes : Nat) (s : State) : State :=
  match s.busy, ops with
  | true, n + 1 =>
    match rdCode s with
    | .ok r t => runSubOps (subOps r t) n bytes t
    | .raise _ t => t
    | .stuck _ => s
  | _, _ => s

/-- The state inside START, before it asks for its storage; during a session START is ignored (R141, R35). -/
def State.insideStart (s : State) : State := if s.busy then s else startRegs s

/-! ## The host's turn -/

/-- The state with the host's pending input used up. -/
def State.dropInput (s : State) : State := { s with inputs := s.inputs.tail }

/-- What the host does at this step. -/
def hostInput (s : State) : HostIn := s.inputs.headD .quiet

/-- The step by what the host does at it. -/
def plan (s : State) : Plan :=
  match hostInput s with
  | .quiet => planQuiet s.dropInput
  | .start => .run .start s.dropInput
  | .reset => .rest s.dropInput.hardReset
  | .resetInStart => .rest s.dropInput.insideStart.hardReset
  | .resetInStep ops bytes => .rest (s.dropInput.insideStep ops bytes).hardReset
  | .connect src =>
    if s.busy then .refuse .streamChanged else .rest { s.dropInput with src := src }

/-- A session as START leaves it, with `bytes` for its source: the state from which the next step reads the first code. -/
def State.freshSession (bytes : List Byte) (s : State) : State :=
  { s with
    mode := .boot, err := .ok, next := some Config.firstCode, seeded := true, ent := [],
    phase := some .even, pend := none, prev := none, spos := some 0, out := [], src := bytes }

/-- The source with `bytes` standing at offset k and nothing after them; before k it is as it was, a shorter source being
filled up with zeros, which no read from k on reaches (log 11). -/
def placeBytes (src : List Byte) (k : Nat) (bytes : List Byte) : List Byte :=
  (src ++ List.replicate k 0#8).take k ++ bytes

/-- The low nibble of PEND set to n. -/
def withLowNibble (b : Byte) (n : Nibble) : Byte := joinNibbles (b.extractLsb' 4 4) n

/-- The 12-bit code of a table word placed where the next read of a running session finds it: two bytes at SPOS in EVEN;
in ODD its low byte at SPOS and its top nibble in PEND (R83). No bits are the end of the stream.
DESIGN CHOICE: a running session without SPOS, PHASE or PEND is no state of the block, and the spec has any value there
(R41, U4, U6). The loader gives such a register a value, since the next read needs it to find the word: SPOS offset 0 and
PHASE EVEN, as START sets them (R141), and PEND, in ODD, 0x00 with the top nibble of the code (log 11). -/
def State.placeCode (nbits : Nat) (c : Code) (s : State) : State :=
  let k := s.spos.getD 0
  match s.phase with
  | some .odd =>
    { s with
      spos := some k
      pend := some (withLowNibble (s.pend.getD 0#8) (highNibble c))
      src := placeBytes s.src k (if nbits = 0 then [] else [encodeB2 c]) }
  | _ =>
    { s with
      spos := some k
      phase := some .even
      src := placeBytes s.src k (if nbits = 0 then [] else encodeEven c 0#4) }

/-- The state in which the next step finds nothing from the host and a source that does not fail, then everything that
was pending. -/
def State.readyToRead (s : State) : State :=
  { s with inputs := .quiet :: s.inputs, srcAns := .bytes :: s.srcAns }

end Sys2Proof.Machine
end

