-- ==== Sys2Proof/Machine/Step.lean ====
section
/-! DEFINITION. One step of the machine (R13, R142), and a table word placed for the next step. -/

namespace Sys2Proof.Machine

/-- One step: what `plan` says, an instruction being run by `exec`. -/
def step (s : State) : Host.Outcome State Fault Refusal :=
  match plan s with
  | .run i t => exec i t
  | .rest t => .next t
  | .stuck f => .fault f
  | .refuse r => .refused r

/-- `s` with a table word where the next step reads its code. Where no session runs the block reads no code, so this
stands for the host's connecting a source with that word first and issuing START (R203, R141). -/
def State.withFetchWord (s : State) (nbits w : Nat) : State :=
  if s.busy then (s.placeCode nbits (BitVec.ofNat 12 w)).readyToRead
  else (s.freshSession (tableBytes nbits w)).readyToRead

end Sys2Proof.Machine
end

