-- ==== Sys2Proof/Safety.lean ====
section
/-! DEFINITION. The terms claims are stated in: what a default environment is, the invariants of the block (R25, R39, R40,
R42, R154), and the whole-run function of R153, written over lists without the machine. -/

namespace Sys2Proof.Machine

/-! ## The environment -/

/-- No answer is pending, so no read fails, every write is accepted whole and storage is granted; phrases are
unbounded: the default environment of 92_eei_decisions.md. -/
def PerfectEnv (s : State) : Prop :=
  s.srcAns = [] ∧ s.sinkAns = [] ∧ s.allocAns = [] ∧ s.phraseMax = none

/-- The coming source read does not fail (R56). -/
def ReadOk (s : State) : Prop := srcAnswer s = .bytes

/-- The coming sink write takes a phrase of length n whole (R58). -/
def SinkTakes (n : Nat) (s : State) : Prop := (sinkAnswer n s).full n = true

/-- A phrase of length n can be stored: not longer than PHRASE_MAX, and the coming request is granted (R108). -/
def StorageFor (n : Nat) (s : State) : Prop := s.tooLong n = false ∧ allocAnswer s = true

/-- Nothing from the host at this step. -/
def Quiet (s : State) : Prop := hostInput s = .quiet

/-- The environment fields, which only the host and the streams change, and the free offsets to come. -/
def SameEnv (s t : State) : Prop :=
  s.src = t.src ∧ s.srcAns = t.srcAns ∧ s.sinkAns = t.sinkAns ∧ s.allocAns = t.allocAns ∧
    s.phraseMax = t.phraseMax ∧ s.inputs = t.inputs ∧ s.draws = t.draws

/-! ## Selection and reading -/

/-- The select condition of the stream-selected rows of the opcode table, on MODE and NEXT (R86, R87). -/
def SelectedIn (mode : Mode) (next : Next) : Instr → Prop
  | .decBoot _ => mode = .boot
  | .decBootInvalid c => mode = .boot ∧ 256 ≤ c.toNat
  | .decBootEmpty => mode = .boot
  | .decHitLit _ => mode = .steady
  | .decHitRef c => mode = .steady ∧ 256 ≤ c.toNat ∧ c.toNat < next.toNat
  | .decKwk c => mode = .steady ∧ 256 ≤ c.toNat ∧ next.toNat ≤ c.toNat
  | .decEnd => mode = .steady
  | .decAbort e => (mode = .boot ∨ mode = .steady) ∧ e = .read
  | _ => False

/-- The state in which a decode step runs: m of `bytes`, the source from offset k on, have been read in phase ph (R121,
R122). A complete read turns the phase; an incomplete one does not. -/
def afterRead (ph : Phase) (bytes : List Byte) (k m : Nat) (s : State) : State :=
  match ph, bytes with
  | .even, _ :: b1 :: _ =>
    { s with srcAns := s.srcAns.tail, spos := some (k + m), pend := some b1, phase := some .odd }
  | .odd, _ :: _ => { s with srcAns := s.srcAns.tail, spos := some (k + m), pend := none, phase := some .even }
  | _, _ => { s with srcAns := s.srcAns.tail, spos := some (k + m) }

/-- The rows of DEC.HIT, each with the code it looks up: a literal byte's code, or a reference of 256 or more (R95). -/
def HitRow : Instr → Code → Prop
  | .decHitLit b, c => c = literalCode b
  | .decHitRef d, c => c = d ∧ 256 ≤ d.toNat
  | _, _ => False

/-- The reset input comes at this step: before it or inside it (R200). -/
def ResetComes (s : State) : Prop :=
  hostInput s = .reset ∨ hostInput s = .resetInStart ∨ ∃ ops bytes, hostInput s = .resetInStep ops bytes

/-! ## Invariants -/

/-- Every register of a session is without a value (R39, R40, R202, U6). -/
def NoSession (s : State) : Prop :=
  s.next = none ∧ s.ent = [] ∧ s.phase = none ∧ s.pend = none ∧ s.prev = none ∧ s.spos = none

/-- The dictionary invariant (R25): NEXT in 256 to 4096, the dynamic entries exactly those below it, the alphabet set. -/
def DictInv (n : Next) (s : State) : Prop :=
  s.next = some n ∧ 256 ≤ n.toNat ∧ n.toNat ≤ 4096 ∧ s.seeded = true ∧
    s.ent.map Prod.fst = List.range' 256 (n.toNat - 256)

/-- The reader between steps (R26, R28): the phase fits the offset, and PEND has a value exactly in ODD. -/
def ReaderInv (ph : Phase) (k : Nat) (s : State) : Prop :=
  s.phase = some ph ∧ s.spos = some k ∧
    match ph with
    | .even => k % 3 = 0 ∧ s.pend = none
    | .odd => k % 3 = 2 ∧ s.pend.isSome = true

/-- The results a session of this block can end with (R172). -/
def Result.ofBlock : Result → Bool
  | .ok => true
  | .error e => e.ofBlock

/-- What holds between steps, by MODE (R25, R26, R28, R39, R40, R143, R146, R172). -/
def BlockInv (s : State) : Prop :=
  match s.mode with
  | .idle => NoSession s ∧ s.err = .ok
  | .boot => DictInv Config.firstCode s ∧ ReaderInv .even 0 s ∧ s.prev = none ∧ s.out = [] ∧ s.err = .ok
  | .steady =>
    (∃ n, DictInv n s) ∧ (∃ ph k, ReaderInv ph k s ∧ k ≠ 0) ∧ s.prev.isSome = true ∧ s.out ≠ [] ∧ s.err = .ok
  | .done => NoSession s ∧ Result.ofBlock s.err = true ∧ (s.err = .ok → s.out ≠ [])

/-- The number of codes read when SPOS is k between steps: two per three bytes, and one more after a two-byte read. -/
def codesRead (k : Nat) : Nat := 2 * k / 3

/-- NEXT after m codes (R154 (c)). -/
def nextAfter (m : Nat) : Nat := if m ≤ 1 then 256 else 257 + (m - 2) % 3840

/-- NEXT is a function of the position in the stream (R110, R154 (c)). -/
def NextCountInv (s : State) : Prop :=
  s.mode = .steady → ∀ n k, s.next = some n → s.spos = some k → n.toNat = nextAfter (codesRead k)

/-- After m codes no phrase is longer than m (R42). -/
def LengthInv (s : State) : Prop :=
  s.mode = .steady → ∀ k, s.spos = some k →
    (∀ p, s.prev = some p → p.bytes.length ≤ codesRead k) ∧ ∀ e ∈ s.ent, e.2.bytes.length ≤ codesRead k

/-- PREV is the phrase most recently written: OUT ends with it (R154 (a)). -/
def PrevInv (s : State) : Prop := s.mode = .steady → ∀ p, s.prev = some p → p.bytes <:+ s.out

/-! ## The whole run (R153) -/

/-- The codes of a source and whether a stray byte is left (R124): bytes to numbers as R60 lays them out. -/
def streamCodes : List Byte → List Code × Bool
  | [] => ([], false)
  | [_] => ([], true)
  | [b0, b1] => ([BitVec.ofNat 12 (b0.toNat * 16 + b1.toNat / 16)], false)
  | b0 :: b1 :: b2 :: rest =>
    (BitVec.ofNat 12 (b0.toNat * 16 + b1.toNat / 16) ::
      BitVec.ofNat 12 (b1.toNat % 16 * 256 + b2.toNat) :: (streamCodes rest).1, (streamCodes rest).2)

/-- The phrase of a code, `dyn` holding the phrases of 256, 257, … in order. -/
def refLookup (dyn : List (List Byte)) (c : Nat) : Option (List Byte) :=
  if c < 256 then some [BitVec.ofNat 8 c] else dyn[c - 256]?

/-- An addition: with all 3840 dynamic codes in use, the table starts over. -/
def refAdd (dyn : List (List Byte)) (p : List Byte) : List (List Byte) :=
  if dyn.length = 3840 then [p] else dyn ++ [p]

/-- The loop over the codes after the first (R153). -/
def refLoop (dyn : List (List Byte)) (prev out : List Byte) : List Code → List Byte
  | [] => out
  | c :: rest =>
    match refLookup dyn c.toNat with
    | some e => refLoop (refAdd dyn (prev ++ e.take 1)) e (out ++ e) rest
    | none => refLoop (refAdd dyn (prev ++ prev.take 1)) (prev ++ prev.take 1) (out ++ (prev ++ prev.take 1)) rest

/-- `Decode(SRC) = (OUT, ERR)` (R153). -/
def refDecode (src : List Byte) : List Byte × Result :=
  match (streamCodes src).1 with
  | [] => ([], if (streamCodes src).2 then .error .read else .error .invalidFormat)
  | c :: rest =>
    if c.toNat < 256 then
      (refLoop [] [BitVec.ofNat 8 c.toNat] [BitVec.ofNat 8 c.toNat] rest,
        if (streamCodes src).2 then .error .read else .ok)
    else ([], .error .invalidFormat)

end Sys2Proof.Machine
end

