-- ==== Sys2Proof/Certificates/Slice0/Obligations.lean ====
section
/-! DEFINITION. The statements for the provers, each from a numbered rule of spec/ or, where its docstring says so, from an
inference or a decision that the spec marks as its own. -/

open Sys2Proof Sys2Proof.Machine

/-! ## Encoding and selection -/

/-- Words written out bit by bit from R81, R86, R87 decode to the steps they stand for: `04 10` is code 65, `FF F0` is
4095, `10 10` is 257, PEND `10` with `42` is 66, PEND `01` with `02` is 258; the ends of the stream (R88). -/
def Obligations.WrittenWordsDecode : Prop :=
  decode .boot 256#13 .even 0#8 [0x04#8, 0x10#8] = .ok (.decBoot 0x41#8, 2) ∧
    decode .boot 256#13 .even 0#8 [0xFF#8, 0xF0#8, 0x41#8] = .ok (.decBootInvalid 0xFFF#12, 2) ∧
    decode .steady 258#13 .even 0#8 [0x10#8, 0x10#8] = .ok (.decHitRef 257#12, 2) ∧
    decode .steady 256#13 .odd 0x10#8 [0x42#8] = .ok (.decHitLit 0x42#8, 1) ∧
    decode .steady 258#13 .odd 0x01#8 [0x02#8] = .ok (.decKwk 258#12, 1) ∧
    decode .boot 256#13 .even 0#8 [] = .ok (.decBootEmpty, 0) ∧
    decode .steady 257#13 .even 0#8 [] = .ok (.decEnd, 0) ∧
    decode .steady 257#13 .even 0#8 [0x10#8] = .ok (.decAbort .read, 1)

/-- R83: the two assembly formulas as numbers; no bit of B0, B1, PEND[3:0] or B2 is lost, no sign extension, scaling or
bias. -/
def Obligations.AssemblyFormulas : Prop :=
  ∀ b0 b1 pend b2 : Byte,
    (assembleEven b0 b1).toNat = b0.toNat * 16 + b1.toNat / 16 ∧
      (assembleOdd pend b2).toNat = pend.toNat % 16 * 256 + b2.toNat

/-- Decode after encode is the identity (R81 to R83, R86, R87): a well-formed row with a code, in the mode and at the NEXT
that select it, is what the decoder reads from its code's bytes in either phase, whatever nibble follows and whatever
bytes come after. -/
def Obligations.DecodeEncodeAgree : Prop :=
  ∀ (i : Instr) (c : Code) (mode : Mode) (next : Next),
    i.wf = true → codeOf i = some c → SelectedIn mode next i →
      (∀ (pend : Byte) (n : Nibble) (rest : List Byte),
        decode mode next .even pend (encodeEven c n ++ rest) = .ok (i, 2)) ∧
      ∀ (hi : Nibble) (rest : List Byte),
        decode mode next .odd (joinNibbles hi (highNibble c)) (encodeB2 c :: rest) = .ok (i, 1)

/-- What the decoder answers is well formed, is selected by MODE and NEXT as the opcode table says (R86, R87), and takes no
more bytes than there are. -/
def Obligations.DecodedStepsAreSelected : Prop :=
  ∀ (mode : Mode) (next : Next) (ph : Phase) (pend : Byte) (bytes : List Byte) (i : Instr) (m : Nat),
    decode mode next ph pend bytes = .ok (i, m) →
      i.wf = true ∧ SelectedIn mode next i ∧ m ≤ bytes.length

/-- Reading what `Pack` wrote gives the codes back and ends cleanly, whatever the padding (R92, R82: inferences of the
spec). -/
def Obligations.PackThenReadIsIdentity : Prop :=
  ∀ (codes : List Code) (pad : Nibble), streamCodes (pack pad codes) = (codes, false)

/-! ## A step -/

/-- R142: with nothing from the host and a source that does not fail, a step in a session is `exec` of the instruction
that the decoder reads at SPOS, on the state after the read. -/
def Obligations.StepRunsDecodedInstruction : Prop :=
  ∀ (s : State) (n : Next) (ph : Phase) (k m : Nat) (pend : Byte) (i : Instr),
    Quiet s → ReadOk s → s.next = some n → s.phase = some ph → s.spos = some k → (ph = .odd → s.pend = some pend) →
      decode s.mode n ph pend (s.src.drop k) = .ok (i, m) →
        step s = exec i (afterRead ph (s.src.drop k) k m s.dropInput)

/-- The host's turn at a step (log 10): START runs as an instruction, the reset input resets what it finds, before a step
or inside one, a source is connected only outside a session, and with nothing from the host a block without a session
waits (R35, R183, R200, R203, R214). -/
def Obligations.HostInputsTakeTheirTurn : Prop :=
  ∀ s : State,
    (hostInput s = .start → step s = exec .start s.dropInput) ∧
      (hostInput s = .reset → step s = .next s.dropInput.hardReset) ∧
      (hostInput s = .resetInStart → step s = .next s.dropInput.insideStart.hardReset) ∧
      (∀ ops bytes, hostInput s = .resetInStep ops bytes →
        step s = .next (s.dropInput.insideStep ops bytes).hardReset) ∧
      (∀ src, hostInput s = .connect src → s.busy = false → step s = .next { s.dropInput with src := src }) ∧
      (∀ src, hostInput s = .connect src → s.busy = true → step s = .refused .streamChanged) ∧
      (Quiet s → s.busy = false → step s = .next s.dropInput)

/-! ## Reset and START -/

/-- After hardware reset MODE is IDLE, ERR is OK and every register of the session is without a value (R39 and R202,
decision D13 of the spec; log 4). -/
def Obligations.ResetLeavesNoSession : Prop :=
  State.reset.mode = .idle ∧ State.reset.err = .ok ∧ State.reset.next = none ∧ State.reset.phase = none ∧
    State.reset.pend = none ∧ State.reset.prev = none ∧ State.reset.spos = none ∧ ∀ c : Code, State.reset.entry c = none

/-- The reset input, in any state and at any time, before a step or inside one, gives a block without a session: MODE is
IDLE, ERR is OK, no other register has a value. No result is written and the source is not rewound; accepted bytes stay
accepted, but for those of an earlier session that START, reached by the reset, had already taken out of OUT (R200, R202,
decisions D13 and D15 of the spec; log 7, 10). -/
def Obligations.ResetInputAbandonsSession : Prop :=
  ∀ s : State, ResetComes s →
    ∃ t, step s = .next t ∧ t.mode = .idle ∧ t.err = .ok ∧ NoSession t ∧ (∀ c : Code, t.entry c = none) ∧
      t.src = s.src ∧ t.phraseMax = s.phraseMax ∧
      (hostInput s = .reset → t.out = s.out ∧ t.srcAns = s.srcAns ∧ t.sinkAns = s.sinkAns ∧ t.allocAns = s.allocAns) ∧
      (hostInput s = .resetInStart → t.out = if s.busy then s.out else []) ∧
      (hostInput s ≠ .resetInStart → s.out <+: t.out)

/-- R201: START in IDLE or DONE, with storage granted, seeds the alphabet, sets NEXT to 256 and the phase to EVEN, enters
BOOT at source offset 0, with no dynamic entry, PEND, PREV or output; nothing else changes. -/
def Obligations.StartInitialisesSession : Prop :=
  ∀ s : State, (s.mode = .idle ∨ s.mode = .done) → allocAnswer s = true →
    ∃ t, exec .start s = .next t ∧
      t.mode = .boot ∧ t.err = .ok ∧ t.next = some 256#13 ∧ t.phase = some .even ∧ t.pend = none ∧ t.prev = none ∧
      t.spos = some 0 ∧ t.out = [] ∧
      (∀ b : Byte, t.entry (literalCode b) = some (single b)) ∧
      (∀ c : Code, 256 ≤ c.toNat → t.entry c = none) ∧
      t.src = s.src ∧ t.srcAns = s.srcAns ∧ t.sinkAns = s.sinkAns ∧ t.allocAns = s.allocAns.tail ∧
      t.phraseMax = s.phraseMax ∧ t.inputs = s.inputs

/-- START whose storage is refused ends the session at once with AllocationError, nothing read and nothing written, no
register of a session with a value, SPOS among them (R141, R202; U6, log 7; `AllocOk` is decision D12 of the spec). -/
def Obligations.StartWithoutStorageFails : Prop :=
  ∀ s : State, (s.mode = .idle ∨ s.mode = .done) → allocAnswer s = false →
    ∃ t, exec .start s = .next t ∧ t.mode = .done ∧ t.err = .error .allocation ∧ t.out = [] ∧
      t.src = s.src ∧ t.srcAns = s.srcAns ∧ NoSession t

/-- START in BOOT or STEADY is ignored: no change of state (R35, U14, decision D2 of the spec). -/
def Obligations.StartIgnoredWhileBusy : Prop :=
  ∀ s : State, (s.mode = .boot ∨ s.mode = .steady) → exec .start s = .next s

/-- Nothing a session reads depends on what an earlier one left (R39, R125; decision D13 of the spec): two idle or ended
blocks in the same environment are the same after START. Where storage is refused, no alphabet has been set, so there the
two blocks must agree on whether it was before (log 6). -/
def Obligations.StartForgetsThePast : Prop :=
  ∀ s t : State, s.busy = false → t.busy = false → SameEnv s t →
    (allocAnswer s = true ∨ s.seeded = t.seeded) → exec .start s = exec .start t

/-! ## The Dictionary -/

/-- R100: DICT.INIT seeds codes 0 to 255 with their single bytes and sets NEXT to 256, with no other entry, if storage is
granted; otherwise it raises AllocationError, which ends the session (log 16). Nothing else changes. -/
def Obligations.InitSeedsAlphabet : Prop :=
  ∀ s : State,
    (allocAnswer s = true →
      ∃ t, exec (.dictInit 12) s = .next t ∧ t.next = some 256#13 ∧
        (∀ b : Byte, t.entry (literalCode b) = some (single b)) ∧
        (∀ c : Code, 256 ≤ c.toNat → t.entry c = none) ∧
        t = { s with
          next := some 256#13, seeded := true, ent := [], allocAns := s.allocAns.tail, ret := .unit }) ∧
    (allocAnswer s = false →
      ∃ t, exec (.dictInit 12) s = .next t ∧ t.mode = .done ∧ t.err = .error .allocation ∧ t.out = s.out)

/-- R101: DICT.CONTAINS(c) returns whether c is below NEXT, true for a code up to 255 in every state, and changes nothing.
NEXT is never below 256 (R25). -/
def Obligations.ContainsComparesWithNext : Prop :=
  ∀ (s : State) (c : Code),
    (c.toNat ≤ 255 → exec (.dictContains c) s = .next { s with ret := .bit true }) ∧
      ∀ n : Next, s.next = some n → 256 ≤ n.toNat →
        exec (.dictContains c) s = .next { s with ret := .bit (decide (c.toNat < n.toNat)) }

/-- R102: DICT.GET(i) for i up to 255 is always `some([i])`; DICT.GET(c) returns the entry below NEXT, which is there, and
none at or above it; it changes nothing. -/
def Obligations.GetAnswersBelowNext : Prop :=
  (∀ (s : State) (b : Byte), exec (.dictGet (literalCode b)) s = .next { s with ret := .entry (some (single b)) }) ∧
    ∀ (s : State) (c : Code) (n : Next), DictInv n s →
      (c.toNat < n.toNat →
        ∃ e, s.entry c = some e ∧ exec (.dictGet c) s = .next { s with ret := .entry (some e) }) ∧
      (n.toNat ≤ c.toNat → exec (.dictGet c) s = .next { s with ret := .entry none })

/-- DICT.ADD with NEXT below the capacity (R103): the phrase stands at NEXT, NEXT is one more, the pair is returned; every
other entry and everything else is as before. -/
def Obligations.AddStoresAtNext : Prop :=
  ∀ (s : State) (p : Phrase) (n : Next),
    s.next = some n → 256 ≤ n.toNat → n.toNat < 4096 → StorageFor p.bytes.length s →
      ∃ t m, exec (.dictAdd p) s = .next t ∧
        t = { s with
          next := some (n + 1#13), ent := m, allocAns := s.allocAns.tail, ret := .added (n.setWidth 12) p } ∧
        t.entry (n.setWidth 12) = some p ∧
        ∀ c : Code, c.toNat ≠ n.toNat → t.entry c = s.entry c

/-- DICT.ADD that finds NEXT at the capacity resets first and inserts at 256 (R103 with the lazy reset, decision D7 of the
spec): afterwards NEXT is 257, 256 is the only dynamic entry, the alphabet and everything else is as before. -/
def Obligations.AddAtCapacityResets : Prop :=
  ∀ (s : State) (p : Phrase), s.next = some 4096#13 → StorageFor p.bytes.length s →
    ∃ t m, exec (.dictAdd p) s = .next t ∧
      t = { s with next := some 257#13, ent := m, allocAns := s.allocAns.tail, ret := .added 256#12 p } ∧
      t.entry 256#12 = some p ∧
      (∀ c : Code, 257 ≤ c.toNat → t.entry c = none) ∧
      ∀ b : Byte, t.entry (literalCode b) = s.entry (literalCode b)

/-- DICT.ADD refused its storage raises AllocationError, which ends the session (log 16) and leaves it without registers (R202; SPOS by
U6, log 7); OUT stays (R103, R108; PHRASE_MAX and `AllocOk` are decision D12 of the spec). -/
def Obligations.AddWithoutStorageFails : Prop :=
  ∀ (s : State) (p : Phrase) (n : Next),
    s.next = some n → 256 ≤ n.toNat → n.toNat ≤ 4096 → ¬StorageFor p.bytes.length s →
      ∃ t, exec (.dictAdd p) s = .next t ∧ t.mode = .done ∧ t.err = .error .allocation ∧ t.out = s.out ∧ NoSession t

/-- R104: DICT.RESET, with NEXT at the capacity, discards every entry from 256 on and sets NEXT to 256; the alphabet, PREV,
PHASE, PEND and the streams are untouched. -/
def Obligations.ResetDiscardsDynamicEntries : Prop :=
  ∀ s : State, s.next = some 4096#13 →
    ∃ t, exec .dictReset s = .next t ∧ t.next = some 256#13 ∧
      (∀ c : Code, 256 ≤ c.toNat → t.entry c = none) ∧
      (∀ b : Byte, t.entry (literalCode b) = s.entry (literalCode b)) ∧
      t = { s with next := some 256#13, ent := t.ent, ret := .unit }

/-- R105: DICT.FREE releases the entries from 256 on and NEXT; it never fails and touches neither the alphabet, OUT, ERR
nor anything else. The storage is released on every exit path: whatever instruction ends a session, no entry from 256 on
and no NEXT is left, and the alphabet is as it was. -/
def Obligations.FreeReleasesDynamicEntries : Prop :=
  (∀ s : State,
    ∃ t, exec .dictFree s = .next t ∧ t.next = none ∧
      (∀ c : Code, 256 ≤ c.toNat → t.entry c = none) ∧
      (∀ b : Byte, t.entry (literalCode b) = s.entry (literalCode b)) ∧
      t = { s with next := none, ent := t.ent, ret := .unit }) ∧
    ∀ (i : Instr) (s t : State), exec i s = .next t → s.mode ≠ .done → t.mode = .done →
      t.next = none ∧ (∀ c : Code, 256 ≤ c.toNat → t.entry c = none) ∧
        ∀ b : Byte, t.entry (literalCode b) = s.entry (literalCode b)

/-- The dictionary operations leave the streams alone and, unless they raise and end the session with AllocationError (log
16; its registers are then released, SPOS by log 7), all of the reader and the decode loop. -/
def Obligations.DictionaryFrame : Prop :=
  ∀ (i : Instr) (s t : State),
    ((∃ w, i = .dictInit w) ∨ (∃ c, i = .dictContains c) ∨ (∃ c, i = .dictGet c) ∨ (∃ p, i = .dictAdd p) ∨
        i = .dictReset ∨ i = .dictFree) →
      exec i s = .next t →
        t.src = s.src ∧ t.srcAns = s.srcAns ∧ t.sinkAns = s.sinkAns ∧ t.out = s.out ∧ t.phraseMax = s.phraseMax ∧
          t.inputs = s.inputs ∧
          ((t.mode = .done ∧ t.err = .error .allocation ∧ NoSession t) ∨
            (t.mode = s.mode ∧ t.err = s.err ∧ t.phase = s.phase ∧ t.pend = s.pend ∧ t.prev = s.prev ∧
              t.spos = s.spos))

/-- Every instruction and every step keeps the table's canonical form, in every state: no write goes below 256 nor to 4096
or above (R68, R103 (c): an inference of the spec). -/
def Obligations.TableKeepsCanonicalForm : Prop :=
  (∀ (i : Instr) (s t : State), exec i s = .next t → Memory.wf s.ent → Memory.wf t.ent) ∧
    ∀ s t : State, step s = .next t → Memory.wf s.ent → Memory.wf t.ent

/-- R22: ENT[i] = [i] for i up to 255. Once DICT.INIT has set these entries no instruction writes or discards them, and
ALPHA[i] = i. -/
def Obligations.AlphabetIsFixed : Prop :=
  (∀ b : Byte, Config.alpha b = b) ∧
    (∀ (s : State) (b : Byte), BlockInv s → s.busy = true → s.entry (literalCode b) = some (single b)) ∧
    ∀ (i : Instr) (s t : State) (b : Byte),
      exec i s = .next t → s.entry (literalCode b) = some (single b) → t.entry (literalCode b) = some (single b)

/-! ## The Code Reader -/

/-- R120: RD.INIT sets the phase to EVEN, with PEND without a value; nothing else changes; the first RD.CODE after it is an
even read. -/
def Obligations.ReaderInitSetsEven : Prop :=
  (∀ s : State, exec .rdInit s = .next { s with phase := some .even, pend := none, ret := .unit }) ∧
    ∀ s t : State, exec .rdInit s = .next t → exec .rdCode t = exec .rdEven t

/-- R121, every answer of the source to the even read: two bytes are a code, with B1 kept in PEND and the phase ODD; no
byte is the clean end; one byte, or a failure, is ReadError, which ends the session (log 16). The rule states it for PHASE
EVEN; that the read is the same whatever PHASE holds is the model's choice (log 22). -/
def Obligations.EvenRead : Prop :=
  ∀ (s : State) (k : Nat), s.spos = some k →
    (∀ b0 b1 : Byte, ReadOk s → s.src[k]? = some b0 → s.src[k + 1]? = some b1 →
      exec .rdEven s = .next { s with
        srcAns := s.srcAns.tail, spos := some (k + 2), pend := some b1, phase := some .odd
        ret := .code ((b0.setWidth 12 <<< 4) ||| (b1.extractLsb' 4 4).setWidth 12) }) ∧
    (ReadOk s → s.src.length ≤ k → exec .rdEven s = .next { s with srcAns := s.srcAns.tail, ret := .noCode }) ∧
    (ReadOk s → s.src.length = k + 1 →
      ∃ t, exec .rdEven s = .next t ∧ t.mode = .done ∧ t.err = .error .read ∧ t.out = s.out) ∧
    (¬ReadOk s → ∃ t, exec .rdEven s = .next t ∧ t.mode = .done ∧ t.err = .error .read ∧ t.out = s.out)

/-- Every answer of the source to the odd read (R122; that no byte is a clean end is decision D9 of the spec; that PEND has
no value in EVEN is log 8): one byte completes the code with PEND[3:0]; a failure is ReadError, which ends the session
(log 16). The rule states it for PHASE ODD; that the read is the same whatever PHASE holds is the model's choice
(log 22). -/
def Obligations.OddRead : Prop :=
  ∀ (s : State) (k : Nat) (pend : Byte), s.pend = some pend → s.spos = some k →
    (∀ b2 : Byte, ReadOk s → s.src[k]? = some b2 →
      exec .rdOdd s = .next { s with
        srcAns := s.srcAns.tail, spos := some (k + 1), pend := none, phase := some .even
        ret := .code (((pend.extractLsb' 0 4).setWidth 12 <<< 8) ||| b2.setWidth 12) }) ∧
    (ReadOk s → s.src.length ≤ k → exec .rdOdd s = .next { s with srcAns := s.srcAns.tail, ret := .noCode }) ∧
    (¬ReadOk s → ∃ t, exec .rdOdd s = .next t ∧ t.mode = .done ∧ t.err = .error .read ∧ t.out = s.out)

/-- R123: RD.CODE is the even read in EVEN and the odd read in ODD, and one of the two while PHASE has no value (U6: any
value; log 21). RD.CODE, RD.EVEN and RD.ODD always answer, in every state (log 21, 22): a code, `none`, or the session ended
with ReadError (log 16). -/
def Obligations.ReadCodeFollowsPhase : Prop :=
  ∀ s : State,
    (s.phase = some .even → exec .rdCode s = exec .rdEven s) ∧
    (s.phase = some .odd → exec .rdCode s = exec .rdOdd s) ∧
    (s.phase = none →
      exec .rdCode s = exec .rdEven { s with draws := s.draws + 1 } ∨
        exec .rdCode s = exec .rdOdd { s with draws := s.draws + 1 }) ∧
    ∀ i : Instr, (i = .rdCode ∨ i = .rdEven ∨ i = .rdOdd) →
      ∃ t, exec i s = .next t ∧
        ((∃ c, t.ret = .code c) ∨ t.ret = .noCode ∨ (t.mode = .done ∧ t.err = .error .read))

/-- The reader leaves the dictionary, PREV and the sink alone, unless it raises and ends the session with ReadError (R126,
R178: an inference of the spec; log 16; the session's registers are then released, SPOS by log 7). -/
def Obligations.ReaderFrame : Prop :=
  ∀ (i : Instr) (s t : State), (i = .rdInit ∨ i = .rdCode ∨ i = .rdEven ∨ i = .rdOdd) → exec i s = .next t →
    t.out = s.out ∧ t.src = s.src ∧ t.sinkAns = s.sinkAns ∧ t.allocAns = s.allocAns ∧ t.phraseMax = s.phraseMax ∧
      t.inputs = s.inputs ∧ t.seeded = s.seeded ∧
      ((t.mode = .done ∧ t.err = .error .read ∧ NoSession t) ∨
        (t.mode = s.mode ∧ t.err = s.err ∧ t.next = s.next ∧ t.ent = s.ent ∧ t.prev = s.prev))

/-- No step can tell two values of PEND apart that agree in bits 3 to 0 (R28), nor any two values once the source is
exhausted, so that the padding of a tail has no effect (R82, decision D9 of the spec). -/
def Obligations.PendingNibbleNoninterference : Prop :=
  ∀ (s : State) (a b : Byte), s.busy = true → s.phase = some .odd →
    (a.toNat % 16 = b.toNat % 16 ∨ ∃ k, s.spos = some k ∧ s.src.length ≤ k) → Quiet s →
      step { s with pend := some a } = step { s with pend := some b }

/-! ## The Decode Loop -/

/-- The bootstrap step (R143): a literal first code is written, becomes PREV and leads to STEADY, the dictionary unchanged;
a write that fails is WriteError; a first code of 256 or more, and no code, are InvalidFormatError with nothing
written, which ends the session and releases its registers (R147, R202), SPOS with them (U6; log 7). The rule states it for
NEXT 256; that the step is the same whatever NEXT holds is the model's choice (log 22). -/
def Obligations.BootstrapStep : Prop :=
  ∀ s : State, s.mode = .boot →
    (∀ b : Byte, SinkTakes 1 s →
      exec (.decBoot b) s = .next { s with
        sinkAns := s.sinkAns.tail, out := s.out ++ [b], prev := some (single b), mode := .steady, ret := .unit }) ∧
    (∀ b : Byte, ¬SinkTakes 1 s →
      ∃ t, exec (.decBoot b) s = .next t ∧ t.mode = .done ∧ t.err = .error .write ∧
        (t.out = s.out ∨ t.out = s.out ++ [b])) ∧
    (∀ c : Code, 256 ≤ c.toNat →
      ∃ t, exec (.decBootInvalid c) s = .next t ∧ t.mode = .done ∧ t.err = .error .invalidFormat ∧
        t.out = s.out ∧ NoSession t) ∧
    ∃ t, exec .decBootEmpty s = .next t ∧ t.mode = .done ∧ t.err = .error .invalidFormat ∧ t.out = s.out ∧
      NoSession t

/-- R144, a hit on a literal or a reference: the entry is written, `PREV ++ [e[0]]` is added, PREV is the entry, MODE stays;
the write comes first, so a failed write is WriteError with a part of the entry written, and a refused addition is
AllocationError with all of it written. -/
def Obligations.HitStep : Prop :=
  ∀ (i : Instr) (s : State) (c : Code) (n : Next) (q e : Phrase),
    HitRow i c → s.mode = .steady → s.prev = some q → s.next = some n → 256 ≤ n.toNat → n.toNat ≤ 4096 →
      c.toNat < n.toNat → s.entry c = some e →
      (SinkTakes e.bytes.length s → StorageFor (q.bytes.length + 1) s →
        ∃ p u, p.bytes = q.bytes ++ e.bytes.take 1 ∧ exec (.dictAdd p) s = .next u ∧ u.mode = .steady ∧
          exec i s = .next { u with
            sinkAns := s.sinkAns.tail, out := s.out ++ e.bytes, prev := some e, ret := .unit }) ∧
      (¬SinkTakes e.bytes.length s →
        ∃ t k, exec i s = .next t ∧ t.mode = .done ∧ t.err = .error .write ∧ t.out = s.out ++ e.bytes.take k ∧
          t.allocAns = s.allocAns) ∧
      (SinkTakes e.bytes.length s → ¬StorageFor (q.bytes.length + 1) s →
        ∃ t, exec i s = .next t ∧ t.mode = .done ∧ t.err = .error .allocation ∧ t.out = s.out ++ e.bytes)

/-- A hit with the table full (R109, R207; decisions D7 and D8 of the spec): the addition resets and lands at 256, and PREV
is the entry looked up, although the reset discarded it. -/
def Obligations.HitAcrossReset : Prop :=
  ∀ (i : Instr) (s : State) (c : Code) (q e : Phrase),
    HitRow i c → s.mode = .steady → s.prev = some q → s.next = some 4096#13 → s.entry c = some e →
      SinkTakes e.bytes.length s → StorageFor (q.bytes.length + 1) s →
      ∃ t p, exec i s = .next t ∧ p.bytes = q.bytes ++ e.bytes.take 1 ∧ t.next = some 257#13 ∧
        t.entry 256#12 = some p ∧ (∀ d : Code, 257 ≤ d.toNat → t.entry d = none) ∧
        t.prev = some e ∧ t.out = s.out ++ e.bytes ∧ t.mode = .steady

/-- R145, the KwKwK step for any absent code: `PREV ++ [PREV[0]]` is added at the old NEXT, then written, and is PREV; MODE
stays; the addition comes first, so a refused addition is AllocationError with nothing written, and a failed write is
WriteError with a part of it written. -/
def Obligations.KwkStep : Prop :=
  ∀ (s : State) (c : Code) (n : Next) (q : Phrase),
    s.mode = .steady → s.prev = some q → s.next = some n → 256 ≤ n.toNat → n.toNat ≤ c.toNat →
      (StorageFor (q.bytes.length + 1) s → SinkTakes (q.bytes.length + 1) s →
        ∃ t p m, exec (.decKwk c) s = .next t ∧ p.bytes = q.bytes ++ q.bytes.take 1 ∧
          t = { s with
            next := some (n + 1#13), ent := m, allocAns := s.allocAns.tail, sinkAns := s.sinkAns.tail
            out := s.out ++ p.bytes, prev := some p, ret := .unit } ∧
          t.entry (n.setWidth 12) = some p ∧ ∀ d : Code, d.toNat ≠ n.toNat → t.entry d = s.entry d) ∧
      (¬StorageFor (q.bytes.length + 1) s →
        ∃ t, exec (.decKwk c) s = .next t ∧ t.mode = .done ∧ t.err = .error .allocation ∧ t.out = s.out ∧
          t.sinkAns = s.sinkAns) ∧
      (StorageFor (q.bytes.length + 1) s → ¬SinkTakes (q.bytes.length + 1) s →
        ∃ t k, exec (.decKwk c) s = .next t ∧ t.mode = .done ∧ t.err = .error .write ∧
          t.out = s.out ++ (q.bytes ++ q.bytes.take 1).take k)

/-- DEC.END in STEADY ends the session with OK (R146; that it also stands for the end in ODD is decision D9 of the spec):
nothing is written, nothing is added, the session's registers are released, SPOS with them (log 7), all else stays. -/
def Obligations.EndFinishesOk : Prop :=
  ∀ s : State, s.mode = .steady →
    ∃ t, exec .decEnd s = .next t ∧ t.mode = .done ∧ t.err = .ok ∧ t.out = s.out ∧ NoSession t ∧
      t = { s with
        mode := .done, err := .ok, next := none, ent := [], phase := none, pend := none, prev := none
        spos := none, ret := .unit }

/-- DEC.ABORT(E) ends the session with E, unchanged, in BOOT or STEADY (R147); `Finish`, which DEC.END shares, is the single
exit: the session's registers are released, SPOS with them (R202, U6; log 7), ERR is E or OK, MODE is DONE; OUT, the
source and the streams' answers stay. -/
def Obligations.AbortEndsWithItsError : Prop :=
  (∀ (s : State) (e : ErrKind), (s.mode = .boot ∨ s.mode = .steady) → e.ofBlock = true →
    ∃ t, exec (.decAbort e) s = .next t ∧ t.mode = .done ∧ t.err = .error e ∧ NoSession t ∧
      t = { s with
        mode := .done, err := .error e, next := none, ent := [], phase := none, pend := none, prev := none
        spos := none, ret := .unit }) ∧
    ∀ (i : Instr) (s t : State), exec i s = .next t → (s.mode = .boot ∨ s.mode = .steady) → t.mode = .done →
      NoSession t ∧ t.src = s.src ∧ s.out <+: t.out

/-- R148: SNK.WRITE appends the whole phrase if the sink takes it whole, changing nothing else; otherwise a prefix of it is
in OUT and the session ends with WriteError (log 16). One request per phrase. -/
def Obligations.WriteIsWholeOrError : Prop :=
  ∀ (s : State) (p : Phrase),
    (SinkTakes p.bytes.length s →
      exec (.snkWrite p) s = .next { s with
        sinkAns := s.sinkAns.tail, out := s.out ++ p.bytes, ret := .unit }) ∧
    (∀ k, k < p.bytes.length → sinkAnswer p.bytes.length s = .accepted k →
      ∃ t, exec (.snkWrite p) s = .next t ∧ t.mode = .done ∧ t.err = .error .write ∧
        t.out = s.out ++ p.bytes.take k ∧ t.sinkAns = s.sinkAns.tail) ∧
    (∀ k, sinkAnswer p.bytes.length s = .fail k →
      ∃ t, exec (.snkWrite p) s = .next t ∧ t.mode = .done ∧ t.err = .error .write ∧
        t.out = s.out ++ p.bytes.take k ∧ t.sinkAns = s.sinkAns.tail)

/-- The decode steps leave the source, the host's inputs, PHRASE_MAX and the alphabet alone, and unless they end the
session, which releases its registers (SPOS by log 7), also PHASE, PEND and SPOS; SNK.WRITE leaves the dictionary and PREV alone too. -/
def Obligations.DecodeLoopFrame : Prop :=
  ∀ (i : Instr) (s t : State),
    ((∃ b, i = .decBoot b) ∨ (∃ c, i = .decBootInvalid c) ∨ i = .decBootEmpty ∨ (∃ b, i = .decHitLit b) ∨
        (∃ c, i = .decHitRef c) ∨ (∃ c, i = .decKwk c) ∨ i = .decEnd ∨ (∃ e, i = .decAbort e) ∨
        ∃ p, i = .snkWrite p) →
      exec i s = .next t →
        t.src = s.src ∧ t.srcAns = s.srcAns ∧ t.phraseMax = s.phraseMax ∧ t.inputs = s.inputs ∧
          t.seeded = s.seeded ∧
          ((t.mode = .done ∧ NoSession t) ∨ (t.phase = s.phase ∧ t.pend = s.pend ∧ t.spos = s.spos ∧ t.err = s.err)) ∧
          ((∃ p, i = .snkWrite p) → t.mode = s.mode ∧ t.next = s.next ∧ t.ent = s.ent ∧ t.prev = s.prev ∨
            (t.mode = .done ∧ t.err = .error .write ∧ NoSession t))

/-- A failed read, whatever PHASE and PEND hold, or a stray byte in EVEN, ends the session with ReadError before anything else of the step: nothing is
written, added or asked of the sink or the storage (R175, R176, R178: an inference of the spec). -/
def Obligations.ReadErrorComesFirst : Prop :=
  ∀ (s : State) (k : Nat), Quiet s → s.busy = true → s.spos = some k →
      (¬ReadOk s ∨ (s.phase = some .even ∧ s.src.length = k + 1)) →
      ∃ t, step s = .next t ∧ t.mode = .done ∧ t.err = .error .read ∧ t.out = s.out ∧
        t.sinkAns = s.sinkAns ∧ t.allocAns = s.allocAns

/-! ## The whole machine -/

/-- The invariant holds after hardware reset (R39; decision D13 of the spec; log 4, and log 7 for SPOS). -/
def Obligations.InvariantAtReset : Prop := BlockInv State.reset

/-- Every step keeps the invariant of R25, R26, R28, R39, R40, R172: the legal registers of each mode; that SPOS has no value in IDLE and
DONE is U6 (log 7). -/
def Obligations.StepKeepsInvariant : Prop :=
  ∀ s t : State, BlockInv s → step s = .next t → BlockInv t

/-- From a state of the invariant no step faults: the proof obligation that U17 asks for where it is `stuck`. The one step not
taken is a source connected during a session (U18, log 14). -/
def Obligations.InvariantNeverStuck : Prop :=
  ∀ s : State, BlockInv s →
    (∃ t, step s = .next t) ∨
      (s.busy = true ∧ (∃ src, hostInput s = .connect src) ∧ step s = .refused .streamChanged)

/-- A START accepted in IDLE or DONE empties OUT, at once: also a START that is refused its storage, or that the reset input
cuts off before it asks for it (R33, R141; that such a START has emptied OUT is the model's choice, log 10). Every other
step leaves OUT as it is or appends to it, also one that ends the session in an error (R33). -/
def Obligations.OutputOnlyGrows : Prop :=
  ∀ s t : State, step s = .next t →
    if s.busy = false ∧ (hostInput s = .start ∨ hostInput s = .resetInStart) then t.out = [] else s.out <+: t.out

/-- The source is never written: only the host changes it, and only outside a session (R32, R66, decision D6 of the
spec). -/
def Obligations.SourceIsImmutable : Prop :=
  ∀ s t : State, step s = .next t →
    t.src = s.src ∨ (s.busy = false ∧ ∃ src, hostInput s = .connect src ∧ t.src = src)

/-- The position in a kept session moves forward: a step that reads a code and does not end the session consumes two bytes
in EVEN and one in ODD, and the phase alternates (while PHASE has no value it is one of the two, log 21); a step that ends
it leaves SPOS without a value (R26, R90; R202 and U6, log 7; offsets are decision D18 of the spec). -/
def Obligations.PositionMovesForward : Prop :=
  ∀ (s t : State) (k : Nat), Quiet s → s.busy = true → s.spos = some k → step s = .next t →
    (t.mode = .done ∧ t.spos = none) ∨
      (t.mode = .steady ∧ s.phase ≠ some .odd ∧ t.spos = some (k + 2) ∧ t.phase = some .odd) ∨
      (t.mode = .steady ∧ s.phase ≠ some .even ∧ t.spos = some (k + 1) ∧ t.phase = some .even)

/-- The MODE transitions of R152 and no others, with the ERR each writes (decision D17 of the spec). -/
def Obligations.ModeTransitions : Prop :=
  ∀ s t : State, step s = .next t →
    (ResetComes s ∧ t.mode = .idle ∧ t.err = .ok) ∨
      (s.busy = false ∧ hostInput s = .start ∧
        ((t.mode = .boot ∧ t.err = .ok) ∨ (t.mode = .done ∧ t.err = .error .allocation))) ∨
      (s.busy = false ∧ hostInput s ≠ .start ∧ t.mode = s.mode ∧ t.err = s.err) ∨
      (s.busy = true ∧ hostInput s = .start ∧ t.mode = s.mode ∧ t.err = s.err) ∨
      (s.mode = .boot ∧ Quiet s ∧
        (t.mode = .steady ∨
          (t.mode = .done ∧
            (t.err = .error .invalidFormat ∨ t.err = .error .read ∨ t.err = .error .write)))) ∨
      (s.mode = .steady ∧ Quiet s ∧
        (t.mode = .steady ∨
          (t.mode = .done ∧
            (t.err = .ok ∨ t.err = .error .read ∨ t.err = .error .write ∨ t.err = .error .allocation))))

/-- No instruction makes ERR a kind of the collaborator, and ERR 1, 2 and 7 are the numbers never produced (R171, R172;
decisions D3 and D21 of the spec). -/
def Obligations.CollaboratorErrorsNeverRaised : Prop :=
  (∀ (i : Instr) (s t : State), exec i s = .next t → Result.ofBlock s.err = true → Result.ofBlock t.err = true) ∧
    ∀ r : Result, Result.ofBlock r = true ↔ resultCode r ≠ 1#3 ∧ resultCode r ≠ 2#3 ∧ resultCode r ≠ 7#3

/-- NEXT after m codes is 256 for the first and 257 + ((m - 2) mod 3840) after that (R110, R154 (c): inferences of the
spec), m being read off the position; every step keeps it. -/
def Obligations.StepKeepsNextCount : Prop :=
  ∀ s t : State, BlockInv s → NextCountInv s → step s = .next t → NextCountInv t

/-- No phrase is longer than the number of codes read (R42: an inference of the spec); every step keeps it. -/
def Obligations.StepKeepsLengthBound : Prop :=
  ∀ s t : State, BlockInv s → LengthInv s → step s = .next t → LengthInv t

/-- PREV is the phrase most recently written (R154 (a): an inference of the spec): a step of a session that leads to
STEADY has written exactly the whole of its new PREV; and that OUT ends with PREV is kept by every step. -/
def Obligations.StepKeepsPrevWritten : Prop :=
  (∀ s t : State, Quiet s → s.busy = true → step s = .next t → t.mode = .steady →
    ∃ p, t.prev = some p ∧ t.out = s.out ++ p.bytes) ∧
    ∀ s t : State, BlockInv s → PrevInv s → step s = .next t → PrevInv t

/-- The whole run (R153, R215: inferences of the spec): in the default environment, from any idle or ended block, for
every source, START and then one step per code and one more end the session with the OUT and ERR of `Decode(SRC)`, and
the block then keeps them. -/
def Obligations.WholeRunIsDecode : Prop :=
  ∀ (s : State) (k : Nat),
    s.busy = false → PerfectEnv s → s.inputs = [.start] → (streamCodes s.src).1.length + 2 ≤ k →
      ∃ t, Host.Core.run core k s = .next t ∧ t.mode = .done ∧ (t.out, t.err) = refDecode s.src

/-- The reset input inside a step (R200: at any time; log 10). Where the step, left alone, answers a next state u, a reset
inside it gives an idle block whose OUT lies between the OUT before and the OUT of u; and every such OUT, the write cut
after any byte, is what some reset inside the step leaves. The idle block has no register of a session with a value (R202; SPOS by U6,
log 7). -/
def Obligations.ResetInsideStep : Prop :=
  ∀ s u : State, Quiet s → s.busy = true → step s = .next u →
    (∀ ops bytes, ∃ t, step { s with inputs := .resetInStep ops bytes :: s.inputs.tail } = .next t ∧
      t.mode = .idle ∧ t.err = .ok ∧ NoSession t ∧ s.out <+: t.out ∧ t.out <+: u.out) ∧
    ∀ ys, s.out <+: ys → ys <+: u.out →
      ∃ ops bytes t, step { s with inputs := .resetInStep ops bytes :: s.inputs.tail } = .next t ∧ t.out = ys

/-! ## Uses without a session -/

/-- A read while SPOS has no value (U6: any value until the next START; log 21) runs as it does with the source standing at
some offset k; k is a free value, SPOS stays without one, and everything else is as that read leaves it. -/
def Obligations.ReadWithoutSposIsFree : Prop :=
  ∀ (s : State) (i : Instr), s.spos = none → (i = .rdCode ∨ i = .rdEven ∨ i = .rdOdd) →
    ∃ k : Nat, ∀ t : State, exec i { s with spos := some k } = .next t →
      exec i s = .next { t with spos := none, draws := t.draws + 1 }

/-- PEND and PREV while they have no value (U6, U5, U4: any value; log 21): RD.ODD runs as with some byte in PEND, which PEND
does not keep; DEC.HIT and DEC.KWK run as with some phrase in PREV. -/
def Obligations.AbsentOperandsAreFree : Prop :=
  ∀ s : State,
    (s.pend = none →
      ∃ b : Byte, ∀ t : State, exec .rdOdd { s with pend := some b, draws := s.draws + 1 } = .next t →
        exec .rdOdd s = .next { t with pend := none }) ∧
    (s.mode = .steady → s.prev = none →
      ∃ q : Phrase, ∀ (i : Instr) (c : Code), (HitRow i c ∨ i = .decKwk c) →
        exec i s = exec i { s with prev := some q, draws := s.draws + 1 })

/-- DICT.RESET discards the dynamic entries and sets NEXT to 256 whatever NEXT holds: R104 states it for NEXT at the capacity
(`ResetDiscardsDynamicEntries`); that it is the same at every other NEXT is the model's choice (log 22). -/
def Obligations.ResetRunsAtEveryNext : Prop :=
  ∀ (s : State) (n : Next), s.next = some n →
    ∃ t, exec .dictReset s = .next t ∧ t.next = some 256#13 ∧
      (∀ c : Code, 256 ≤ c.toNat → t.entry c = none) ∧
      (∀ b : Byte, t.entry (literalCode b) = s.entry (literalCode b)) ∧
      t = { s with next := some 256#13, ent := t.ent, ret := .unit }

/-- Where an operation has no next step: the dictionary's outside a session, but for the literals (U17, `stuck`; log 13), and
a decode step in a MODE that does not select it (R86, R87, R142 to R147, R152). -/
def Obligations.StopsOutsidePreconditions : Prop :=
  ∀ s : State,
    (s.next = none →
      (∀ c : Code, 256 ≤ c.toNat →
        exec (.dictContains c) s = .fault .noDictionary ∧ exec (.dictGet c) s = .fault .noDictionary) ∧
      (∀ p : Phrase, exec (.dictAdd p) s = .fault .noDictionary) ∧ exec .dictReset s = .fault .noDictionary) ∧
    (s.mode ≠ .boot →
      (∀ b : Byte, exec (.decBoot b) s = .fault .wrongMode) ∧
        (∀ c : Code, 256 ≤ c.toNat → exec (.decBootInvalid c) s = .fault .wrongMode) ∧
        exec .decBootEmpty s = .fault .wrongMode) ∧
    (s.mode ≠ .steady →
      (∀ (i : Instr) (c : Code), HitRow i c ∨ i = .decKwk c → exec i s = .fault .wrongMode) ∧
        exec .decEnd s = .fault .wrongMode) ∧
    (s.busy = false → ∀ e : ErrKind, exec (.decAbort e) s = .fault .wrongMode)

/-- From a state of the invariant no step reads SPOS, PHASE, PEND or PREV while it has no value (R41: no rule of the spec
does): no free value is drawn, also by a step that the reset input ends (log 21). -/
def Obligations.StepReadsNoAbsentRegister : Prop :=
  ∀ s t : State, BlockInv s → step s = .next t → t.draws = s.draws
end

