-- ==== Sys2Proof/Laws/Memory.lean ====
section
/-! SUPPORT. The laws of the entry table: reading back, leaving other codes alone, and the canonical form. -/

namespace Sys2Proof.Machine

@[simp] theorem Memory.read_nil (c : Nat) : Memory.read [] c = none := rfl

theorem Memory.read_write_same (m : Memory) (c : Nat) (p : Phrase) :
    Memory.read (Memory.write m c p) c = some p := by
  induction m with
  | nil => simp [Memory.write, Memory.read]
  | cons e m ih =>
    obtain ⟨k, q⟩ := e
    by_cases h1 : c < k
    · simp [Memory.write, Memory.read, h1]
    · by_cases h2 : c = k
      · simp [Memory.write, Memory.read, h2]
      · simp [Memory.write, Memory.read, h1, h2, Ne.symm h2, ih]

theorem Memory.read_write_other (m : Memory) {a c : Nat} (p : Phrase) (h : a ≠ c) :
    Memory.read (Memory.write m c p) a = Memory.read m a := by
  induction m with
  | nil => simp [Memory.write, Memory.read, Ne.symm h]
  | cons e m ih =>
    obtain ⟨k, q⟩ := e
    by_cases h1 : c < k
    · simp [Memory.write, Memory.read, h1, Ne.symm h]
    · by_cases h2 : c = k
      · have hk : k ≠ a := fun hk => h (hk.symm.trans h2.symm)
        simp [Memory.write, Memory.read, h2, hk]
      · simp [Memory.write, Memory.read, h1, h2, ih]

theorem Memory.mem_write (m : Memory) (c : Nat) (p : Phrase) {e : Nat × Phrase}
    (h : e ∈ Memory.write m c p) : e = (c, p) ∨ e ∈ m := by
  induction m with
  | nil => simpa [Memory.write] using h
  | cons d m ih =>
    obtain ⟨k, q⟩ := d
    by_cases h1 : c < k
    · simpa [Memory.write, h1] using h
    · by_cases h2 : c = k
      · simp only [Memory.write, h2, lt_irrefl, if_false, if_true, List.mem_cons] at h ⊢
        tauto
      · simp only [Memory.write, h1, h2, if_false, List.mem_cons] at h ⊢
        rcases h with h | h
        · tauto
        · rcases ih h with h | h <;> tauto

/-- Writing keeps the canonical form, for a code of the table. -/
theorem Memory.write_wf {m : Memory} {c : Nat} (p : Phrase) (hm : Memory.wf m) (h1 : 256 ≤ c) (h2 : c < 4096) :
    Memory.wf (Memory.write m c p) := by
  refine ⟨?_, ?_⟩
  · obtain ⟨hs, -⟩ := hm
    induction m with
    | nil => simp [Memory.write]
    | cons d m ih =>
      obtain ⟨k, q⟩ := d
      rw [List.map_cons, List.pairwise_cons] at hs
      obtain ⟨hk, hs⟩ := hs
      by_cases h3 : c < k
      · simp only [Memory.write, h3, if_true, List.map_cons, List.pairwise_cons]
        refine ⟨fun a ha => ?_, hk, hs⟩
        rcases List.mem_cons.1 ha with rfl | ha
        · exact h3
        · exact h3.trans (hk a ha)
      · by_cases h4 : c = k
        · subst h4
          simpa [Memory.write] using ⟨by simpa using hk, hs⟩
        · simp only [Memory.write, h3, h4, if_false, List.map_cons, List.pairwise_cons]
          refine ⟨fun a ha => ?_, ih hs⟩
          obtain ⟨e, he, rfl⟩ := List.mem_map.1 ha
          rcases Memory.mem_write m c p he with rfl | he
          · exact lt_of_le_of_ne (not_lt.1 h3) (Ne.symm h4)
          · exact hk e.1 (List.mem_map_of_mem he)
  · intro e he
    rcases Memory.mem_write m c p he with rfl | he
    · exact ⟨h1, h2⟩
    · exact hm.2 e he

theorem Memory.nil_wf : Memory.wf [] := ⟨List.Pairwise.nil, by simp⟩

/-- A write above every listed code appends. -/
theorem Memory.write_end (m : Memory) (c : Nat) (p : Phrase) (h : ∀ e ∈ m, e.1 < c) :
    Memory.write m c p = m ++ [(c, p)] := by
  induction m with
  | nil => rfl
  | cons d m ih =>
    obtain ⟨k, q⟩ := d
    have hk : k < c := h (k, q) (by simp)
    have htl : Memory.write m c p = m ++ [(c, p)] := ih fun e he => h e (List.mem_cons_of_mem _ he)
    simp [Memory.write, not_lt.2 hk.le, hk.ne', htl]

theorem reset_memory_wf : Memory.wf State.reset.ent := Memory.nil_wf

end Sys2Proof.Machine
end

