-- ==== Sys2Proof/Laws/State.lean ====
section
/-! SUPPORT. One lemma per field per named update of the state, true by rfl. -/

namespace Sys2Proof.Machine

variable (s : State)

@[simp] theorem State.afterAlloc_mode : s.afterAlloc.mode = s.mode := rfl
@[simp] theorem State.afterAlloc_err : s.afterAlloc.err = s.err := rfl
@[simp] theorem State.afterAlloc_next : s.afterAlloc.next = s.next := rfl
@[simp] theorem State.afterAlloc_seeded : s.afterAlloc.seeded = s.seeded := rfl
@[simp] theorem State.afterAlloc_ent : s.afterAlloc.ent = s.ent := rfl
@[simp] theorem State.afterAlloc_phase : s.afterAlloc.phase = s.phase := rfl
@[simp] theorem State.afterAlloc_pend : s.afterAlloc.pend = s.pend := rfl
@[simp] theorem State.afterAlloc_prev : s.afterAlloc.prev = s.prev := rfl
@[simp] theorem State.afterAlloc_spos : s.afterAlloc.spos = s.spos := rfl
@[simp] theorem State.afterAlloc_out : s.afterAlloc.out = s.out := rfl
@[simp] theorem State.afterAlloc_src : s.afterAlloc.src = s.src := rfl
@[simp] theorem State.afterAlloc_srcAns : s.afterAlloc.srcAns = s.srcAns := rfl
@[simp] theorem State.afterAlloc_sinkAns : s.afterAlloc.sinkAns = s.sinkAns := rfl
@[simp] theorem State.afterAlloc_allocAns : s.afterAlloc.allocAns = s.allocAns.tail := rfl
@[simp] theorem State.afterAlloc_phraseMax : s.afterAlloc.phraseMax = s.phraseMax := rfl
@[simp] theorem State.afterAlloc_inputs : s.afterAlloc.inputs = s.inputs := rfl
@[simp] theorem State.afterAlloc_ret : s.afterAlloc.ret = s.ret := rfl
@[simp] theorem State.afterAlloc_draws : s.afterAlloc.draws = s.draws := rfl

@[simp] theorem State.drawn_mode : s.drawn.mode = s.mode := rfl
@[simp] theorem State.drawn_err : s.drawn.err = s.err := rfl
@[simp] theorem State.drawn_next : s.drawn.next = s.next := rfl
@[simp] theorem State.drawn_seeded : s.drawn.seeded = s.seeded := rfl
@[simp] theorem State.drawn_ent : s.drawn.ent = s.ent := rfl
@[simp] theorem State.drawn_phase : s.drawn.phase = s.phase := rfl
@[simp] theorem State.drawn_pend : s.drawn.pend = s.pend := rfl
@[simp] theorem State.drawn_prev : s.drawn.prev = s.prev := rfl
@[simp] theorem State.drawn_spos : s.drawn.spos = s.spos := rfl
@[simp] theorem State.drawn_out : s.drawn.out = s.out := rfl
@[simp] theorem State.drawn_src : s.drawn.src = s.src := rfl
@[simp] theorem State.drawn_srcAns : s.drawn.srcAns = s.srcAns := rfl
@[simp] theorem State.drawn_sinkAns : s.drawn.sinkAns = s.sinkAns := rfl
@[simp] theorem State.drawn_allocAns : s.drawn.allocAns = s.allocAns := rfl
@[simp] theorem State.drawn_phraseMax : s.drawn.phraseMax = s.phraseMax := rfl
@[simp] theorem State.drawn_inputs : s.drawn.inputs = s.inputs := rfl
@[simp] theorem State.drawn_ret : s.drawn.ret = s.ret := rfl
@[simp] theorem State.drawn_draws : s.drawn.draws = s.draws + 1 := rfl

@[simp] theorem State.clearDynamic_mode : s.clearDynamic.mode = s.mode := rfl
@[simp] theorem State.clearDynamic_err : s.clearDynamic.err = s.err := rfl
@[simp] theorem State.clearDynamic_next : s.clearDynamic.next = some Config.firstCode := rfl
@[simp] theorem State.clearDynamic_seeded : s.clearDynamic.seeded = s.seeded := rfl
@[simp] theorem State.clearDynamic_ent : s.clearDynamic.ent = [] := rfl
@[simp] theorem State.clearDynamic_phase : s.clearDynamic.phase = s.phase := rfl
@[simp] theorem State.clearDynamic_pend : s.clearDynamic.pend = s.pend := rfl
@[simp] theorem State.clearDynamic_prev : s.clearDynamic.prev = s.prev := rfl
@[simp] theorem State.clearDynamic_spos : s.clearDynamic.spos = s.spos := rfl
@[simp] theorem State.clearDynamic_out : s.clearDynamic.out = s.out := rfl
@[simp] theorem State.clearDynamic_src : s.clearDynamic.src = s.src := rfl
@[simp] theorem State.clearDynamic_srcAns : s.clearDynamic.srcAns = s.srcAns := rfl
@[simp] theorem State.clearDynamic_sinkAns : s.clearDynamic.sinkAns = s.sinkAns := rfl
@[simp] theorem State.clearDynamic_allocAns : s.clearDynamic.allocAns = s.allocAns := rfl
@[simp] theorem State.clearDynamic_phraseMax : s.clearDynamic.phraseMax = s.phraseMax := rfl
@[simp] theorem State.clearDynamic_inputs : s.clearDynamic.inputs = s.inputs := rfl
@[simp] theorem State.clearDynamic_ret : s.clearDynamic.ret = s.ret := rfl
@[simp] theorem State.clearDynamic_draws : s.clearDynamic.draws = s.draws := rfl

@[simp] theorem State.freeDict_mode : s.freeDict.mode = s.mode := rfl
@[simp] theorem State.freeDict_err : s.freeDict.err = s.err := rfl
@[simp] theorem State.freeDict_next : s.freeDict.next = none := rfl
@[simp] theorem State.freeDict_seeded : s.freeDict.seeded = s.seeded := rfl
@[simp] theorem State.freeDict_ent : s.freeDict.ent = [] := rfl
@[simp] theorem State.freeDict_phase : s.freeDict.phase = s.phase := rfl
@[simp] theorem State.freeDict_pend : s.freeDict.pend = s.pend := rfl
@[simp] theorem State.freeDict_prev : s.freeDict.prev = s.prev := rfl
@[simp] theorem State.freeDict_spos : s.freeDict.spos = s.spos := rfl
@[simp] theorem State.freeDict_out : s.freeDict.out = s.out := rfl
@[simp] theorem State.freeDict_src : s.freeDict.src = s.src := rfl
@[simp] theorem State.freeDict_srcAns : s.freeDict.srcAns = s.srcAns := rfl
@[simp] theorem State.freeDict_sinkAns : s.freeDict.sinkAns = s.sinkAns := rfl
@[simp] theorem State.freeDict_allocAns : s.freeDict.allocAns = s.allocAns := rfl
@[simp] theorem State.freeDict_phraseMax : s.freeDict.phraseMax = s.phraseMax := rfl
@[simp] theorem State.freeDict_inputs : s.freeDict.inputs = s.inputs := rfl
@[simp] theorem State.freeDict_ret : s.freeDict.ret = s.ret := rfl
@[simp] theorem State.freeDict_draws : s.freeDict.draws = s.draws := rfl

@[simp] theorem State.finish_mode (x : Result) : (s.finish x).mode = .done := rfl
@[simp] theorem State.finish_err (x : Result) : (s.finish x).err = x := rfl
@[simp] theorem State.finish_next (x : Result) : (s.finish x).next = none := rfl
@[simp] theorem State.finish_seeded (x : Result) : (s.finish x).seeded = s.seeded := rfl
@[simp] theorem State.finish_ent (x : Result) : (s.finish x).ent = [] := rfl
@[simp] theorem State.finish_phase (x : Result) : (s.finish x).phase = none := rfl
@[simp] theorem State.finish_pend (x : Result) : (s.finish x).pend = none := rfl
@[simp] theorem State.finish_prev (x : Result) : (s.finish x).prev = none := rfl
@[simp] theorem State.finish_spos (x : Result) : (s.finish x).spos = none := rfl
@[simp] theorem State.finish_out (x : Result) : (s.finish x).out = s.out := rfl
@[simp] theorem State.finish_src (x : Result) : (s.finish x).src = s.src := rfl
@[simp] theorem State.finish_srcAns (x : Result) : (s.finish x).srcAns = s.srcAns := rfl
@[simp] theorem State.finish_sinkAns (x : Result) : (s.finish x).sinkAns = s.sinkAns := rfl
@[simp] theorem State.finish_allocAns (x : Result) : (s.finish x).allocAns = s.allocAns := rfl
@[simp] theorem State.finish_phraseMax (x : Result) : (s.finish x).phraseMax = s.phraseMax := rfl
@[simp] theorem State.finish_inputs (x : Result) : (s.finish x).inputs = s.inputs := rfl
@[simp] theorem State.finish_ret (x : Result) : (s.finish x).ret = .unit := rfl
@[simp] theorem State.finish_draws (x : Result) : (s.finish x).draws = s.draws := rfl

@[simp] theorem State.hardReset_mode : s.hardReset.mode = .idle := rfl
@[simp] theorem State.hardReset_err : s.hardReset.err = .ok := rfl
@[simp] theorem State.hardReset_next : s.hardReset.next = none := rfl
@[simp] theorem State.hardReset_seeded : s.hardReset.seeded = false := rfl
@[simp] theorem State.hardReset_ent : s.hardReset.ent = [] := rfl
@[simp] theorem State.hardReset_phase : s.hardReset.phase = none := rfl
@[simp] theorem State.hardReset_pend : s.hardReset.pend = none := rfl
@[simp] theorem State.hardReset_prev : s.hardReset.prev = none := rfl
@[simp] theorem State.hardReset_spos : s.hardReset.spos = none := rfl
@[simp] theorem State.hardReset_out : s.hardReset.out = s.out := rfl
@[simp] theorem State.hardReset_src : s.hardReset.src = s.src := rfl
@[simp] theorem State.hardReset_srcAns : s.hardReset.srcAns = s.srcAns := rfl
@[simp] theorem State.hardReset_sinkAns : s.hardReset.sinkAns = s.sinkAns := rfl
@[simp] theorem State.hardReset_allocAns : s.hardReset.allocAns = s.allocAns := rfl
@[simp] theorem State.hardReset_phraseMax : s.hardReset.phraseMax = s.phraseMax := rfl
@[simp] theorem State.hardReset_inputs : s.hardReset.inputs = s.inputs := rfl
@[simp] theorem State.hardReset_ret : s.hardReset.ret = .unit := rfl
@[simp] theorem State.hardReset_draws : s.hardReset.draws = s.draws := rfl

@[simp] theorem State.dropInput_mode : s.dropInput.mode = s.mode := rfl
@[simp] theorem State.dropInput_err : s.dropInput.err = s.err := rfl
@[simp] theorem State.dropInput_next : s.dropInput.next = s.next := rfl
@[simp] theorem State.dropInput_seeded : s.dropInput.seeded = s.seeded := rfl
@[simp] theorem State.dropInput_ent : s.dropInput.ent = s.ent := rfl
@[simp] theorem State.dropInput_phase : s.dropInput.phase = s.phase := rfl
@[simp] theorem State.dropInput_pend : s.dropInput.pend = s.pend := rfl
@[simp] theorem State.dropInput_prev : s.dropInput.prev = s.prev := rfl
@[simp] theorem State.dropInput_spos : s.dropInput.spos = s.spos := rfl
@[simp] theorem State.dropInput_out : s.dropInput.out = s.out := rfl
@[simp] theorem State.dropInput_src : s.dropInput.src = s.src := rfl
@[simp] theorem State.dropInput_srcAns : s.dropInput.srcAns = s.srcAns := rfl
@[simp] theorem State.dropInput_sinkAns : s.dropInput.sinkAns = s.sinkAns := rfl
@[simp] theorem State.dropInput_allocAns : s.dropInput.allocAns = s.allocAns := rfl
@[simp] theorem State.dropInput_phraseMax : s.dropInput.phraseMax = s.phraseMax := rfl
@[simp] theorem State.dropInput_inputs : s.dropInput.inputs = s.inputs.tail := rfl
@[simp] theorem State.dropInput_ret : s.dropInput.ret = s.ret := rfl
@[simp] theorem State.dropInput_draws : s.dropInput.draws = s.draws := rfl

@[simp] theorem rdInit_mode : (rdInit s).mode = s.mode := rfl
@[simp] theorem rdInit_err : (rdInit s).err = s.err := rfl
@[simp] theorem rdInit_next : (rdInit s).next = s.next := rfl
@[simp] theorem rdInit_seeded : (rdInit s).seeded = s.seeded := rfl
@[simp] theorem rdInit_ent : (rdInit s).ent = s.ent := rfl
@[simp] theorem rdInit_phase : (rdInit s).phase = some .even := rfl
@[simp] theorem rdInit_pend : (rdInit s).pend = none := rfl
@[simp] theorem rdInit_prev : (rdInit s).prev = s.prev := rfl
@[simp] theorem rdInit_spos : (rdInit s).spos = s.spos := rfl
@[simp] theorem rdInit_out : (rdInit s).out = s.out := rfl
@[simp] theorem rdInit_src : (rdInit s).src = s.src := rfl
@[simp] theorem rdInit_srcAns : (rdInit s).srcAns = s.srcAns := rfl
@[simp] theorem rdInit_sinkAns : (rdInit s).sinkAns = s.sinkAns := rfl
@[simp] theorem rdInit_allocAns : (rdInit s).allocAns = s.allocAns := rfl
@[simp] theorem rdInit_phraseMax : (rdInit s).phraseMax = s.phraseMax := rfl
@[simp] theorem rdInit_inputs : (rdInit s).inputs = s.inputs := rfl
@[simp] theorem rdInit_ret : (rdInit s).ret = s.ret := rfl
@[simp] theorem rdInit_draws : (rdInit s).draws = s.draws := rfl

@[simp] theorem startRegs_mode : (startRegs s).mode = s.mode := rfl
@[simp] theorem startRegs_err : (startRegs s).err = .ok := rfl
@[simp] theorem startRegs_next : (startRegs s).next = s.next := rfl
@[simp] theorem startRegs_seeded : (startRegs s).seeded = s.seeded := rfl
@[simp] theorem startRegs_ent : (startRegs s).ent = s.ent := rfl
@[simp] theorem startRegs_phase : (startRegs s).phase = s.phase := rfl
@[simp] theorem startRegs_pend : (startRegs s).pend = none := rfl
@[simp] theorem startRegs_prev : (startRegs s).prev = none := rfl
@[simp] theorem startRegs_spos : (startRegs s).spos = some 0 := rfl
@[simp] theorem startRegs_out : (startRegs s).out = [] := rfl
@[simp] theorem startRegs_src : (startRegs s).src = s.src := rfl
@[simp] theorem startRegs_srcAns : (startRegs s).srcAns = s.srcAns := rfl
@[simp] theorem startRegs_sinkAns : (startRegs s).sinkAns = s.sinkAns := rfl
@[simp] theorem startRegs_allocAns : (startRegs s).allocAns = s.allocAns := rfl
@[simp] theorem startRegs_phraseMax : (startRegs s).phraseMax = s.phraseMax := rfl
@[simp] theorem startRegs_inputs : (startRegs s).inputs = s.inputs := rfl
@[simp] theorem startRegs_ret : (startRegs s).ret = s.ret := rfl
@[simp] theorem startRegs_draws : (startRegs s).draws = s.draws := rfl

end Sys2Proof.Machine
end

