-- ==== Sys2Proof/Laws/Ops.lean ====
section
/-! SUPPORT. What each shared operation can do, said once: results that may raise, the ports, the assembly of codes. -/

namespace Sys2Proof.Machine

/-! ## Results -/

theorem Res.andThen_ok {α β : Type} {x : Res α} {f : α → State → Res β} {b : β} {t : State} :
    x.andThen f = .ok b t ↔ ∃ a s, x = .ok a s ∧ f a s = .ok b t := by
  cases x <;> simp [Res.andThen]

theorem Res.andThen_raise {α β : Type} {x : Res α} {f : α → State → Res β} {e : ErrKind} {t : State} :
    x.andThen f = .raise e t ↔ x = .raise e t ∨ ∃ a s, x = .ok a s ∧ f a s = .raise e t := by
  cases x <;> simp [Res.andThen]

theorem Res.andThen_stuck {α β : Type} {x : Res α} {f : α → State → Res β} {g : Fault} :
    x.andThen f = .stuck g ↔ x = .stuck g ∨ ∃ a s, x = .ok a s ∧ f a s = .stuck g := by
  cases x <;> simp [Res.andThen]

/-- An instruction answers a next state in two ways: its operation ended with a value, or raised and was aborted. -/
theorem Res.outcome_next {α : Type} {ret : α → Ret} {x : Res α} {t : State} :
    x.outcome ret = .next t ↔
      (∃ a s, x = .ok a s ∧ t = { s with ret := ret a }) ∨ ∃ e s, x = .raise e s ∧ t = s.finish (.error e) := by
  cases x <;> simp [Res.outcome, eq_comm]

theorem Res.outcome_fault {α : Type} {ret : α → Ret} {x : Res α} {f : Fault} :
    x.outcome ret = .fault f ↔ x = .stuck f := by
  cases x <;> simp [Res.outcome]

theorem Res.outcome_not_refused {α : Type} {ret : α → Ret} {x : Res α} {r : Refusal} :
    x.outcome ret ≠ .refused r := by
  cases x <;> simp [Res.outcome]

/-- A result with its state changed by f. -/
def Res.mapState {α : Type} (f : State → State) : Res α → Res α
  | .ok a s => .ok a (f s)
  | .raise e s => .raise e (f s)
  | .stuck g => .stuck g

/-! ## Ports -/

theorem srcRead_some {n k : Nat} {s : State} (hk : s.spos = some k) : srcRead n s = srcReadAt n k s := by
  simp [srcRead, hk]

theorem srcReadAt_bytes {n k : Nat} {s : State} (h : srcAnswer s = .bytes) :
    srcReadAt n k s =
      (.bytes (sourceBytes s.src k n),
        { s with srcAns := s.srcAns.tail, spos := some (k + (sourceBytes s.src k n).length) }) := by
  simp [srcReadAt, h]

theorem srcReadAt_fail {n k j : Nat} {s : State} (h : srcAnswer s = .fail j) :
    srcReadAt n k s = (.fail, { s with srcAns := s.srcAns.tail, spos := some j }) := by
  simp [srcReadAt, h]

/-- A read changes the pending answers, SPOS and the draw counter only. -/
theorem srcRead_state (n : Nat) (s : State) :
    ∃ j d, (srcRead n s).2 = { s with srcAns := s.srcAns.tail, spos := j, draws := d } := by
  unfold srcRead srcReadAt
  split <;> split <;> exact ⟨_, _, rfl⟩

/-- Where the register holds a value, reading it draws nothing. -/
theorem readPhase_some {s : State} {ph : Phase} (h : s.phase = some ph) : readPhase s = (ph, s) := by
  simp [readPhase, h]

theorem readPend_some {s : State} {b : Byte} (h : s.pend = some b) : readPend s = (b, s) := by simp [readPend, h]

theorem readPrev_some {s : State} {q : Phrase} (h : s.prev = some q) : readPrev s = (q, s) := by simp [readPrev, h]

/-- Reading a register that may hold no value changes the draw counter at most, and answers the value if there is one. -/
theorem readPhase_spec (s : State) :
    ∃ ph d, readPhase s = (ph, { s with draws := d }) ∧ ∀ x, s.phase = some x → x = ph ∧ d = s.draws := by
  unfold readPhase
  split
  · exact ⟨_, s.draws, rfl, by simp_all⟩
  · exact ⟨_, s.draws + 1, rfl, by simp_all⟩

theorem readPend_spec (s : State) :
    ∃ b d, readPend s = (b, { s with draws := d }) ∧ ∀ x, s.pend = some x → x = b ∧ d = s.draws := by
  unfold readPend
  split
  · exact ⟨_, s.draws, rfl, by simp_all⟩
  · exact ⟨_, s.draws + 1, rfl, by simp_all⟩

theorem readPrev_spec (s : State) :
    ∃ q d, readPrev s = (q, { s with draws := d }) ∧ ∀ x, s.prev = some x → x = q ∧ d = s.draws := by
  unfold readPrev
  split
  · exact ⟨_, s.draws, rfl, by simp_all⟩
  · exact ⟨_, s.draws + 1, rfl, by simp_all⟩

/-- A read finds at most the bytes it asks for. -/
theorem srcRead_length {n : Nat} {s : State} {bs : List Byte} (h : (srcRead n s).1 = .bytes bs) : bs.length ≤ n := by
  unfold srcRead srcReadAt at h
  split at h <;> split at h <;> simp at h <;> subst h <;> simp [sourceBytes]

/-- A sink write changes the pending answers and OUT only, and OUT grows by a prefix of the phrase, the whole phrase if
the write succeeded. -/
theorem sinkPut_spec (p : Phrase) (s : State) :
    ∃ k, k ≤ p.bytes.length ∧ ((sinkPut p s).1 = true → k = p.bytes.length) ∧
      (sinkPut p s).2 = { s with sinkAns := s.sinkAns.tail, out := s.out ++ p.bytes.take k } := by
  refine ⟨(sinkAnswer p.bytes.length s).count p.bytes.length, ?_, ?_, rfl⟩
  · cases sinkAnswer p.bytes.length s <;> simp [SinkAns.count]
  · simp only [sinkPut]
    cases sinkAnswer p.bytes.length s <;> simp [SinkAns.count, SinkAns.full]

/-- A write the sink takes whole. -/
theorem sinkPut_full {p : Phrase} {s : State} (h : (sinkPut p s).1 = true) :
    (sinkPut p s).2 = { s with sinkAns := s.sinkAns.tail, out := s.out ++ p.bytes } := by
  obtain ⟨k, -, hk, ht⟩ := sinkPut_spec p s
  rw [ht, hk h, List.take_length]

/-- A write under way has put into the sink what the whole request would have, cut at `bytes`. -/
theorem sinkPart_out (bytes : Nat) (p : Phrase) (s : State) :
    ∃ ys, (sinkPut p s).2 = { s with sinkAns := s.sinkAns.tail, out := s.out ++ ys } ∧
      sinkPart bytes p s = { s with sinkAns := s.sinkAns.tail, out := s.out ++ ys.take bytes } := by
  refine ⟨p.bytes.take ((sinkAnswer p.bytes.length s).count p.bytes.length), rfl, ?_⟩
  rw [List.take_take]
  rfl

/-! ## Phrases -/

@[simp] theorem bytes_single (b : Byte) : (single b).bytes = [b] := rfl

@[simp] theorem bytes_snoc (p : Phrase) (b : Byte) : (snoc p b).bytes = p.bytes ++ [b] := by
  simp [snoc, Phrase.bytes]

theorem bytes_ne_nil (p : Phrase) : p.bytes ≠ [] := by simp [Phrase.bytes]

@[simp] theorem take_one_bytes (p : Phrase) : p.bytes.take 1 = [p.head] := by simp [Phrase.bytes]

@[simp] theorem bytes_hitPhrase (q e : Phrase) : (hitPhrase q e).bytes = q.bytes ++ [e.head] := by
  simp [hitPhrase, firstByte]

@[simp] theorem bytes_kwkPhrase (q : Phrase) : (kwkPhrase q).bytes = q.bytes ++ [q.head] := by
  simp [kwkPhrase, firstByte]

theorem bytes_injective {p q : Phrase} (h : p.bytes = q.bytes) : p = q := by
  cases p; cases q; simpa [Phrase.bytes] using h

/-! ## Codes -/

theorem isLiteral_iff (c : Code) : isLiteral c = true ↔ c.toNat < 256 := by
  simp [isLiteral, BitVec.lt_def]

theorem isLiteral_false {c : Code} (h : 256 ≤ c.toNat) : isLiteral c = false := by
  rw [Bool.eq_false_iff, Ne, isLiteral_iff]; omega

theorem isHit_iff (c : Code) (n : Next) : isHit c n = true ↔ c.toNat < n.toNat := by
  have : c.toNat < 8192 := by omega
  simp [isHit, BitVec.lt_def, Nat.mod_eq_of_lt this]

theorem isHit_false {c : Code} {n : Next} (h : n.toNat ≤ c.toNat) : isHit c n = false := by
  rw [Bool.eq_false_iff, Ne, isHit_iff]; omega

@[simp] theorem isLiteral_literalCode (b : Byte) : isLiteral (literalCode b) = true := by
  have : b.toNat < 256 := b.isLt
  simp [isLiteral_iff, literalCode]; omega

@[simp] theorem literalByte_literalCode (b : Byte) : literalByte (literalCode b) = b := by
  apply BitVec.eq_of_toNat_eq
  have : b.toNat < 256 := b.isLt
  simp [literalByte, literalCode]

theorem literalCode_literalByte {c : Code} (h : isLiteral c = true) : literalCode (literalByte c) = c := by
  apply BitVec.eq_of_toNat_eq
  have := (isLiteral_iff c).1 h
  simp [literalByte, literalCode]; omega

theorem isFull_iff (n : Next) : isFull n = true ↔ n.toNat = 4096 := by
  simp [isFull, ← BitVec.toNat_inj]

@[simp] theorem alphaPhrase_literalCode (b : Byte) : alphaPhrase (literalCode b) = single b := by
  simp [alphaPhrase, single, Config.alpha]

/-- The alphabet's entries are their own bytes once it is set (R22). -/
theorem entry_literal (s : State) (b : Byte) (h : s.seeded = true) : s.entry (literalCode b) = some (single b) := by
  simp [State.entry, h]

/-- A lookup of a literal finds its byte (R102). -/
@[simp] theorem found_literal (s : State) (b : Byte) : s.found (literalCode b) = some (single b) := by
  simp [State.found]

/-- Once the alphabet is set, a lookup finds exactly the entries. -/
theorem found_eq_entry {s : State} (h : s.seeded = true) (c : Code) : s.found c = s.entry c := by
  simp [State.found, State.entry, h]

/-- An entry is found. -/
theorem found_of_entry {s : State} {c : Code} {e : Phrase} (h : s.entry c = some e) : s.found c = some e := by
  unfold State.entry at h
  unfold State.found
  split at h
  · split at h <;> simp_all
  · simp_all

end Sys2Proof.Machine
end

