-- ==== Sys2Proof/Laws/Dictionary.lean ====
section
/-! SUPPORT. What each dictionary operation can do, said once (40_dictionary.md). -/

namespace Sys2Proof.Machine

theorem dictInit_ok {w : Nat} {s t : State} {a : Unit} :
    dictInit w s = .ok a t ↔
      w = Config.codeWidth ∧ allocAnswer s = true ∧ { s.afterAlloc.clearDynamic with seeded := true } = t := by
  unfold dictInit
  split
  · split <;> simp [*]
  · simp [*]

theorem dictInit_raise {w : Nat} {s t : State} {e : ErrKind} :
    dictInit w s = .raise e t ↔
      w = Config.codeWidth ∧ allocAnswer s = false ∧ .allocation = e ∧ s.afterAlloc = t := by
  unfold dictInit
  split
  · split <;> simp [*]
  · simp [*]

theorem dictContains_ok {c : Code} {s t : State} {b : Bool} :
    dictContains c s = .ok b t ↔
      s = t ∧ ((isLiteral c = true ∧ true = b) ∨ (isLiteral c = false ∧ ∃ n, s.next = some n ∧ isHit c n = b)) := by
  unfold dictContains
  split
  · simp [*, and_comm]
  · split <;> simp [*, and_comm]

theorem dictContains_not_raise {c : Code} {s t : State} {e : ErrKind} : dictContains c s ≠ .raise e t := by
  unfold dictContains
  split
  · simp
  · split <;> simp

/-- A lookup changes nothing; it answers `[c]` for a literal, the entry below NEXT and none above. -/
theorem dictGet_ok {c : Code} {s t : State} {r : Option Phrase} :
    dictGet c s = .ok r t ↔
      s = t ∧
        (((isLiteral c = true ∨ ∃ n, s.next = some n ∧ isHit c n = true) ∧ ∃ e, s.found c = some e ∧ some e = r) ∨
          (isLiteral c = false ∧ (∃ n, s.next = some n ∧ isHit c n = false) ∧ none = r)) := by
  unfold dictGet
  split
  · rename_i h
    simp [h, State.found, and_comm]
  · split
    · simp [*]
    · split
      · split <;> simp [*, and_comm]
      · simp [*, and_comm]

theorem dictGet_not_raise {c : Code} {s t : State} {e : ErrKind} : dictGet c s ≠ .raise e t := by
  unfold dictGet
  split
  · simp
  · split
    · simp
    · split
      · split <;> simp
      · simp

/-- A stored phrase: storage was there, the entry stands at n, NEXT is one more. -/
theorem dictStore_ok {p : Phrase} {n : Next} {s t : State} {r : Code × Phrase} :
    dictStore p n s = .ok r t ↔
      s.tooLong p.bytes.length = false ∧ allocAnswer s = true ∧ (codeAt n, p) = r ∧
        { s.afterAlloc with ent := Memory.write s.ent n.toNat p, next := some (n + 1#13) } = t := by
  unfold dictStore
  split
  · simp [*]
  · split <;> simp [*]

/-- Storage granted: the phrase is stored. -/
theorem dictStore_granted {p : Phrase} {n : Next} {s : State} (h1 : s.tooLong p.bytes.length = false)
    (h2 : allocAnswer s = true) :
    dictStore p n s =
      .ok (codeAt n, p) { s.afterAlloc with ent := Memory.write s.ent n.toNat p, next := some (n + 1#13) } :=
  dictStore_ok.2 ⟨h1, h2, rfl, rfl⟩

/-- A refused request leaves the dictionary as it was. -/
theorem dictStore_raise {p : Phrase} {n : Next} {s t : State} {e : ErrKind} :
    dictStore p n s = .raise e t ↔
      .allocation = e ∧
        ((s.tooLong p.bytes.length = true ∧ s = t) ∨
          (s.tooLong p.bytes.length = false ∧ allocAnswer s = false ∧ s.afterAlloc = t)) := by
  unfold dictStore
  split
  · simp [*]
  · split <;> simp [*]

theorem dictReset_ok {s t : State} {a : Unit} :
    dictReset s = .ok a t ↔ (∃ n, s.next = some n) ∧ s.clearDynamic = t := by
  unfold dictReset
  split <;> simp [*]

theorem dictReset_not_raise {s t : State} {e : ErrKind} : dictReset s ≠ .raise e t := by
  unfold dictReset
  split <;> simp

/-- An addition with room stores at NEXT. -/
theorem dictAdd_room {p : Phrase} {n : Next} {s : State} (hn : s.next = some n) (h1 : 256 ≤ n.toNat)
    (h2 : n.toNat < 4096) : dictAdd p s = dictStore p n s := by
  have hf : isFull n = false := by
    rw [Bool.eq_false_iff, Ne, isFull_iff]; omega
  have hr : ¬(n < Config.firstCode ∨ Config.cap < n) := by
    simp only [BitVec.lt_def, BitVec.toNat_ofNat]; omega
  simp only [dictAdd, hn, hf, hr, Bool.false_eq_true, if_false]

/-- An addition that finds NEXT at the capacity resets, then stores at 256. -/
theorem dictAdd_full {p : Phrase} {n : Next} {s : State} (hn : s.next = some n) (h : n.toNat = 4096) :
    dictAdd p s = dictStore p Config.firstCode s.clearDynamic := by
  have hf := (isFull_iff n).2 h
  simp [dictAdd, dictReset, hn, hf, Res.andThen]

@[simp] theorem codeAt_toNat {n : Next} (h : n.toNat < 4096) : (codeAt n).toNat = n.toNat := by
  simp [codeAt]; omega

/-- The entry stored at n is read back, and every other entry is as it was. -/
theorem entry_write {s t : State} {n : Next} {p : Phrase} (h1 : 256 ≤ n.toNat) (h2 : n.toNat < 4096)
    (ht : t.ent = Memory.write s.ent n.toNat p) (hs : t.seeded = s.seeded) :
    t.entry (codeAt n) = some p ∧ ∀ c : Code, c.toNat ≠ n.toNat → t.entry c = s.entry c := by
  have hl : isLiteral (codeAt n) = false := by
    rw [Bool.eq_false_iff, Ne, isLiteral_iff, codeAt_toNat h2]; omega
  refine ⟨by simp [State.entry, hl, ht, codeAt_toNat h2, Memory.read_write_same], fun c hc => ?_⟩
  simp [State.entry, hs, ht, Memory.read_write_other _ _ hc]

/-- Everything an addition that is not stuck can be. -/
theorem dictAdd_cases {p : Phrase} {s : State} :
    (∃ g, dictAdd p s = .stuck g) ∨
      ∃ n, s.next = some n ∧
        ((256 ≤ n.toNat ∧ n.toNat < 4096 ∧ dictAdd p s = dictStore p n s) ∨
          (n.toNat = 4096 ∧ dictAdd p s = dictStore p Config.firstCode s.clearDynamic)) := by
  rcases hn : s.next with _ | n
  · exact .inl ⟨.noDictionary, by simp [dictAdd, hn]⟩
  · by_cases hf : n.toNat = 4096
    · exact .inr ⟨n, rfl, .inr ⟨hf, dictAdd_full hn hf⟩⟩
    · by_cases hr : 256 ≤ n.toNat ∧ n.toNat < 4096
      · exact .inr ⟨n, rfl, .inl ⟨hr.1, hr.2, dictAdd_room hn hr.1 hr.2⟩⟩
      · refine .inl ⟨.entryRange, ?_⟩
        have h1 : isFull n = false := by rw [Bool.eq_false_iff, Ne, isFull_iff]; exact hf
        have h2 : n < Config.firstCode ∨ Config.cap < n := by
          simp only [BitVec.lt_def, BitVec.toNat_ofNat]; omega
        simp only [dictAdd, hn, h1, h2, Bool.false_eq_true, if_false, if_true]

/-- An addition that is made finds NEXT at 256 or above. -/
theorem dictAdd_next {p : Phrase} {s t : State} {r : Code × Phrase} (h : dictAdd p s = .ok r t) :
    ∃ n, s.next = some n ∧ 256 ≤ n.toNat := by
  rcases dictAdd_cases (p := p) (s := s) with ⟨g, hg⟩ | ⟨n, hn, ⟨h1, -⟩ | ⟨h1, -⟩⟩
  · simp [hg] at h
  · exact ⟨n, hn, h1⟩
  · exact ⟨n, hn, by omega⟩

/-- An addition changes the dictionary and uses up the storage answer; nothing else. -/
theorem dictAdd_frame {p : Phrase} {s t : State} {r : Code × Phrase} (h : dictAdd p s = .ok r t) :
    ∃ m n, t = { s with allocAns := s.allocAns.tail, ent := m, next := some n } := by
  rcases dictAdd_cases (p := p) (s := s) with ⟨g, hg⟩ | ⟨n, -, ⟨-, -, hs⟩ | ⟨-, hs⟩⟩
  · simp [hg] at h
  all_goals
    obtain ⟨-, -, -, rfl⟩ := dictStore_ok.1 (hs ▸ h)
    exact ⟨_, _, rfl⟩

/-- A refused addition raises AllocationError and touches the dictionary at most (by the reset inside it). -/
theorem dictAdd_raise {p : Phrase} {s t : State} {e : ErrKind} (h : dictAdd p s = .raise e t) :
    e = .allocation ∧ ∃ l m n, t = { s with allocAns := l, ent := m, next := n } := by
  rcases dictAdd_cases (p := p) (s := s) with ⟨g, hg⟩ | ⟨n, -, ⟨-, -, hs⟩ | ⟨-, hs⟩⟩
  · simp [hg] at h
  all_goals
    obtain ⟨rfl, ⟨-, rfl⟩ | ⟨-, -, rfl⟩⟩ := dictStore_raise.1 (hs ▸ h)
    all_goals exact ⟨rfl, _, _, _, rfl⟩

/-- A stored entry below the capacity keeps the canonical form. -/
theorem dictAdd_keeps_wf {p : Phrase} {s t : State} {r : Code × Phrase} (h : dictAdd p s = .ok r t)
    (hm : Memory.wf s.ent) : Memory.wf t.ent := by
  rcases dictAdd_cases (p := p) (s := s) with ⟨g, hg⟩ | ⟨n, -, ⟨h1, h2, hs⟩ | ⟨-, hs⟩⟩
  · simp [hg] at h
  · obtain ⟨-, -, -, rfl⟩ := dictStore_ok.1 (hs ▸ h)
    exact Memory.write_wf p hm h1 h2
  · obtain ⟨-, -, -, rfl⟩ := dictStore_ok.1 (hs ▸ h)
    exact Memory.write_wf p Memory.nil_wf (by decide) (by decide)

/-! ## The draw counter and PREV do not matter to an addition -/

theorem dictStore_draws (p : Phrase) (n : Next) (d : Nat) (s : State) :
    dictStore p n { s with draws := d } = (dictStore p n s).mapState fun u => { u with draws := d } := by
  have h1 : State.tooLong { s with draws := d } p.bytes.length = s.tooLong p.bytes.length := rfl
  have h2 : allocAnswer { s with draws := d } = allocAnswer s := rfl
  simp only [dictStore, h1, h2]
  split
  · rfl
  · split <;> rfl

theorem dictAdd_draws (p : Phrase) (d : Nat) (s : State) :
    dictAdd p { s with draws := d } = (dictAdd p s).mapState fun u => { u with draws := d } := by
  rcases hn : s.next with _ | n
  · simp [dictAdd, hn, Res.mapState]
  · simp only [dictAdd, hn]
    split
    · simp only [dictReset, hn, Res.andThen]
      exact dictStore_draws p Config.firstCode d s.clearDynamic
    · split
      · rfl
      · simpa [hn] using dictStore_draws p n d s

theorem dictStore_prev (p : Phrase) (n : Next) (x : Option Phrase) (s : State) :
    dictStore p n { s with prev := x } = (dictStore p n s).mapState fun u => { u with prev := x } := by
  have h1 : State.tooLong { s with prev := x } p.bytes.length = s.tooLong p.bytes.length := rfl
  have h2 : allocAnswer { s with prev := x } = allocAnswer s := rfl
  simp only [dictStore, h1, h2]
  split
  · rfl
  · split <;> rfl

theorem dictAdd_prev (p : Phrase) (x : Option Phrase) (s : State) :
    dictAdd p { s with prev := x } = (dictAdd p s).mapState fun u => { u with prev := x } := by
  rcases hn : s.next with _ | n
  · simp [dictAdd, hn, Res.mapState]
  · simp only [dictAdd, hn]
    split
    · simp only [dictReset, hn, Res.andThen]
      exact dictStore_prev p Config.firstCode x s.clearDynamic
    · split
      · rfl
      · simpa [hn] using dictStore_prev p n x s

end Sys2Proof.Machine
end

