-- ==== Sys2Proof/Laws/Reader.lean ====
section
/-! SUPPORT. What the code reader can do, said once (41_code_reader.md R124). -/

namespace Sys2Proof.Machine

theorem length_sourceBytes (src : List Byte) (k n : Nat) :
    (sourceBytes src k n).length = min n (src.length - k) := by simp [sourceBytes]

/-- No bytes are found exactly at or past the end. -/
theorem sourceBytes_nil {src : List Byte} {k n : Nat} (hn : n ≠ 0) :
    sourceBytes src k n = [] ↔ src.length ≤ k := by
  rw [← List.length_eq_zero_iff, length_sourceBytes]; omega

/-- Two bytes at k. -/
theorem sourceBytes_two {src : List Byte} {k : Nat} {b0 b1 : Byte} (h0 : src[k]? = some b0)
    (h1 : src[k + 1]? = some b1) : sourceBytes src k 2 = [b0, b1] := by
  obtain ⟨hk, rfl⟩ := List.getElem?_eq_some_iff.1 h0
  obtain ⟨hk1, rfl⟩ := List.getElem?_eq_some_iff.1 h1
  rw [sourceBytes, List.drop_eq_getElem_cons hk, List.drop_eq_getElem_cons hk1]
  rfl

/-- One byte at k. -/
theorem sourceBytes_one {src : List Byte} {k : Nat} {b : Byte} (h : src[k]? = some b) : sourceBytes src k 1 = [b] := by
  obtain ⟨hk, rfl⟩ := List.getElem?_eq_some_iff.1 h
  rw [sourceBytes, List.drop_eq_getElem_cons hk]
  rfl

/-! ## The even read -/

/-- An even read that returns, with SPOS at k: the clean end, or a code. -/
theorem rdEven_ok {s t : State} {r : Option Code} {k : Nat} (hk : s.spos = some k) (h : rdEven s = .ok r t) :
    (r = none ∧ s.src.length ≤ k ∧ t = { s with srcAns := s.srcAns.tail }) ∨
      ∃ b0 b1, sourceBytes s.src k 2 = [b0, b1] ∧ r = some (assembleEven b0 b1) ∧
        t = { s with srcAns := s.srcAns.tail, spos := some (k + 2), pend := some b1, phase := some .odd } := by
  rw [rdEven, srcRead_some hk] at h
  rcases ha : srcAnswer s with _ | j
  · rw [srcReadAt_bytes ha] at h
    have hl := length_sourceBytes s.src k 2
    rcases hs : sourceBytes s.src k 2 with _ | ⟨b0, _ | ⟨b1, _ | ⟨b2, l⟩⟩⟩
    · simp only [hs, evenAnswer, Res.ok.injEq] at h
      refine .inl ⟨h.1.symm, (sourceBytes_nil (by decide)).1 hs, ?_⟩
      simp [← h.2, hk]
    · simp [hs, evenAnswer] at h
    · simp only [hs, evenAnswer, Res.ok.injEq] at h
      exact .inr ⟨b0, b1, rfl, h.1.symm, by simpa using h.2.symm⟩
    · rw [hs] at hl; simp at hl; omega
  · simp [srcReadAt_fail ha, evenAnswer] at h

/-- Everything an even read can be: it is never stuck, it changes nothing but the source's answers, SPOS, the draws and,
with a code, PEND and PHASE, and what it raises is ReadError. -/
theorem rdEven_spec (s : State) :
    (∃ r j d p ph, rdEven s = .ok r { s with srcAns := s.srcAns.tail, spos := j, draws := d, pend := p, phase := ph } ∧
        (r = none → p = s.pend ∧ ph = s.phase)) ∨
      ∃ j d, rdEven s = .raise .read { s with srcAns := s.srcAns.tail, spos := j, draws := d } := by
  obtain ⟨j, d, hj⟩ := srcRead_state 2 s
  rw [rdEven, hj]
  rcases (srcRead 2 s).1 with (_ | ⟨b0, _ | ⟨b1, l⟩⟩) | _
  · exact .inl ⟨_, _, _, _, _, rfl, fun _ => ⟨rfl, rfl⟩⟩
  · exact .inr ⟨_, _, rfl⟩
  · exact .inl ⟨_, _, _, _, _, rfl, nofun⟩
  · exact .inr ⟨_, _, rfl⟩

/-! ## The odd read -/

/-- An odd read that returns, with SPOS at k: the clean end, or a code. -/
theorem rdOdd_ok {s t : State} {r : Option Code} {k : Nat} (hk : s.spos = some k) (h : rdOdd s = .ok r t) :
    ∃ d b, (∀ x, s.pend = some x → x = b ∧ d = s.draws) ∧
      ((r = none ∧ s.src.length ≤ k ∧ t = { s with srcAns := s.srcAns.tail, draws := d }) ∨
        ∃ b2, sourceBytes s.src k 1 = [b2] ∧ r = some (assembleOdd b b2) ∧
          t = { s with
            srcAns := s.srcAns.tail, spos := some (k + 1), pend := none, phase := some .even, draws := d }) := by
  obtain ⟨b, d, hb, hx⟩ := readPend_spec s
  refine ⟨d, b, hx, ?_⟩
  simp only [rdOdd, hb, srcRead_some (s := { s with draws := d }) hk] at h
  rcases ha : srcAnswer s with _ | j
  · rw [srcReadAt_bytes (s := { s with draws := d }) ha] at h
    have hl := length_sourceBytes s.src k 1
    rcases hs : sourceBytes s.src k 1 with _ | ⟨b2, _ | ⟨b3, l⟩⟩
    · simp only [hs, oddAnswer, Res.ok.injEq] at h
      refine .inl ⟨h.1.symm, (sourceBytes_nil (by decide)).1 hs, ?_⟩
      simp [← h.2, hk]
    · simp only [hs, oddAnswer, Res.ok.injEq] at h
      exact .inr ⟨b2, rfl, h.1.symm, by simpa using h.2.symm⟩
    · rw [hs] at hl; simp at hl; omega
  · simp [srcReadAt_fail (s := { s with draws := d }) ha, oddAnswer] at h

/-- Everything an odd read can be. -/
theorem rdOdd_spec (s : State) :
    (∃ r j d p ph, rdOdd s = .ok r { s with srcAns := s.srcAns.tail, spos := j, draws := d, pend := p, phase := ph } ∧
        (r = none → p = s.pend ∧ ph = s.phase)) ∨
      ∃ j d, rdOdd s = .raise .read { s with srcAns := s.srcAns.tail, spos := j, draws := d } := by
  obtain ⟨b, d', hb, -⟩ := readPend_spec s
  obtain ⟨j, d, hj⟩ := srcRead_state 1 { s with draws := d' }
  simp only [rdOdd, hb, hj]
  rcases (srcRead 1 { s with draws := d' }).1 with (_ | ⟨b2, l⟩) | _
  · exact .inl ⟨_, _, _, _, _, rfl, fun _ => ⟨rfl, rfl⟩⟩
  · exact .inl ⟨_, _, _, _, _, rfl, nofun⟩
  · exact .inr ⟨_, _, rfl⟩

/-! ## RD.CODE -/

theorem rdCode_even {s : State} (h : s.phase = some .even) : rdCode s = rdEven s := by
  simp [rdCode, readPhase_some h]

theorem rdCode_odd {s : State} (h : s.phase = some .odd) : rdCode s = rdOdd s := by
  simp [rdCode, readPhase_some h]

theorem rdOdd_pend {s : State} {b : Byte} (h : s.pend = some b) :
    rdOdd s = oddAnswer b (srcRead 1 s).1 (srcRead 1 s).2 := by
  simp [rdOdd, readPend_some h]

/-- RD.CODE is the even or the odd read, as PHASE says; while PHASE has no value, one of the two after a draw. -/
theorem rdCode_cases (s : State) :
    ∃ d, (∀ x, s.phase = some x → d = s.draws) ∧
      ((s.phase ≠ some .odd ∧ rdCode s = rdEven { s with draws := d }) ∨
        (s.phase ≠ some .even ∧ rdCode s = rdOdd { s with draws := d })) := by
  obtain ⟨ph, d, hp, hx⟩ := readPhase_spec s
  refine ⟨d, fun x h => (hx x h).2, ?_⟩
  cases ph with
  | even => exact .inl ⟨fun h => by simpa using (hx _ h).1, by simp [rdCode, hp]⟩
  | odd => exact .inr ⟨fun h => by simpa using (hx _ h).1, by simp [rdCode, hp]⟩

/-- A read of a code that returns, with SPOS at k: the clean end, a code by the even read, or a code by the odd read. -/
theorem rdCode_ok {s t : State} {r : Option Code} {k : Nat} (hk : s.spos = some k) (h : rdCode s = .ok r t) :
    ∃ d,
      (r = none ∧ s.src.length ≤ k ∧ t = { s with srcAns := s.srcAns.tail, draws := d }) ∨
        (∃ b0 b1, s.phase ≠ some .odd ∧ sourceBytes s.src k 2 = [b0, b1] ∧ r = some (assembleEven b0 b1) ∧
          t = { s with
            srcAns := s.srcAns.tail, spos := some (k + 2), pend := some b1, phase := some .odd, draws := d }) ∨
        ∃ b b2, s.phase ≠ some .even ∧ (∀ x, s.pend = some x → x = b) ∧ sourceBytes s.src k 1 = [b2] ∧
          r = some (assembleOdd b b2) ∧
          t = { s with
            srcAns := s.srcAns.tail, spos := some (k + 1), pend := none, phase := some .even, draws := d } := by
  obtain ⟨d, -, ⟨hp, he⟩ | ⟨hp, he⟩⟩ := rdCode_cases s
  · rcases rdEven_ok (s := { s with draws := d }) hk (he ▸ h) with ⟨h1, h2, rfl⟩ | ⟨b0, b1, h1, h2, rfl⟩
    · exact ⟨d, .inl ⟨h1, h2, rfl⟩⟩
    · exact ⟨d, .inr (.inl ⟨b0, b1, hp, h1, h2, rfl⟩)⟩
  · obtain ⟨d', b, hb, ⟨h1, h2, rfl⟩ | ⟨b2, h1, h2, rfl⟩⟩ := rdOdd_ok (s := { s with draws := d }) hk (he ▸ h)
    · exact ⟨d', .inl ⟨h1, h2, rfl⟩⟩
    · exact ⟨d', .inr (.inr ⟨b, b2, hp, fun x hx => (hb x hx).1, h1, h2, rfl⟩)⟩

/-- Everything a read of a code can be. -/
theorem rdCode_spec (s : State) :
    (∃ r j d p ph, rdCode s = .ok r { s with srcAns := s.srcAns.tail, spos := j, draws := d, pend := p, phase := ph } ∧
        (r = none → p = s.pend ∧ ph = s.phase)) ∨
      ∃ j d, rdCode s = .raise .read { s with srcAns := s.srcAns.tail, spos := j, draws := d } := by
  obtain ⟨d, -, ⟨-, he⟩ | ⟨-, he⟩⟩ := rdCode_cases s
  · rw [he]; exact rdEven_spec _
  · rw [he]; exact rdOdd_spec _

/-- Everything a read of a code that returns may change. -/
theorem rdCode_frame {s t : State} {r : Option Code} (h : rdCode s = .ok r t) :
    ∃ j d p ph, t = { s with srcAns := s.srcAns.tail, spos := j, draws := d, pend := p, phase := ph } := by
  rcases rdCode_spec s with ⟨r', j, d, p, ph, he, -⟩ | ⟨j, d, he⟩
  · rw [he] at h
    cases h
    exact ⟨_, _, _, _, rfl⟩
  · rw [he] at h
    cases h

/-- A read of a code that raises: always ReadError, and nothing but the source's answers, SPOS and the draws changed. -/
theorem rdCode_raise {s t : State} {e : ErrKind} (h : rdCode s = .raise e t) :
    e = .read ∧ ∃ j d, t = { s with srcAns := s.srcAns.tail, spos := j, draws := d } := by
  rcases rdCode_spec s with ⟨r', j, d, p, ph, he, -⟩ | ⟨j, d, he⟩
  · rw [he] at h
    cases h
  · rw [he] at h
    cases h
    exact ⟨rfl, _, _, rfl⟩

/-- A read of a code is never stuck. -/
theorem rdCode_not_stuck {s : State} {f : Fault} : rdCode s ≠ .stuck f := by
  rcases rdCode_spec s with ⟨r', j, d, p, ph, he, -⟩ | ⟨j, d, he⟩ <;> rw [he] <;> simp

end Sys2Proof.Machine
end

