-- ==== Sys2Proof/Laws/DecodeLoop.lean ====
section
/-! SUPPORT. What each step of the decode loop can do, said once (42_decode_loop.md). -/

namespace Sys2Proof.Machine

theorem snkWrite_ok {p : Phrase} {s t : State} {a : Unit} :
    snkWrite p s = .ok a t ↔ (sinkPut p s).1 = true ∧ (sinkPut p s).2 = t := by
  unfold snkWrite
  split <;> simp [*]

theorem snkWrite_raise {p : Phrase} {s t : State} {e : ErrKind} :
    snkWrite p s = .raise e t ↔ (sinkPut p s).1 = false ∧ .write = e ∧ (sinkPut p s).2 = t := by
  unfold snkWrite
  split <;> simp [*]

theorem snkWrite_draws (p : Phrase) (d : Nat) (s : State) :
    snkWrite p { s with draws := d } = (snkWrite p s).mapState fun u => { u with draws := d } := by
  rcases h : (sinkPut p s).1 with _ | _
  · have h' : (sinkPut p { s with draws := d }).1 = false := h
    simp only [snkWrite, h, h']
    rfl
  · have h' : (sinkPut p { s with draws := d }).1 = true := h
    simp only [snkWrite, h, h']
    rfl

theorem snkWrite_prev (p : Phrase) (x : Option Phrase) (s : State) :
    snkWrite p { s with prev := x } = (snkWrite p s).mapState fun u => { u with prev := x } := by
  rcases h : (sinkPut p s).1 with _ | _
  · have h' : (sinkPut p { s with prev := x }).1 = false := h
    simp only [snkWrite, h, h']
    rfl
  · have h' : (sinkPut p { s with prev := x }).1 = true := h
    simp only [snkWrite, h, h']
    rfl

/-- A code that a lookup finds is below NEXT, where NEXT is at least 256 (R25). -/
theorem hit_of_lookup {c : Code} {n : Next} {s : State} (hn : s.next = some n) (hl : 256 ≤ n.toNat)
    (h : isLiteral c = true ∨ ∃ m, s.next = some m ∧ isHit c m = true) : isHit c n = true := by
  rcases h with h | ⟨m, hm, h⟩
  · rw [isHit_iff]
    have := (isLiteral_iff c).1 h
    omega
  · cases hn.symm.trans hm
    exact h

/-- The bootstrap step ended with a value: the first code was a literal and its phrase was written whole. -/
theorem decBoot_ok {r : Option Code} {s t : State} {a : Unit} (h : decBoot r s = .ok a t) :
    s.mode = .boot ∧
      ∃ c, r = some c ∧ isLiteral c = true ∧
        t = { s with
          sinkAns := s.sinkAns.tail, out := s.out ++ (alphaPhrase c).bytes, prev := some (alphaPhrase c)
          mode := .steady } := by
  unfold decBoot at h
  split at h
  · simp at h
  rename_i hm
  refine ⟨not_not.1 hm, ?_⟩
  cases r with
  | none => simp at h
  | some c =>
    simp only at h
    split at h
    · rename_i hl
      obtain ⟨_, v, hw, h⟩ := Res.andThen_ok.1 h
      obtain ⟨hfull, rfl⟩ := snkWrite_ok.1 hw
      rw [sinkPut_full hfull] at h
      exact ⟨c, rfl, hl, by simpa using h.symm⟩
    · simp at h

/-- The bootstrap step raised: there was no literal first code, or its write failed. -/
theorem decBoot_raise {r : Option Code} {s t : State} {e : ErrKind} (h : decBoot r s = .raise e t) :
    s.mode = .boot ∧
      ((e = .invalidFormat ∧ t = s ∧ ∀ c, r = some c → isLiteral c = false) ∨
        ∃ c, r = some c ∧ isLiteral c = true ∧ e = .write ∧ (sinkPut (alphaPhrase c) s).1 = false ∧
          t = (sinkPut (alphaPhrase c) s).2) := by
  unfold decBoot at h
  split at h
  · simp at h
  rename_i hm
  refine ⟨not_not.1 hm, ?_⟩
  cases r with
  | none =>
    simp only [Res.raise.injEq] at h
    exact .inl ⟨h.1.symm, h.2.symm, by simp⟩
  | some c =>
    simp only at h
    split at h
    · rename_i hl
      rcases Res.andThen_raise.1 h with h | ⟨_, v, hw, h⟩
      · obtain ⟨hw, rfl, rfl⟩ := snkWrite_raise.1 h
        exact .inr ⟨c, rfl, hl, rfl, hw, rfl⟩
      · simp at h
    · rename_i hl
      simp only [Res.raise.injEq] at h
      exact .inl ⟨h.1.symm, h.2.symm, by rintro _ ⟨⟩; simpa using hl⟩

/-- A hit ended with a value: the entry was written whole, then the addition was made to the state after the write. -/
theorem hitBody_ok {q : Phrase} {c : Code} {s t : State} {a : Unit} (h : hitBody q c s = .ok a t) :
    ∃ p n, s.next = some n ∧ isHit c n = true ∧ s.found c = some p ∧
      ∃ r u, dictAdd (hitPhrase q p) { s with sinkAns := s.sinkAns.tail, out := s.out ++ p.bytes } = .ok r u ∧
        t = { u with prev := some p } := by
  obtain ⟨found, u, hg, h⟩ := Res.andThen_ok.1 h
  obtain ⟨rfl, ⟨hh, p, hp, rfl⟩ | ⟨-, -, rfl⟩⟩ := dictGet_ok.1 hg
  · obtain ⟨_, v, hw, h⟩ := Res.andThen_ok.1 h
    obtain ⟨hfull, rfl⟩ := snkWrite_ok.1 hw
    rw [sinkPut_full hfull] at h
    obtain ⟨r, w, ha, h⟩ := Res.andThen_ok.1 h
    simp only [Res.ok.injEq, true_and] at h
    obtain ⟨n, hn, hl⟩ := dictAdd_next ha
    exact ⟨p, n, hn, hit_of_lookup hn hl hh, hp, r, w, ha, h.symm⟩
  · simp at h

/-- A hit raised: the write first, and only after a whole write the addition (R144, R176). -/
theorem hitBody_raise {q : Phrase} {c : Code} {s t : State} {e : ErrKind} (h : hitBody q c s = .raise e t) :
    ∃ p, (isLiteral c = true ∨ ∃ n, s.next = some n ∧ isHit c n = true) ∧ s.found c = some p ∧
      ((e = .write ∧ (sinkPut p s).1 = false ∧ t = (sinkPut p s).2) ∨
        dictAdd (hitPhrase q p) { s with sinkAns := s.sinkAns.tail, out := s.out ++ p.bytes } = .raise e t) := by
  rcases Res.andThen_raise.1 h with h | ⟨found, u, hg, h⟩
  · exact absurd h dictGet_not_raise
  obtain ⟨rfl, ⟨hh, p, hp, rfl⟩ | ⟨-, -, rfl⟩⟩ := dictGet_ok.1 hg
  · refine ⟨p, hh, hp, ?_⟩
    rcases Res.andThen_raise.1 h with h | ⟨_, v, hw, h⟩
    · obtain ⟨hw, rfl, rfl⟩ := snkWrite_raise.1 h
      exact .inl ⟨rfl, hw, rfl⟩
    · obtain ⟨hfull, rfl⟩ := snkWrite_ok.1 hw
      rw [sinkPut_full hfull] at h
      rcases Res.andThen_raise.1 h with h | ⟨_, w, -, h⟩
      · exact .inr h
      · simp at h
  · simp at h

/-- A KwKwK step ended with a value: the addition was made first, then the phrase was written whole. -/
theorem kwkBody_ok {q : Phrase} {c : Code} {s t : State} {a : Unit} (h : kwkBody q c s = .ok a t) :
    ∃ n, s.next = some n ∧ isLiteral c = false ∧ isHit c n = false ∧
      ∃ r u, dictAdd (kwkPhrase q) s = .ok r u ∧
        t = { u with
          sinkAns := u.sinkAns.tail, out := u.out ++ (kwkPhrase q).bytes, prev := some (kwkPhrase q) } := by
  obtain ⟨hit, u, hg, h⟩ := Res.andThen_ok.1 h
  obtain ⟨rfl, ⟨-, rfl⟩ | ⟨hc, n, hn, rfl⟩⟩ := dictContains_ok.1 hg
  · simp at h
  split at h
  · simp at h
  rename_i hh
  obtain ⟨r, u, ha, h⟩ := Res.andThen_ok.1 h
  obtain ⟨_, w, hw, h⟩ := Res.andThen_ok.1 h
  obtain ⟨hfull, rfl⟩ := snkWrite_ok.1 hw
  rw [sinkPut_full hfull] at h
  exact ⟨n, hn, hc, by simpa using hh, r, u, ha, by simpa using h.symm⟩

/-- A KwKwK step raised: the addition first, and only after it the write (R145, R176). -/
theorem kwkBody_raise {q : Phrase} {c : Code} {s t : State} {e : ErrKind} (h : kwkBody q c s = .raise e t) :
    ∃ n, s.next = some n ∧ isLiteral c = false ∧ isHit c n = false ∧
      (dictAdd (kwkPhrase q) s = .raise e t ∨
        ∃ r u, dictAdd (kwkPhrase q) s = .ok r u ∧ e = .write ∧ (sinkPut (kwkPhrase q) u).1 = false ∧
          t = (sinkPut (kwkPhrase q) u).2) := by
  rcases Res.andThen_raise.1 h with h | ⟨hit, u, hg, h⟩
  · exact absurd h dictContains_not_raise
  obtain ⟨rfl, ⟨-, rfl⟩ | ⟨hc, n, hn, rfl⟩⟩ := dictContains_ok.1 hg
  · simp at h
  split at h
  · simp at h
  rename_i hh
  refine ⟨n, hn, hc, by simpa using hh, ?_⟩
  rcases Res.andThen_raise.1 h with h | ⟨r, u, ha, h⟩
  · exact .inl h
  rcases Res.andThen_raise.1 h with h | ⟨_, w, -, h⟩
  · obtain ⟨hw, rfl, rfl⟩ := snkWrite_raise.1 h
    exact .inr ⟨r, u, ha, rfl, hw, rfl⟩
  · simp at h

/-- The body of a hit does not read the register PREV, and writes it or ends the session. -/
theorem hitBody_prev (q : Phrase) (c : Code) (x : Option Phrase) (s : State) :
    (hitBody q c { s with prev := x }).outcome noValue = (hitBody q c s).outcome noValue := by
  have hg : dictGet c { s with prev := x } = (dictGet c s).mapState fun u => { u with prev := x } := by
    have hf : State.found { s with prev := x } c = s.found c := rfl
    unfold dictGet
    rw [hf]
    repeat' split
    all_goals first | rfl | simp_all
  rw [hitBody, hitBody, hg]
  cases dictGet c s with
  | ok found u =>
    cases found with
    | none => rfl
    | some e =>
      simp only [Res.mapState, Res.andThen, snkWrite_prev]
      cases snkWrite e u with
      | ok a v =>
        simp only [Res.mapState, dictAdd_prev]
        cases dictAdd (hitPhrase q e) v <;> rfl
      | raise e v => rfl
      | stuck f => rfl
  | raise e u => rfl
  | stuck f => rfl

/-- The body of a KwKwK step does not read the register PREV, and writes it or ends the session. -/
theorem kwkBody_prev (q : Phrase) (c : Code) (x : Option Phrase) (s : State) :
    (kwkBody q c { s with prev := x }).outcome noValue = (kwkBody q c s).outcome noValue := by
  have hg : dictContains c { s with prev := x } = (dictContains c s).mapState fun u => { u with prev := x } := by
    cases hl : isLiteral c <;> cases hn : s.next <;> simp [dictContains, hl, hn, Res.mapState]
  rw [kwkBody, kwkBody, hg]
  cases dictContains c s with
  | ok hit u =>
    simp only [Res.mapState, Res.andThen]
    split
    · rfl
    · rw [dictAdd_prev]
      cases dictAdd (kwkPhrase q) u with
      | ok a v =>
        simp only [Res.mapState, snkWrite_prev]
        cases snkWrite (kwkPhrase q) v <;> rfl
      | raise e v => rfl
      | stuck f => rfl
  | raise e u => rfl
  | stuck f => rfl

/-- In STEADY a hit is its body on what PREV holds, or on a free phrase and one draw more. -/
theorem decHit_steady {c : Code} {s : State} (hm : s.mode = .steady) :
    ∃ q d, decHit c s = hitBody q c { s with draws := d } ∧ ∀ x, s.prev = some x → x = q ∧ d = s.draws := by
  obtain ⟨q, d, hq, hx⟩ := readPrev_spec s
  exact ⟨q, d, by simp [decHit, hm, hq], hx⟩

/-- In STEADY a KwKwK step is its body on what PREV holds, or on a free phrase and one draw more. -/
theorem decKwk_steady {c : Code} {s : State} (hm : s.mode = .steady) :
    ∃ q d, decKwk c s = kwkBody q c { s with draws := d } ∧ ∀ x, s.prev = some x → x = q ∧ d = s.draws := by
  obtain ⟨q, d, hq, hx⟩ := readPrev_spec s
  exact ⟨q, d, by simp [decKwk, hm, hq], hx⟩

/-- In another MODE a hit and a KwKwK step are stuck. -/
theorem decHit_wrongMode {c : Code} {s : State} (hm : s.mode ≠ .steady) : decHit c s = .stuck .wrongMode := by
  simp [decHit, hm]

theorem decKwk_wrongMode {c : Code} {s : State} (hm : s.mode ≠ .steady) : decKwk c s = .stuck .wrongMode := by
  simp [decKwk, hm]

/-- START with its storage granted. -/
theorem startSession_granted {s : State} (h : allocAnswer s = true) :
    startSession s = .ok () { s with
      mode := .boot, err := .ok, next := some Config.firstCode, seeded := true, ent := [], phase := some .even,
      pend := none, prev := none, spos := some 0, out := [], allocAns := s.allocAns.tail } := by
  have h' : allocAnswer (startRegs s) = true := h
  simp only [startSession, dictInit, h', if_true, Res.andThen]
  rfl

/-- START with its storage refused. -/
theorem startSession_refused {s : State} (h : allocAnswer s = false) :
    startSession s = .raise .allocation (startRegs s).afterAlloc := by
  have h' : allocAnswer (startRegs s) = false := h
  simp [startSession, dictInit, h', Res.andThen]

/-- START accepted: storage was granted. -/
theorem startSession_ok {s t : State} {a : Unit} (h : startSession s = .ok a t) :
    allocAnswer s = true ∧
      t = { s with
        mode := .boot, err := .ok, next := some Config.firstCode, seeded := true, ent := [], phase := some .even,
        pend := none, prev := none, spos := some 0, out := [], allocAns := s.allocAns.tail } := by
  obtain ⟨_, u, hi, h⟩ := Res.andThen_ok.1 h
  obtain ⟨-, ha, rfl⟩ := dictInit_ok.1 hi
  exact ⟨ha, by simpa using h.symm⟩

/-- START refused its storage. -/
theorem startSession_raise {s t : State} {e : ErrKind} (h : startSession s = .raise e t) :
    allocAnswer s = false ∧ e = .allocation ∧ t = (startRegs s).afterAlloc := by
  rcases Res.andThen_raise.1 h with h | ⟨_, u, -, h⟩
  · obtain ⟨-, ha, rfl, rfl⟩ := dictInit_raise.1 h
    exact ⟨ha, rfl, rfl⟩
  · simp at h

end Sys2Proof.Machine
end

