-- ==== Sys2Proof/Laws/Encoding.lean ====
section
/-! SUPPORT. The encoder's bytes as numbers (30_encoding.md R81). -/

namespace Sys2Proof

theorem encodeB0_toNat (c : Code) : (encodeB0 c).toNat = c.toNat / 16 := by
  have := c.isLt
  simp only [encodeB0, BitVec.extractLsb'_toNat, Nat.shiftRight_eq_div_pow]; omega

theorem joinNibbles_toNat (hi lo : Nibble) : (joinNibbles hi lo).toNat = hi.toNat * 16 + lo.toNat := by
  have := lo.isLt
  simp only [joinNibbles, BitVec.toNat_append]
  rw [← Nat.shiftLeft_add_eq_or_of_lt (by omega), Nat.shiftLeft_eq]

theorem encodeB1_toNat (c : Code) (n : Nibble) : (encodeB1 c n).toNat = c.toNat % 16 * 16 + n.toNat := by
  rw [encodeB1, joinNibbles_toNat]; simp

theorem encodeB2_toNat (c : Code) : (encodeB2 c).toNat = c.toNat % 256 := by
  simp [encodeB2]

theorem highNibble_toNat (c : Code) : (highNibble c).toNat = c.toNat / 256 := by
  have := c.isLt
  simp only [highNibble, BitVec.extractLsb'_toNat, Nat.shiftRight_eq_div_pow]; omega

end Sys2Proof
end

