-- ==== Sys2Proof/Laws/PerInstr.lean ====
section
/-! SUPPORT. Statements about every instruction as syntax, one lemma per constructor. -/

namespace Sys2Proof.Laws.CodeClass

open Sys2Proof.Machine

/-- A row whose code is a literal: pattern `0000bbbbbbbb` of the opcode table (30_encoding.md R85, R86, R87). -/
def literalRow : Instr → Bool
  | .decBoot _ => true
  | .decHitLit _ => true
  | _ => false

/-- A well-formed row with a code has a code below 256 exactly if it is a literal row (R85). -/
def Statement (i : Instr) : Prop := i.wf = true → ∀ c, codeOf i = some c → isLiteral c = literalRow i

theorem literal (b : Byte) : ∀ c, some (literalCode b) = some c → isLiteral c = true := by
  rintro _ ⟨⟩
  exact isLiteral_literalCode b

theorem dynamic (d : Code) (h : Code.dynamic d = true) : ∀ c, some d = some c → isLiteral c = false := by
  rintro _ ⟨⟩
  simpa [Code.dynamic, isLiteral] using h

theorem decBoot (b : Byte) : Statement (.decBoot b) := fun _ => literal b
theorem decBootInvalid (c : Code) : Statement (.decBootInvalid c) := dynamic c
theorem decBootEmpty : Statement .decBootEmpty := by simp [Statement, codeOf]
theorem decHitLit (b : Byte) : Statement (.decHitLit b) := fun _ => literal b
theorem decHitRef (c : Code) : Statement (.decHitRef c) := dynamic c
theorem decKwk (c : Code) : Statement (.decKwk c) := dynamic c
theorem decEnd : Statement .decEnd := by simp [Statement, codeOf]
theorem decAbort (e : ErrKind) : Statement (.decAbort e) := by simp [Statement, codeOf]
theorem rdInit : Statement .rdInit := by simp [Statement, codeOf]
theorem rdCode : Statement .rdCode := by simp [Statement, codeOf]
theorem rdEven : Statement .rdEven := by simp [Statement, codeOf]
theorem rdOdd : Statement .rdOdd := by simp [Statement, codeOf]
theorem dictInit (width : Nat) : Statement (.dictInit width) := by simp [Statement, codeOf]
theorem dictContains (c : Code) : Statement (.dictContains c) := by simp [Statement, codeOf]
theorem dictGet (c : Code) : Statement (.dictGet c) := by simp [Statement, codeOf]
theorem dictAdd (p : Phrase) : Statement (.dictAdd p) := by simp [Statement, codeOf]
theorem dictReset : Statement .dictReset := by simp [Statement, codeOf]
theorem dictFree : Statement .dictFree := by simp [Statement, codeOf]
theorem snkWrite (p : Phrase) : Statement (.snkWrite p) := by simp [Statement, codeOf]
theorem start : Statement .start := by simp [Statement, codeOf]

end Sys2Proof.Laws.CodeClass
end

