-- ==== Sys2Proof/Laws/Reset.lean ====
section
/-! SUPPORT. How far a step or START has come when the reset input ends it, said once (70_reset_and_hazards.md R200). -/

namespace Sys2Proof.Machine

/-- What nothing inside a step changes, and that OUT only grows. -/
def InsideFrame (s t : State) : Prop :=
  t.src = s.src ∧ t.phraseMax = s.phraseMax ∧ t.inputs = s.inputs ∧ s.out <+: t.out

theorem InsideFrame.refl (s : State) : InsideFrame s s := ⟨rfl, rfl, rfl, List.prefix_refl _⟩

theorem InsideFrame.trans {s t u : State} (h : InsideFrame s t) (h' : InsideFrame t u) : InsideFrame s u :=
  ⟨h'.1.trans h.1, h'.2.1.trans h.2.1, h'.2.2.1.trans h.2.2.1, h.2.2.2.trans h'.2.2.2⟩

/-- A sub-operation that ends with a value. -/
theorem SubOp.run_ok {o : SubOp} {s t : State} {a : Unit} (h : o.run s = .ok a t) :
    (∃ p, o = .write p ∧ (sinkPut p s).1 = true ∧ (sinkPut p s).2 = t) ∨ ∃ p r, o = .add p ∧ dictAdd p s = .ok r t := by
  cases o with
  | write p => exact .inl ⟨p, rfl, snkWrite_ok.1 h⟩
  | add p =>
    obtain ⟨r, u, hr, hu⟩ := Res.andThen_ok.1 h
    cases hu
    exact .inr ⟨p, r, rfl, hr⟩

/-- A sub-operation that raises. -/
theorem SubOp.run_raise {o : SubOp} {s t : State} {e : ErrKind} (h : o.run s = .raise e t) :
    (∃ p, o = .write p ∧ (sinkPut p s).1 = false ∧ (sinkPut p s).2 = t) ∨ ∃ p, o = .add p ∧ dictAdd p s = .raise e t := by
  cases o with
  | write p =>
    obtain ⟨h1, -, h2⟩ := snkWrite_raise.1 h
    exact .inl ⟨p, rfl, h1, h2⟩
  | add p =>
    rcases Res.andThen_raise.1 h with h | ⟨_, _, -, h⟩
    · exact .inr ⟨p, rfl, h⟩
    · cases h

theorem sinkPut_frame (p : Phrase) (s : State) : InsideFrame s (sinkPut p s).2 :=
  ⟨rfl, rfl, rfl, List.prefix_append _ _⟩

theorem SubOp.run_frame {o : SubOp} {s t : State} (h : o.run s = .ok () t ∨ ∃ e, o.run s = .raise e t) :
    InsideFrame s t := by
  rcases h with h | ⟨e, h⟩
  · rcases SubOp.run_ok h with ⟨p, -, -, rfl⟩ | ⟨p, r, -, ha⟩
    · exact sinkPut_frame p s
    · obtain ⟨_, _, rfl⟩ := dictAdd_frame ha
      exact .refl s
  · rcases SubOp.run_raise h with ⟨p, -, -, rfl⟩ | ⟨p, -, ha⟩
    · exact sinkPut_frame p s
    · obtain ⟨-, _, _, _, rfl⟩ := dictAdd_raise ha
      exact .refl s

theorem runSubOps_frame (os : List SubOp) (n bytes : Nat) (s : State) : InsideFrame s (runSubOps os n bytes s) := by
  induction os generalizing n s with
  | nil => exact .refl s
  | cons o os ih =>
    cases n with
    | zero =>
      cases o with
      | write p => exact ⟨rfl, rfl, rfl, List.prefix_append _ _⟩
      | add p => exact .refl s
    | succ n =>
      simp only [runSubOps]
      rcases h : o.run s with ⟨⟨⟩, t⟩ | ⟨e, t⟩ | f
      · exact (SubOp.run_frame (.inl h)).trans (ih n t)
      · exact SubOp.run_frame (.inr ⟨e, h⟩)
      · exact .refl s

/-! ## The draw counter does not matter to a sub-operation -/

theorem SubOp.run_draws (o : SubOp) (d : Nat) (s : State) :
    o.run { s with draws := d } = (o.run s).mapState fun u => { u with draws := d } := by
  cases o with
  | write p => exact snkWrite_draws p d s
  | add p =>
    simp only [SubOp.run, dictAdd_draws]
    cases dictAdd p s <;> rfl

theorem runSubOps_draws (os : List SubOp) (n bytes d : Nat) (s : State) :
    runSubOps os n bytes { s with draws := d } = { runSubOps os n bytes s with draws := d } := by
  induction os generalizing n s with
  | nil => rfl
  | cons o os ih =>
    cases n with
    | zero => cases o <;> rfl
    | succ n =>
      simp only [runSubOps, SubOp.run_draws]
      cases o.run s with
      | ok a t => exact ih n t
      | raise e t => rfl
      | stuck f => rfl

/-- Everything a step may have done to its surroundings when the reset input ends it. -/
theorem insideStep_frame (ops bytes : Nat) (s : State) : InsideFrame s (s.insideStep ops bytes) := by
  unfold State.insideStep
  split
  · rcases h : rdCode s with ⟨r, t⟩ | ⟨e, t⟩ | f
    · have ht : InsideFrame s t := by
        obtain ⟨_, _, _, _, rfl⟩ := rdCode_frame h
        exact .refl _
      exact ht.trans (runSubOps_frame _ _ _ _)
    · obtain ⟨-, _, _, rfl⟩ := rdCode_raise h
      exact .refl _
    · exact .refl s
  · exact .refl s

/-- START, when the reset input ends it, has emptied OUT or was ignored. -/
theorem insideStart_frame (s : State) :
    s.insideStart.src = s.src ∧ s.insideStart.phraseMax = s.phraseMax ∧ s.insideStart.inputs = s.inputs ∧
      s.insideStart.out = if s.busy then s.out else [] := by
  unfold State.insideStart
  split <;> simp [*]

end Sys2Proof.Machine
end

