-- ==== Sys2Proof/Laws/Step.lean ====
section
/-! SUPPORT. What a step can do, said once: the host's input, waiting, or one code. -/

namespace Sys2Proof.Machine

/-- A step in a session whose read returns runs the selected decode step on the state after the read. -/
theorem step_code {s t : State} {r : Option Code} {n : Next} {i : Instr} (hq : hostInput s = .quiet)
    (hb : s.busy = true) (hr : rdCode s.dropInput = .ok r t) (hn : t.next = some n)
    (hs : select t.mode n r = .ok i) : step s = exec i t := by
  have hb' : s.dropInput.busy = true := hb
  simp [step, plan, hq, planQuiet, hb', planCode, hr, planRead, hn, hs]

/-- A step in a session whose read returns nothing to compare with NEXT runs the selected decode step, whatever NEXT. -/
theorem step_code_any {s t : State} {r : Option Code} {i : Instr} (hq : hostInput s = .quiet) (hb : s.busy = true)
    (hr : rdCode s.dropInput = .ok r t) (hc : comparesNext t.mode r = false)
    (hs : ∀ n, select t.mode n r = .ok i) : step s = exec i t := by
  have hb' : s.dropInput.busy = true := hb
  simp [step, plan, hq, planQuiet, hb', planCode, hr, planRead, hc, hs]

/-- A step in a session whose read raises aborts with that error. -/
theorem step_raise {s t : State} {e : ErrKind} (hq : hostInput s = .quiet) (hb : s.busy = true)
    (hr : rdCode s.dropInput = .raise e t) : step s = exec (.decAbort e) t := by
  have hb' : s.dropInput.busy = true := hb
  simp [step, plan, hq, planQuiet, hb', planCode, hr]

/-- The cases of a step that answers a next state. -/
theorem step_cases {s t : State} (h : step s = .next t) :
    (hostInput s = .start ∧ exec .start s.dropInput = .next t) ∨
      (hostInput s = .reset ∧ t = s.dropInput.hardReset) ∨
      (hostInput s = .resetInStart ∧ t = s.dropInput.insideStart.hardReset) ∨
      (∃ ops bytes, hostInput s = .resetInStep ops bytes ∧ t = (s.dropInput.insideStep ops bytes).hardReset) ∨
      (∃ src, hostInput s = .connect src ∧ s.busy = false ∧ t = { s.dropInput with src := src }) ∨
      (hostInput s = .quiet ∧ s.busy = false ∧ t = s.dropInput) ∨
      (hostInput s = .quiet ∧ s.busy = true ∧
        ((∃ r u, rdCode s.dropInput = .ok r u ∧ s.mode = .boot ∧ exec (selectBoot r) u = .next t) ∨
          (∃ r u n, rdCode s.dropInput = .ok r u ∧ (∀ m, u.next = some m → m = n) ∧ s.mode = .steady ∧
            exec (selectSteady n r) u = .next t) ∨
          ∃ e u, rdCode s.dropInput = .raise e u ∧ exec (.decAbort e) u = .next t)) := by
  unfold step plan at h
  rcases hi : hostInput s with _ | _ | _ | _ | ⟨ops, bytes⟩ | src
  · simp only [hi, planQuiet] at h
    rcases hb : s.busy with _ | _
    · have hb' : s.dropInput.busy = false := hb
      simp only [hb', Bool.false_eq_true, if_false, Host.Outcome.next.injEq] at h
      exact .inr (.inr (.inr (.inr (.inr (.inl ⟨rfl, rfl, h.symm⟩)))))
    · have hb' : s.dropInput.busy = true := hb
      refine .inr (.inr (.inr (.inr (.inr (.inr ⟨rfl, rfl, ?_⟩)))))
      simp only [hb', if_true, planCode] at h
      rcases hr : rdCode s.dropInput with ⟨r, u⟩ | ⟨e, u⟩ | f
      · simp only [hr, planRead] at h
        have hmode : u.mode = s.mode := by
          obtain ⟨_, _, _, _, rfl⟩ := rdCode_frame hr
          rfl
        rcases hm : s.mode with _ | _ | _ | _
        · simp [State.busy, modeBusy, hm] at hb
        · exact .inl ⟨r, u, rfl, rfl, by simpa [select, hmode, hm, comparesNext] using h⟩
        · refine .inr (.inl ⟨r, u, u.next.getD Config.firstCode, rfl, fun m hn => by simp [hn], rfl, ?_⟩)
          rcases hn : u.next with _ | n
          · rcases hc : comparesNext .steady r with _ | _
            · simpa [select, hmode, hm, hn, hc] using h
            · simp [hn, hmode, hm, hc] at h
          · simpa [select, hmode, hm, hn] using h
        · simp [State.busy, modeBusy, hm] at hb
      · simp only [hr] at h
        exact .inr (.inr ⟨e, u, rfl, h⟩)
      · simp [hr] at h
  · simp only [hi] at h
    exact .inl ⟨rfl, h⟩
  · simp only [hi, Host.Outcome.next.injEq] at h
    exact .inr (.inl ⟨rfl, h.symm⟩)
  · simp only [hi, Host.Outcome.next.injEq] at h
    exact .inr (.inr (.inl ⟨rfl, h.symm⟩))
  · simp only [hi, Host.Outcome.next.injEq] at h
    exact .inr (.inr (.inr (.inl ⟨ops, bytes, rfl, h.symm⟩)))
  · simp only [hi] at h
    rcases hb : s.busy with _ | _
    · simp only [hb, Bool.false_eq_true, if_false, Host.Outcome.next.injEq] at h
      exact .inr (.inr (.inr (.inr (.inl ⟨src, rfl, rfl, h.symm⟩))))
    · simp [hb] at h

end Sys2Proof.Machine
end

