-- ==== Sys2Proof/Tests/Slice0.lean ====
section
/-! SUPPORT. Small tests, their expected results from 95_test_vectors.md (V<n>) or from the rule named, and for every
statement with hypotheses a witness that they can be met. -/

namespace Sys2Proof.Tests

open Sys2Proof.Machine

/-! ## Helpers -/

/-- Whether the outcome is a next state with property p. -/
def nextIs (o : Host.Outcome State Fault Refusal) (p : State → Bool) : Bool :=
  match o with
  | .next t => p t
  | .fault _ => false
  | .refused _ => false

/-- Whether the outcome is the fault f. -/
def faultIs (o : Host.Outcome State Fault Refusal) (f : Fault) : Bool :=
  match o with
  | .next _ => false
  | .fault g => f == g
  | .refused _ => false

/-- Whether decoding answered i, taking m bytes. -/
def reads (r : Except Reject (Instr × Nat)) (i : Instr) (m : Nat) : Bool :=
  match r with
  | .ok x => x == (i, m)
  | .error _ => false

def pA : Phrase := ⟨0x41#8, []⟩
def pB : Phrase := ⟨0x42#8, []⟩
def pAB : Phrase := ⟨0x41#8, [0x42#8]⟩
def pBA : Phrase := ⟨0x42#8, [0x41#8]⟩
def pABA : Phrase := ⟨0x41#8, [0x42#8, 0x41#8]⟩
def pXY : Phrase := ⟨0x58#8, [0x59#8]⟩
def pPQ : Phrase := ⟨0x50#8, [0x51#8]⟩

/-- A session just started on a source (V40). -/
def booted (src : List Byte) : State :=
  { State.reset with
    mode := .boot, next := some 256#13, seeded := true, phase := some .even, spos := some 0, src := src }

/-- After the codes 65, 66 (V26b). -/
def afterTwo : State :=
  { State.reset with
    mode := .steady, next := some 257#13, seeded := true, ent := [(256, pAB)], phase := some .even
    prev := some pB, spos := some 3, out := [0x41#8, 0x42#8]
    src := [0x04#8, 0x10#8, 0x42#8, 0x10#8, 0x01#8, 0x02#8] }

/-- After the codes 65, 66, 256 (V2), the source going on as in V3. -/
def afterThree : State :=
  { afterTwo with
    next := some 258#13, ent := [(256, pAB), (257, pBA)], phase := some .odd, pend := some 0x01#8
    prev := some pAB, spos := some 5, out := [0x41#8, 0x42#8, 0x41#8, 0x42#8] }

/-- A dictionary at the capacity, with two of its entries (V45). -/
def full : State :=
  { afterTwo with next := some 4096#13, ent := [(256, pAB), (4095, pXY)] }

/-! ## Well-formedness -/

theorem test_wf_bootInvalid : (Instr.decBootInvalid 255#12).wf = false ∧ (Instr.decBootInvalid 256#12).wf = true := by
  decide
theorem test_wf_hitRef : (Instr.decHitRef 255#12).wf = false ∧ (Instr.decHitRef 256#12).wf = true := by decide
theorem test_wf_kwk : (Instr.decKwk 255#12).wf = false ∧ (Instr.decKwk 256#12).wf = true := by decide
theorem test_wf_abort :
    (Instr.decAbort .sourceOpen).wf = false ∧ (Instr.decAbort .sinkOpen).wf = false ∧
      (Instr.decAbort .read).wf = true := by decide
theorem test_wf_init : (Instr.dictInit 11).wf = false ∧ (Instr.dictInit 12).wf = true := by decide

/-! ## Decoding words written out from the encodings -/

/-- DEC.BOOT `0000 0100 0001`: bytes `0000 0100`, `0001 nnnn` (V1). -/
theorem test_decode_boot : reads (decode .boot 256#13 .even 0#8 [0b00000100#8, 0b00011111#8]) (.decBoot 0x41#8) 2 = true := by
  decide
/-- DEC.BOOT.INVALID `0001 0000 0000` (V25). -/
theorem test_decode_bootInvalid :
    reads (decode .boot 256#13 .even 0#8 [0b00010000#8, 0b00000000#8]) (.decBootInvalid 256#12) 2 = true := by decide
/-- DEC.BOOT.EMPTY: no bytes (V7). -/
theorem test_decode_bootEmpty : reads (decode .boot 256#13 .even 0#8 []) .decBootEmpty 0 = true := by decide
/-- DEC.HIT.LIT `0000 0100 0010` in ODD: PEND `nnnn 0000`, B2 `0100 0010` (V2). -/
theorem test_decode_hitLit :
    reads (decode .steady 256#13 .odd 0b00010000#8 [0b01000010#8]) (.decHitLit 0x42#8) 1 = true := by decide
/-- DEC.HIT.REF `0001 0000 0001` below NEXT, in EVEN (V20). -/
theorem test_decode_hitRef :
    reads (decode .steady 258#13 .even 0#8 [0b00010000#8, 0b00010000#8]) (.decHitRef 257#12) 2 = true := by decide
/-- DEC.KWK `0001 0000 0010` at NEXT, in ODD (V3). -/
theorem test_decode_kwk :
    reads (decode .steady 258#13 .odd 0b00000001#8 [0b00000010#8]) (.decKwk 258#12) 1 = true := by decide
/-- DEC.END: no bytes in STEADY, in either phase (R146, V1). -/
theorem test_decode_end :
    reads (decode .steady 256#13 .odd 0x10#8 []) .decEnd 0 = true ∧
      reads (decode .steady 257#13 .even 0#8 []) .decEnd 0 = true := by decide
/-- DEC.ABORT: one byte in EVEN, in BOOT and in STEADY (V5, V6). -/
theorem test_decode_abort :
    reads (decode .boot 256#13 .even 0#8 [0x04#8]) (.decAbort .read) 1 = true ∧
      reads (decode .steady 257#13 .even 0#8 [0x10#8]) (.decAbort .read) 1 = true := by decide
/-- No session, no code (R142). -/
theorem test_decode_noSession :
    decode .idle 256#13 .even 0#8 [0x04#8, 0x10#8] = .error .noSession ∧
      decode .done 256#13 .odd 0#8 [0x04#8] = .error .noSession := ⟨rfl, rfl⟩
/-- RD.EVEN and RD.ODD: the largest, the smallest and the crossed codes (V12 to V16). -/
theorem test_assembly :
    assembleEven 0xAB#8 0xCD#8 = 0xABC#12 ∧ assembleOdd 0xCD#8 0xEF#8 = 0xDEF#12 ∧
      assembleEven 0xFF#8 0xF0#8 = 0xFFF#12 ∧ assembleOdd 0x0F#8 0xFF#8 = 0xFFF#12 ∧
      assembleEven 0x10#8 0x00#8 = 0x100#12 ∧ assembleOdd 0x34#8 0x56#8 = 0x456#12 := by decide
/-- `Pack` as R92 writes it: the codes of V2 and of V3. -/
theorem test_pack :
    pack 0#4 [65#12, 66#12, 256#12] = [0x04#8, 0x10#8, 0x42#8, 0x10#8, 0x00#8] ∧
      pack 0#4 [65#12, 66#12, 256#12, 258#12] = [0x04#8, 0x10#8, 0x42#8, 0x10#8, 0x01#8, 0x02#8] := by decide
/-- Table words are first codes of a session. -/
theorem test_tableWords :
    decodeTableWord 16 0x041 = some (.decBoot 0x41#8) ∧ decodeTableWord 16 0xFFF = some (.decBootInvalid 0xFFF#12) ∧
      decodeTableWord 0 0 = some .decBootEmpty ∧ decodeTableWord 16 0x1000 = none := by decide
/-- The fetched word runs as the first instruction after reset, and in a running session in either phase. -/
theorem test_fetchWord :
    nextIs (step (State.reset.withFetchWord 16 0x041)) (fun t => t.out == [0x41#8] && t.mode == .steady) = true ∧
      nextIs (step (afterTwo.withFetchWord 16 0x100)) (fun t => t.prev == some pAB) = true ∧
      nextIs (step (afterThree.withFetchWord 16 0x102)) (fun t => t.prev == some pABA) = true := by decide

/-! ## Single instructions -/

/-- V1: the first code is written and becomes PREV. -/
theorem test_boot :
    nextIs (exec (.decBoot 0x41#8) (booted [])) (fun t =>
      t.out == [0x41#8] && t.prev == some pA && t.mode == .steady && t.next == some 256#13 && t.ent == []) = true := by
  decide
/-- V27b: the sink accepts nothing. -/
theorem test_boot_writeError :
    nextIs (exec (.decBoot 0x41#8) { booted [] with sinkAns := [.accepted 0] }) (fun t =>
      t.out == [] && t.err == .error .write && t.prev == none && t.mode == .done) = true := by decide
/-- V25. -/
theorem test_bootInvalid :
    nextIs (exec (.decBootInvalid 256#12) (booted [])) (fun t => t.err == .error .invalidFormat && t.out == []) = true := by
  decide
/-- V7. -/
theorem test_bootEmpty :
    nextIs (exec .decBootEmpty (booted [])) (fun t => t.err == .error .invalidFormat && t.mode == .done) = true := by decide
/-- V2, its second code: ENT[256] is PREV with the new byte. -/
theorem test_hitLit :
    nextIs (exec (.decHitLit 0x42#8) { afterTwo with prev := some pA, next := some 256#13, ent := [] }) (fun t =>
      t.ent == [(256, pAB)] && t.prev == some pB && t.next == some 257#13) = true := by decide
/-- V28: the phrase is written before the addition fails. -/
theorem test_hitLit_allocation :
    nextIs (exec (.decHitLit 0x43#8) { afterTwo with allocAns := [false] }) (fun t =>
      t.out == [0x41#8, 0x42#8, 0x43#8] && t.err == .error .allocation) = true := by decide
/-- V2, its third code. -/
theorem test_hitRef :
    nextIs (exec (.decHitRef 256#12) afterTwo) (fun t =>
      t.ent == [(256, pAB), (257, pBA)] && t.prev == some pAB && t.out == [0x41#8, 0x42#8, 0x41#8, 0x42#8]) = true := by
  decide
/-- V27: a short write of "AB"; the addition of "BA" is not made, so no storage was asked for. -/
theorem test_hitRef_shortWrite :
    nextIs (exec (.decHitRef 256#12) { afterTwo with sinkAns := [.accepted 1], allocAns := [true] }) (fun t =>
      t.out == [0x41#8, 0x42#8, 0x41#8] && t.err == .error .write && t.allocAns == [true]) = true := by decide
/-- V3. -/
theorem test_kwk :
    nextIs (exec (.decKwk 258#12) afterThree) (fun t =>
      t.prev == some pABA && t.next == some 259#13 && t.ent == [(256, pAB), (257, pBA), (258, pABA)] &&
        t.out == [0x41#8, 0x42#8, 0x41#8, 0x42#8, 0x41#8, 0x42#8, 0x41#8]) = true := by decide
/-- V23: a code above NEXT is the same, and is not entered itself. -/
theorem test_kwk_above :
    nextIs (exec (.decKwk 300#12) { afterTwo with prev := some pA, next := some 256#13, ent := [] }) (fun t =>
      t.ent == [(256, ⟨0x41#8, [0x41#8]⟩)] && t.next == some 257#13) = true := by decide
/-- V26b. -/
theorem test_end :
    nextIs (exec .decEnd afterTwo) (fun t => t.mode == .done && t.err == .ok && t.next == none && t.prev == none) = true := by
  decide
/-- V5: the output before the error stays. -/
theorem test_abort :
    nextIs (exec (.decAbort .read) afterTwo) (fun t => t.err == .error .read && t.out == [0x41#8, 0x42#8]) = true := by decide
/-- R120. -/
theorem test_rdInit : nextIs (exec .rdInit afterThree) (fun t => t.phase == some .even) = true := by decide
/-- V12, the first call. -/
theorem test_rdCode :
    nextIs (exec .rdCode (booted [0xAB#8, 0xCD#8, 0xEF#8])) (fun t =>
      t.ret == .code 0xABC#12 && t.pend == some 0xCD#8 && t.phase == some .odd && t.spos == some 2) = true := by decide
/-- V17: a stray byte at an even read; SPOS has no value after the end (R202). -/
theorem test_rdEven_stray :
    nextIs (exec .rdEven { booted [0x12#8, 0x34#8, 0x56#8, 0x78#8] with spos := some 3 }) (fun t =>
      t.err == .error .read && t.spos == none) = true := by decide
/-- V12, the second call. -/
theorem test_rdOdd :
    nextIs (exec .rdOdd
      { booted [0xAB#8, 0xCD#8, 0xEF#8] with phase := some .odd, pend := some 0xCD#8, spos := some 2 }) (fun t =>
      t.ret == .code 0xDEF#12 && t.phase == some .even && t.spos == some 3) = true := by decide
/-- V10: a clean end in ODD. -/
theorem test_rdOdd_end :
    nextIs (exec .rdOdd
      { booted [0x04#8, 0x10#8] with phase := some .odd, pend := some 0x10#8, spos := some 2 }) (fun t =>
      t.ret == .noCode && t.phase == some .odd && t.spos == some 2) = true := by decide
/-- V40. -/
theorem test_dictInit :
    nextIs (exec (.dictInit 12) State.reset) (fun t =>
      t.next == some 256#13 && t.entry 0#12 == some ⟨0#8, []⟩ && t.entry 65#12 == some pA &&
        t.entry 255#12 == some ⟨0xFF#8, []⟩ && t.entry 256#12 == none) = true := by decide
/-- V41. -/
theorem test_dictContains :
    nextIs (exec (.dictContains 255#12) (booted [])) (fun t => t.ret == .bit true) = true ∧
      nextIs (exec (.dictContains 256#12) (booted [])) (fun t => t.ret == .bit false) = true := by decide
/-- V42. -/
theorem test_dictGet :
    nextIs (exec (.dictGet 257#12) afterThree) (fun t => t.ret == .entry (some pBA)) = true ∧
      nextIs (exec (.dictGet 258#12) afterThree) (fun t => t.ret == .entry none) = true := by decide
/-- R101, R102: literals "in every state", also after hardware reset. -/
theorem test_dictionary_literal :
    nextIs (exec (.dictContains 65#12) State.reset) (fun t => t.ret == .bit true) = true ∧
      nextIs (exec (.dictGet 255#12) State.reset) (fun t => t.ret == .entry (some ⟨0xFF#8, []⟩)) = true := by decide
/-- V44: the last code, no reset yet. -/
theorem test_dictAdd_last :
    nextIs (exec (.dictAdd pXY) { afterTwo with next := some 4095#13 }) (fun t =>
      t.ret == .added 4095#12 pXY && t.next == some 4096#13 && t.entry 4095#12 == some pXY) = true := by decide
/-- V45, V46: reset first, then the insertion. -/
theorem test_dictAdd_full :
    nextIs (exec (.dictAdd pPQ) full) (fun t =>
      t.ret == .added 256#12 pPQ && t.next == some 257#13 && t.ent == [(256, pPQ)] && t.entry 65#12 == some pA) = true := by
  decide
/-- R104. -/
theorem test_dictReset :
    nextIs (exec .dictReset full) (fun t => t.next == some 256#13 && t.ent == [] && t.prev == some pB) = true := by decide
/-- R105. -/
theorem test_dictFree :
    nextIs (exec .dictFree afterThree) (fun t => t.entry 256#12 == none && t.entry 65#12 == some pA && t.next == none) =
      true := by decide
/-- R148: a whole write. -/
theorem test_snkWrite :
    nextIs (exec (.snkWrite pAB) (booted [])) (fun t => t.out == [0x41#8, 0x42#8] && t.mode == .boot) = true := by decide
/-- R201. -/
theorem test_start :
    nextIs (exec .start { State.reset with out := [1#8], spos := some 7 }) (fun t =>
      t == { booted [] with ret := .unit }) = true := by decide
/-- V40a: storage refused. -/
theorem test_start_refused :
    nextIs (exec .start { State.reset with allocAns := [false] }) (fun t =>
      t.mode == .done && t.err == .error .allocation && t.out == []) = true := by decide

/-! ## Stops: operations outside their preconditions -/

/-- U17: there is no dictionary after hardware reset. -/
theorem test_stop_noDictionary :
    faultIs (exec (.dictGet 256#12) State.reset) .noDictionary = true ∧
      faultIs (exec (.dictAdd pAB) State.reset) .noDictionary = true := by decide
theorem test_stop_wrongMode : faultIs (exec .decEnd State.reset) .wrongMode = true := by decide
theorem test_stop_width : faultIs (exec (.dictInit 11) State.reset) .codeWidth = true := by decide

/-! ## Registers without a value -/

/-- U6, R144: whatever PREV holds, the literal is written and becomes PREV, and one phrase is added at NEXT. -/
theorem test_hitLit_withoutPrev :
    nextIs (exec (.decHitLit 0x43#8) { afterTwo with prev := none }) (fun t =>
      t.out == [0x41#8, 0x42#8, 0x43#8] && t.prev == some ⟨0x43#8, []⟩ && t.next == some 258#13 && t.draws == 1) = true := by
  decide
/-- U6, R121, R122: after hardware reset a failed read is ReadError, in either read. -/
theorem test_read_afterReset :
    nextIs (exec .rdEven { State.reset with srcAns := [.fail 9] }) (fun t => t.err == .error .read) = true ∧
      nextIs (exec .rdOdd { State.reset with srcAns := [.fail 9] }) (fun t => t.err == .error .read) = true := by decide
/-- R121: the even read does not look at PHASE. -/
theorem test_rdEven_inOdd :
    nextIs (exec .rdEven { afterThree with src := [], spos := some 0 }) (fun t => t.ret == .noCode) = true := by decide

/-! ## One step -/

/-- V3, its last code, by a step: PEND completes code 258. -/
theorem test_step_kwk :
    nextIs (step afterThree) (fun t => t.prev == some pABA && t.phase == some .even && t.spos == some 6) = true := by decide
/-- R142, R146: the clean end looks nothing up, so it ends the session whatever NEXT holds. -/
theorem test_step_endWithoutNext :
    nextIs (step { booted [] with mode := .steady, next := none }) (fun t => t.mode == .done && t.err == .ok) = true := by
  decide
/-- V19b: a failed read. -/
theorem test_step_failedRead :
    nextIs (step { booted [0x04#8, 0x10#8] with srcAns := [.fail 9] }) (fun t =>
      t.err == .error .read && t.out == [] && t.mode == .done) = true := by decide

/-- R200, R145: a reset inside V3's last step, "ABA" added and one byte of it accepted. -/
theorem test_reset_insideKwk :
    nextIs (step { afterThree with inputs := [.resetInStep 2 1] }) (fun t =>
      t.mode == .idle && t.err == .ok && t.ent == [] && t.spos == none &&
        t.out == [0x41#8, 0x42#8, 0x41#8, 0x42#8, 0x41#8]) = true := by decide
/-- R200, R144: a reset inside a hit, the code read and one byte of "AB" accepted, nothing added. -/
theorem test_reset_insideHit :
    nextIs (step { afterTwo with inputs := [.resetInStep 1 1], allocAns := [true] }) (fun t =>
      t.mode == .idle && t.out == [0x41#8, 0x42#8, 0x41#8] && t.allocAns == [true]) = true := by decide

/-! ## Witnesses: the hypotheses of every statement can be met -/

theorem witness_DecodeEncodeAgree :
    ((Instr.decKwk 0xFFF#12).wf = true ∧ codeOf (.decKwk 0xFFF#12) = some 0xFFF#12 ∧
        SelectedIn .steady 256#13 (.decKwk 0xFFF#12)) ∧
      ((Instr.decHitRef 256#12).wf = true ∧ codeOf (.decHitRef 256#12) = some 256#12 ∧
        SelectedIn .steady 257#13 (.decHitRef 256#12)) ∧
      (Instr.decBoot 0xFF#8).wf = true ∧ codeOf (.decBoot 0xFF#8) = some 0xFF#12 ∧
        SelectedIn .boot 256#13 (.decBoot 0xFF#8) :=
  ⟨⟨rfl, rfl, rfl, by decide, by decide⟩, ⟨rfl, rfl, rfl, by decide, by decide⟩, rfl, rfl, rfl⟩

theorem witness_DecodedStepsAreSelected :
    decode .steady 258#13 .odd 0x01#8 [0x02#8] = .ok (.decKwk 258#12, 1) ∧
      decode .boot 256#13 .even 0#8 [0x10#8, 0x00#8] = .ok (.decBootInvalid 256#12, 2) := ⟨rfl, rfl⟩

theorem witness_StepRunsDecodedInstruction :
    (Quiet afterThree ∧ ReadOk afterThree ∧ afterThree.next = some 258#13 ∧ afterThree.phase = some .odd ∧
        afterThree.spos = some 5 ∧ afterThree.pend = some 0x01#8 ∧
        decode afterThree.mode 258#13 .odd 0x01#8 (afterThree.src.drop 5) = .ok (.decKwk 258#12, 1)) ∧
      Quiet (booted []) ∧ ReadOk (booted []) ∧ (booted []).next = some 256#13 ∧ (booted []).phase = some .even ∧
        (booted []).spos = some 0 ∧
        decode (booted []).mode 256#13 .even 0#8 ((booted []).src.drop 0) = .ok (.decBootEmpty, 0) :=
  ⟨⟨rfl, rfl, rfl, rfl, rfl, rfl, rfl⟩, rfl, rfl, rfl, rfl, rfl, rfl⟩

theorem witness_HostInputsTakeTheirTurn :
    hostInput { State.reset with inputs := [.start] } = .start ∧
      hostInput { State.reset with inputs := [.reset] } = .reset ∧
      hostInput { State.reset with inputs := [.resetInStart] } = .resetInStart ∧
      hostInput { afterTwo with inputs := [.resetInStep 1 1] } = .resetInStep 1 1 ∧
      (hostInput { State.reset with inputs := [.connect []] } = .connect [] ∧ State.reset.busy = false) ∧
      (hostInput { booted [] with inputs := [.connect []] } = .connect [] ∧ (booted []).busy = true) ∧
      Quiet State.reset := ⟨rfl, rfl, rfl, rfl, ⟨rfl, rfl⟩, ⟨rfl, rfl⟩, rfl⟩

/-- Before a step, inside START, inside a step. -/
theorem witness_ResetInputAbandonsSession :
    ResetComes { afterThree with inputs := [.reset] } ∧ ResetComes { State.reset with inputs := [.resetInStart] } ∧
      ResetComes { afterThree with inputs := [.resetInStep 2 1] } :=
  ⟨.inl rfl, .inr (.inl rfl), .inr (.inr ⟨2, 1, rfl⟩)⟩

/-- The step of V3's last code, OUT before it, after it, and cut after the first byte of its write. -/
theorem witness_ResetInsideStep :
    Quiet afterThree ∧ afterThree.busy = true ∧
      nextIs (step afterThree) (fun t => t.out == afterThree.out ++ pABA.bytes) = true ∧
      afterThree.out <+: afterThree.out ++ [0x41#8] ∧ afterThree.out ++ [0x41#8] <+: afterThree.out ++ pABA.bytes :=
  ⟨rfl, rfl, by decide, ⟨_, rfl⟩, ⟨[0x42#8, 0x41#8], rfl⟩⟩

theorem witness_StartInitialisesSession :
    (State.reset.mode = .idle ∧ allocAnswer State.reset = true) ∧
      (State.finish .ok afterThree).mode = .done ∧ allocAnswer (State.finish .ok afterThree) = true :=
  ⟨⟨rfl, rfl⟩, rfl, rfl⟩

theorem witness_StartWithoutStorageFails :
    State.reset.mode = .idle ∧ allocAnswer { State.reset with allocAns := [false] } = false := ⟨rfl, rfl⟩

theorem witness_StartIgnoredWhileBusy : (booted []).mode = .boot ∧ afterTwo.mode = .steady := ⟨rfl, rfl⟩

theorem witness_StartForgetsThePast :
    (State.finish .ok afterTwo).busy = false ∧ (State.finish (.error .read) { afterTwo with prev := some pA }).busy = false ∧
      SameEnv (State.finish .ok afterTwo) (State.finish (.error .read) { afterTwo with prev := some pA }) ∧
      allocAnswer (State.finish .ok afterTwo) = true := ⟨rfl, rfl, ⟨rfl, rfl, rfl, rfl, rfl, rfl, rfl⟩, rfl⟩

theorem witness_InitSeedsAlphabet :
    allocAnswer State.reset = true ∧ allocAnswer { State.reset with allocAns := [false] } = false := ⟨rfl, rfl⟩

theorem witness_ContainsComparesWithNext :
    (255#12).toNat ≤ 255 ∧ ((booted []).next = some 256#13 ∧ 256 ≤ (256#13).toNat) ∧
      full.next = some 4096#13 ∧ 256 ≤ (4096#13).toNat := by decide

/-- Both sides of NEXT = 258. -/
theorem witness_GetAnswersBelowNext :
    DictInv 258#13 afterThree ∧ (257#12).toNat < (258#13).toNat ∧ (258#13).toNat ≤ (258#12).toNat :=
  ⟨⟨rfl, by decide, by decide, rfl, rfl⟩, by decide, by decide⟩

/-- Both ends of the range, 256 and 4095. -/
theorem witness_AddStoresAtNext :
    ((booted []).next = some 256#13 ∧ StorageFor pAB.bytes.length (booted [])) ∧
      { afterTwo with next := some 4095#13 }.next = some 4095#13 ∧ StorageFor pXY.bytes.length afterTwo :=
  ⟨⟨rfl, rfl, rfl⟩, rfl, rfl, rfl⟩

theorem witness_AddAtCapacityResets : full.next = some 4096#13 ∧ StorageFor pPQ.bytes.length full := ⟨rfl, rfl, rfl⟩

/-- Refused storage (V47), and a phrase longer than PHRASE_MAX. -/
theorem witness_AddWithoutStorageFails :
    full.next = some 4096#13 ∧ ¬StorageFor pXY.bytes.length { full with allocAns := [false] } ∧
      ¬StorageFor pABA.bytes.length { full with phraseMax := some 2 } := by
  refine ⟨rfl, ?_, ?_⟩ <;> unfold StorageFor <;> decide

theorem witness_ResetDiscardsDynamicEntries : full.next = some 4096#13 := rfl

theorem witness_DictionaryFrame :
    nextIs (exec (.dictInit 12) State.reset) (fun _ => true) = true ∧
      nextIs (exec (.dictContains 0#12) afterTwo) (fun _ => true) = true ∧
      nextIs (exec (.dictGet 256#12) afterTwo) (fun _ => true) = true ∧
      nextIs (exec (.dictAdd pAB) full) (fun _ => true) = true ∧
      nextIs (exec .dictReset full) (fun _ => true) = true ∧
      nextIs (exec .dictFree full) (fun _ => true) = true := by decide

theorem witness_TableKeepsCanonicalForm :
    Memory.wf full.ent ∧ nextIs (exec (.dictAdd pXY) { full with next := some 4095#13 }) (fun _ => true) = true ∧
      nextIs (step afterThree) (fun _ => true) = true := by decide

theorem inv_booted (src : List Byte) : BlockInv (booted src) :=
  ⟨⟨rfl, by decide, by decide, rfl, rfl⟩, ⟨rfl, rfl, rfl, rfl⟩, rfl, rfl, rfl⟩

theorem inv_afterTwo : BlockInv afterTwo :=
  ⟨⟨257#13, rfl, by decide, by decide, rfl, rfl⟩, ⟨.even, 3, ⟨rfl, rfl, rfl, rfl⟩, by decide⟩, rfl, by decide, rfl⟩

theorem inv_afterThree : BlockInv afterThree :=
  ⟨⟨258#13, rfl, by decide, by decide, rfl, rfl⟩, ⟨.odd, 5, ⟨rfl, rfl, rfl, rfl⟩, by decide⟩, rfl, by decide, rfl⟩

theorem witness_AlphabetIsFixed :
    (BlockInv afterThree ∧ afterThree.busy = true) ∧
      full.entry (literalCode 0xFF#8) = some (single 0xFF#8) ∧
      nextIs (exec (.dictAdd pPQ) full) (fun _ => true) = true := ⟨⟨inv_afterThree, rfl⟩, by decide, by decide⟩

theorem witness_ReaderInitSetsEven : nextIs (exec .rdInit afterThree) (fun _ => true) = true := by decide

/-- An instruction that ends a session, by an error and cleanly. -/
theorem witness_FreeReleasesDynamicEntries :
    (booted []).mode ≠ .done ∧ nextIs (exec .decBootEmpty (booted [])) (fun t => t.mode == .done) = true ∧
      afterTwo.mode ≠ .done ∧ nextIs (exec .decEnd afterTwo) (fun t => t.mode == .done) = true := by decide

/-- A code, a clean end, one stray byte, and a failed read. -/
theorem witness_EvenRead :
    (booted [0x04#8, 0x10#8]).spos = some 0 ∧
      (ReadOk (booted [0x04#8, 0x10#8]) ∧ (booted [0x04#8, 0x10#8]).src[0]? = some 0x04#8 ∧
        (booted [0x04#8, 0x10#8]).src[0 + 1]? = some 0x10#8) ∧
      (booted []).src.length ≤ 0 ∧ (booted [0x04#8]).src.length = 0 + 1 ∧
      ¬ReadOk { booted [0x04#8, 0x10#8] with srcAns := [.fail 9] } := by
  refine ⟨rfl, ⟨rfl, rfl, rfl⟩, by decide, rfl, ?_⟩
  unfold ReadOk
  decide

/-- A code, a clean end, and a failed read. -/
theorem witness_OddRead :
    afterThree.pend = some 0x01#8 ∧ afterThree.spos = some 5 ∧
      (ReadOk afterThree ∧ afterThree.src[5]? = some 0x02#8) ∧
      { afterThree with src := [0x04#8, 0x10#8, 0x42#8, 0x10#8, 0x01#8] }.src.length ≤ 5 ∧
      ¬ReadOk { afterThree with srcAns := [.fail 9] } := by
  refine ⟨rfl, rfl, ⟨rfl, rfl⟩, by decide, ?_⟩
  unfold ReadOk
  decide

/-- Both phases, and none. -/
theorem witness_ReadCodeFollowsPhase :
    afterTwo.phase = some .even ∧ afterThree.phase = some .odd ∧ State.reset.phase = none := ⟨rfl, rfl, rfl⟩

theorem witness_ReaderFrame :
    nextIs (exec .rdInit afterThree) (fun _ => true) = true ∧ nextIs (exec .rdCode afterThree) (fun _ => true) = true ∧
      nextIs (exec .rdEven afterTwo) (fun _ => true) = true ∧ nextIs (exec .rdOdd afterThree) (fun _ => true) = true := by
  decide

theorem witness_PendingNibbleNoninterference :
    afterThree.busy = true ∧ afterThree.phase = some .odd ∧ (0x01#8).toNat % 16 = (0xF1#8).toNat % 16 ∧
      (afterThree.spos = some 5 ∧ { afterThree with src := [] }.src.length ≤ 5) ∧ Quiet afterThree :=
  ⟨rfl, rfl, by decide, ⟨rfl, by decide⟩, rfl⟩

/-- Each clause: a taken write, a refused write, and the smallest and largest first code that is no literal. -/
theorem witness_BootstrapStep :
    (booted []).mode = .boot ∧ SinkTakes 1 (booted []) ∧
      ¬SinkTakes 1 { booted [] with sinkAns := [.accepted 0] } ∧ 256 ≤ (256#12).toNat ∧ 256 ≤ (4095#12).toNat := by
  refine ⟨rfl, rfl, ?_, by decide, by decide⟩
  unfold SinkTakes
  decide

/-- A literal and a reference, with NEXT at both ends of its range; each of the three clauses. -/
theorem witness_HitStep :
    (HitRow (.decHitLit 0xFF#8) 0xFF#12 ∧ { afterTwo with next := some 256#13 }.mode = .steady ∧
        { afterTwo with next := some 256#13 }.prev = some pB ∧ (0xFF#12).toNat < (256#13).toNat ∧
        { afterTwo with next := some 256#13 }.entry 0xFF#12 = some ⟨0xFF#8, []⟩) ∧
      (HitRow (.decHitRef 4095#12) 4095#12 ∧ full.mode = .steady ∧ full.prev = some pB ∧ full.next = some 4096#13 ∧
        (4095#12).toNat < (4096#13).toNat ∧ full.entry 4095#12 = some pXY) ∧
      (SinkTakes pXY.bytes.length full ∧ StorageFor (pB.bytes.length + 1) full) ∧
      ¬SinkTakes pXY.bytes.length { full with sinkAns := [.accepted 1] } ∧
      SinkTakes pXY.bytes.length { full with allocAns := [false] } ∧
      ¬StorageFor (pB.bytes.length + 1) { full with allocAns := [false] } := by
  refine ⟨⟨rfl, rfl, rfl, by decide, by decide⟩, ⟨⟨rfl, by decide⟩, rfl, rfl, rfl, by decide, by decide⟩,
    ⟨rfl, rfl, rfl⟩, ?_, rfl, ?_⟩
  · unfold SinkTakes; decide
  · unfold StorageFor; decide

theorem witness_HitAcrossReset :
    HitRow (.decHitRef 4095#12) 4095#12 ∧ full.mode = .steady ∧ full.prev = some pB ∧ full.next = some 4096#13 ∧
      full.entry 4095#12 = some pXY ∧ SinkTakes pXY.bytes.length full ∧ StorageFor (pB.bytes.length + 1) full :=
  ⟨⟨rfl, by decide⟩, rfl, rfl, rfl, by decide, rfl, rfl, rfl⟩

/-- The code at NEXT and the largest code; each of the three clauses. -/
theorem witness_KwkStep :
    (afterThree.mode = .steady ∧ afterThree.prev = some pAB ∧ afterThree.next = some 258#13 ∧
        256 ≤ (258#13).toNat ∧ (258#13).toNat ≤ (258#12).toNat ∧ (258#13).toNat ≤ (4095#12).toNat) ∧
      (StorageFor (pAB.bytes.length + 1) afterThree ∧ SinkTakes (pAB.bytes.length + 1) afterThree) ∧
      ¬StorageFor (pAB.bytes.length + 1) { afterThree with phraseMax := some 2 } ∧
      StorageFor (pAB.bytes.length + 1) { afterThree with sinkAns := [.accepted 2] } ∧
      ¬SinkTakes (pAB.bytes.length + 1) { afterThree with sinkAns := [.accepted 2] } := by
  refine ⟨⟨rfl, rfl, rfl, by decide, by decide, by decide⟩, ⟨⟨rfl, rfl⟩, rfl⟩, ?_, ⟨rfl, rfl⟩, ?_⟩
  · unfold StorageFor; decide
  · unfold SinkTakes; decide

theorem witness_EndFinishesOk : afterThree.mode = .steady := rfl

theorem witness_AbortEndsWithItsError :
    (booted []).mode = .boot ∧ afterTwo.mode = .steady ∧ ErrKind.ofBlock .allocation = true ∧
      ErrKind.ofBlock .read = true ∧ ErrKind.ofBlock .write = true ∧ ErrKind.ofBlock .invalidFormat = true ∧
      nextIs (exec (.decAbort .allocation) (booted [])) (fun t => t.mode == .done) = true ∧
      nextIs (exec .decEnd afterTwo) (fun t => t.mode == .done) = true := by decide

/-- Taken whole; accepted in part, none and all but one byte; failed, with none and all of the bytes in the sink. -/
theorem witness_WriteIsWholeOrError :
    SinkTakes pAB.bytes.length afterTwo ∧
      (0 < pAB.bytes.length ∧ sinkAnswer pAB.bytes.length { afterTwo with sinkAns := [.accepted 0] } = .accepted 0) ∧
      (1 < pAB.bytes.length ∧ sinkAnswer pAB.bytes.length { afterTwo with sinkAns := [.accepted 1] } = .accepted 1) ∧
      sinkAnswer pAB.bytes.length { afterTwo with sinkAns := [.fail 0] } = .fail 0 ∧
      sinkAnswer pAB.bytes.length { afterTwo with sinkAns := [.fail 2] } = .fail 2 :=
  ⟨rfl, ⟨by decide, rfl⟩, ⟨by decide, rfl⟩, rfl, rfl⟩

theorem witness_DecodeLoopFrame :
    nextIs (exec (.decBoot 0#8) (booted [])) (fun _ => true) = true ∧
      nextIs (exec (.decBootInvalid 256#12) (booted [])) (fun _ => true) = true ∧
      nextIs (exec .decBootEmpty (booted [])) (fun _ => true) = true ∧
      nextIs (exec (.decHitLit 0#8) afterTwo) (fun _ => true) = true ∧
      nextIs (exec (.decHitRef 256#12) afterTwo) (fun _ => true) = true ∧
      nextIs (exec (.decKwk 257#12) afterTwo) (fun _ => true) = true ∧
      nextIs (exec .decEnd afterTwo) (fun _ => true) = true ∧
      nextIs (exec (.decAbort .write) afterTwo) (fun _ => true) = true ∧
      nextIs (exec (.snkWrite pAB) afterTwo) (fun _ => true) = true := by decide

/-- A failed read, and a stray byte. -/
theorem witness_ReadErrorComesFirst :
    (Quiet afterThree ∧ afterThree.busy = true ∧ afterThree.spos = some 5 ∧
        ¬ReadOk { afterThree with srcAns := [.fail 0] }) ∧
      Quiet (booted [0x04#8]) ∧ (booted [0x04#8]).busy = true ∧ (booted [0x04#8]).spos = some 0 ∧
        (booted [0x04#8]).phase = some .even ∧ (booted [0x04#8]).src.length = 0 + 1 := by
  refine ⟨⟨rfl, rfl, rfl, ?_⟩, rfl, rfl, rfl, rfl, rfl⟩
  unfold ReadOk
  decide

theorem witness_StepKeepsInvariant :
    (BlockInv (booted [0x04#8, 0x10#8]) ∧ nextIs (step (booted [0x04#8, 0x10#8])) (fun _ => true) = true) ∧
      BlockInv afterThree ∧ nextIs (step afterThree) (fun t => t.mode == .steady) = true :=
  ⟨⟨inv_booted _, by decide⟩, inv_afterThree, by decide⟩

theorem witness_InvariantNeverStuck :
    BlockInv afterTwo ∧ BlockInv { booted [] with inputs := [.connect [0#8]] } := ⟨inv_afterTwo, inv_booted []⟩

theorem witness_StepReadsNoAbsentRegister :
    BlockInv afterThree ∧ nextIs (step afterThree) (fun t => t.mode == .steady) = true := ⟨inv_afterThree, by decide⟩

/-- A code; START, START cut off by the reset input, START during a session. -/
theorem witness_OutputOnlyGrows :
    nextIs (step afterTwo) (fun _ => true) = true ∧
      nextIs (step { State.reset with inputs := [.start], out := [1#8] }) (fun t => t.out == []) = true ∧
      nextIs (step { State.reset with inputs := [.resetInStart], out := [1#8] }) (fun t => t.out == []) = true ∧
      nextIs (step { afterTwo with inputs := [.start] }) (fun t => t.out == afterTwo.out) = true := by decide

theorem witness_SourceIsImmutable :
    nextIs (step afterTwo) (fun _ => true) = true ∧
      nextIs (step { State.reset with inputs := [.connect [1#8]] }) (fun t => t.src == [1#8]) = true := by decide

/-- A code in EVEN, a code in ODD, a clean end. -/
theorem witness_PositionMovesForward :
    (Quiet afterTwo ∧ afterTwo.busy = true ∧ afterTwo.spos = some 3 ∧
        nextIs (step afterTwo) (fun t => t.spos == some 5) = true) ∧
      (Quiet afterThree ∧ afterThree.busy = true ∧ afterThree.spos = some 5 ∧
        nextIs (step afterThree) (fun t => t.spos == some 6) = true) ∧
      Quiet (booted []) ∧ (booted []).busy = true ∧ (booted []).spos = some 0 ∧
        nextIs (step (booted [])) (fun t => t.spos == none && t.mode == .done) = true :=
  ⟨⟨rfl, rfl, rfl, by decide⟩, ⟨rfl, rfl, rfl, by decide⟩, rfl, rfl, rfl, by decide⟩

/-- One step for each of the six cases. -/
theorem witness_ModeTransitions :
    nextIs (step { afterTwo with inputs := [.reset] }) (fun t => t.mode == .idle) = true ∧
      nextIs (step { State.reset with inputs := [.start] }) (fun t => t.mode == .boot) = true ∧
      nextIs (step State.reset) (fun t => t.mode == .idle) = true ∧
      nextIs (step { afterTwo with inputs := [.start] }) (fun t => t.mode == .steady) = true ∧
      nextIs (step (booted [])) (fun t => t.mode == .done && t.err == .error .invalidFormat) = true ∧
      nextIs (step { afterTwo with src := [] }) (fun t => t.mode == .done && t.err == .ok) = true := by decide

theorem witness_CollaboratorErrorsNeverRaised :
    nextIs (exec .rdEven { afterTwo with srcAns := [.fail 0] }) (fun t => t.err == .error .read) = true ∧
      Result.ofBlock afterTwo.err = true ∧ Result.ofBlock (.error .sinkOpen) = false := by decide

/-- At the second and at the third code (R110, R42, R154). -/
theorem witness_StepKeepsNextCount :
    BlockInv afterTwo ∧ NextCountInv afterTwo ∧ nextIs (step afterTwo) (fun t => t.mode == .steady) = true := by
  refine ⟨inv_afterTwo, ?_, by decide⟩
  rintro - n k ⟨⟩ ⟨⟩
  decide

theorem witness_StepKeepsLengthBound :
    BlockInv afterTwo ∧ LengthInv afterTwo ∧ nextIs (step afterTwo) (fun t => t.mode == .steady) = true := by
  refine ⟨inv_afterTwo, ?_, by decide⟩
  rintro - k ⟨⟩
  exact ⟨by rintro p ⟨⟩; decide, by decide⟩

theorem witness_StepKeepsPrevWritten :
    (Quiet (booted [0x04#8, 0x10#8]) ∧ (booted [0x04#8, 0x10#8]).busy = true ∧
        nextIs (step (booted [0x04#8, 0x10#8])) (fun t => t.mode == .steady) = true) ∧
      BlockInv afterThree ∧ PrevInv afterThree ∧ nextIs (step afterThree) (fun t => t.mode == .steady) = true := by
  refine ⟨⟨rfl, rfl, by decide⟩, inv_afterThree, ?_, by decide⟩
  rintro - p ⟨⟩
  exact ⟨[0x41#8, 0x42#8], rfl⟩

/-- The source of V3, from reset. -/
theorem witness_WholeRunIsDecode :
    State.reset.busy = false ∧ PerfectEnv { State.reset with inputs := [.start], src := afterTwo.src } ∧
      { State.reset with inputs := [HostIn.start], src := afterTwo.src }.inputs = [.start] ∧
      (streamCodes afterTwo.src).1.length + 2 ≤ 6 ∧ refDecode [] = ([], .error .invalidFormat) :=
  ⟨rfl, ⟨rfl, rfl, rfl, rfl⟩, rfl, by decide, rfl⟩

/-- After RD.INIT alone the reader has a PHASE and no SPOS; a failed read there is ReadError at whatever offset. -/
theorem witness_ReadWithoutSposIsFree :
    (rdInit State.reset).spos = none ∧
      nextIs (exec .rdCode { rdInit State.reset with srcAns := [.fail 9], spos := some 7 }) (fun t => t.err == .error .read) =
        true ∧
      nextIs (exec .rdCode { rdInit State.reset with srcAns := [.fail 9] }) (fun t =>
        t.err == .error .read && t.draws == 1) = true := by decide

/-- ODD without a value in PEND, each of its answers (only a code needs the byte), and STEADY without PREV. -/
theorem witness_AbsentOperandsAreFree :
    { afterThree with pend := none }.pend = none ∧
      nextIs (exec .rdOdd { afterThree with draws := 1, src := [] }) (fun t => t.ret == .noCode) = true ∧
      nextIs (exec .rdOdd { afterThree with draws := 1 }) (fun t => t.ret == .code 258#12) = true ∧
      nextIs (exec .rdOdd { afterThree with draws := 1, srcAns := [.fail 0] }) (fun t => t.mode == .done) = true ∧
      { afterTwo with prev := none }.mode = .steady ∧ { afterTwo with prev := none }.prev = none ∧
      HitRow (.decHitRef 256#12) 256#12 := ⟨rfl, by decide, by decide, by decide, rfl, rfl, rfl, by decide⟩

/-- NEXT at the capacity and below it. -/
theorem witness_ResetRunsAtEveryNext : full.next = some 4096#13 ∧ afterTwo.next = some 257#13 := ⟨rfl, rfl⟩

/-- A state for each clause. -/
theorem witness_StopsOutsidePreconditions :
    (State.reset.next = none ∧ 256 ≤ (256#12).toNat) ∧ State.reset.mode ≠ .boot ∧ afterTwo.mode ≠ .boot ∧
      (booted []).mode ≠ .steady ∧ HitRow (.decHitLit 65#8) 65#12 ∧ State.reset.busy = false :=
  ⟨⟨rfl, by decide⟩, by decide, by decide, by decide, rfl, rfl⟩

end Sys2Proof.Tests
end

section
/-! The alphabet (10_state.md R22): no instruction discards ENT[0..255] once DICT.INIT has set them. -/

namespace Sys2Proof.Machine

/-! ## What every end of an operation meets -/

/-- Whichever way the operation ends, with a value or raising, the state it leaves meets P. -/
def Res.EndsIn {α : Type} (P : State → Prop) : Res α → Prop
  | .ok _ s => P s
  | .raise _ s => P s
  | .stuck _ => True

theorem Res.endsIn_iff {α : Type} {P : State → Prop} {x : Res α} :
    x.EndsIn P ↔ (∀ a t, x = .ok a t → P t) ∧ ∀ e t, x = .raise e t → P t := by
  cases x <;> simp [Res.EndsIn]

theorem Res.endsIn_stuck {α : Type} {P : State → Prop} (g : Fault) : (Res.stuck g : Res α).EndsIn P := trivial

theorem Res.EndsIn.andThen {α β : Type} {P : State → Prop} {x : Res α} {f : α → State → Res β}
    (hx : x.EndsIn P) (hf : ∀ a s, P s → (f a s).EndsIn P) : (x.andThen f).EndsIn P := by
  cases x with
  | ok a s => exact hf a s hx
  | raise e s => exact hx
  | stuck g => exact Res.endsIn_stuck g

theorem Res.EndsIn.ite {α : Type} {P : State → Prop} {c : Prop} [Decidable c] {x y : Res α} (hx : x.EndsIn P)
    (hy : y.EndsIn P) : (if c then x else y).EndsIn P := by
  split
  · exact hx
  · exact hy

/-- As an instruction, an operation keeps what its ends meet, if neither `ret` nor Finish matters to it. -/
theorem Res.EndsIn.outcome {α : Type} {P : State → Prop} {ret : α → Ret} {x : Res α} {t : State}
    (hx : x.EndsIn P) (hret : ∀ s r, P s → P { s with ret := r }) (hfinish : ∀ s e, P s → P (s.finish (.error e)))
    (h : x.outcome ret = .next t) : P t := by
  obtain ⟨hok, hraise⟩ := Res.endsIn_iff.1 hx
  obtain ⟨a, s, hs, rfl⟩ | ⟨e, s, hs, rfl⟩ := Res.outcome_next.1 h
  · exact hret _ _ (hok a s hs)
  · exact hfinish _ _ (hraise e s hs)

/-! ## The alphabet is set -/

/-- ENT[0..255] hold their values (R22). -/
def AlphabetSet (s : State) : Prop := s.seeded = true

theorem entry_literal_iff (s : State) (b : Byte) :
    s.entry (literalCode b) = some (single b) ↔ AlphabetSet s := by
  simp [State.entry, AlphabetSet]

theorem alphabetSet_of_dictInv {n : Next} {s : State} (h : DictInv n s) : AlphabetSet s := by
  obtain ⟨-, -, -, hset, -⟩ := h
  exact hset

/-- In a session the alphabet is set: START has run DICT.INIT (R141). -/
theorem alphabetSet_of_busy {s : State} (h : BlockInv s) (hb : s.busy = true) : AlphabetSet s := by
  unfold BlockInv at h
  cases hm : s.mode with
  | idle => simp [State.busy, modeBusy, hm] at hb
  | boot =>
    simp only [hm] at h
    exact alphabetSet_of_dictInv h.1
  | steady =>
    simp only [hm] at h
    obtain ⟨⟨n, hn⟩, -⟩ := h
    exact alphabetSet_of_dictInv hn
  | done => simp [State.busy, modeBusy, hm] at hb

theorem alphabetSet_of_outcome {α : Type} {ret : α → Ret} {x : Res α} {t : State} (hx : x.EndsIn AlphabetSet)
    (h : x.outcome ret = .next t) : AlphabetSet t :=
  hx.outcome (fun _ _ hs => hs) (fun _ _ hs => hs) h

/-! ## Every operation keeps it -/

section Operations

variable {s : State} (hs : AlphabetSet s)
include hs

theorem dictInit_keeps_alphabet (w : Nat) : (dictInit w s).EndsIn AlphabetSet := by
  refine Res.endsIn_iff.2 ⟨fun a t h => ?_, fun e t h => ?_⟩
  · obtain ⟨-, -, rfl⟩ := dictInit_ok.1 h
    rfl
  · obtain ⟨-, -, -, rfl⟩ := dictInit_raise.1 h
    exact hs

theorem dictContains_keeps_alphabet (c : Code) : (dictContains c s).EndsIn AlphabetSet := by
  refine Res.endsIn_iff.2 ⟨fun a t h => ?_, fun e t h => absurd h dictContains_not_raise⟩
  obtain ⟨rfl, -⟩ := dictContains_ok.1 h
  exact hs

theorem dictGet_keeps_alphabet (c : Code) : (dictGet c s).EndsIn AlphabetSet := by
  refine Res.endsIn_iff.2 ⟨fun a t h => ?_, fun e t h => absurd h dictGet_not_raise⟩
  obtain ⟨rfl, -⟩ := dictGet_ok.1 h
  exact hs

theorem dictAdd_keeps_alphabet (p : Phrase) : (dictAdd p s).EndsIn AlphabetSet := by
  refine Res.endsIn_iff.2 ⟨fun a t h => ?_, fun e t h => ?_⟩
  · obtain ⟨_, _, rfl⟩ := dictAdd_frame h
    exact hs
  · obtain ⟨-, _, _, _, rfl⟩ := dictAdd_raise h
    exact hs

theorem dictReset_keeps_alphabet : (dictReset s).EndsIn AlphabetSet := by
  refine Res.endsIn_iff.2 ⟨fun a t h => ?_, fun e t h => absurd h dictReset_not_raise⟩
  obtain ⟨-, rfl⟩ := dictReset_ok.1 h
  exact hs

theorem rdEven_keeps_alphabet : (rdEven s).EndsIn AlphabetSet := by
  obtain ⟨_, _, _, _, _, he, -⟩ | ⟨_, _, he⟩ := rdEven_spec s <;> rw [he] <;> exact hs

theorem rdOdd_keeps_alphabet : (rdOdd s).EndsIn AlphabetSet := by
  obtain ⟨_, _, _, _, _, he, -⟩ | ⟨_, _, he⟩ := rdOdd_spec s <;> rw [he] <;> exact hs

theorem rdCode_keeps_alphabet : (rdCode s).EndsIn AlphabetSet := by
  obtain ⟨_, _, _, _, _, he, -⟩ | ⟨_, _, he⟩ := rdCode_spec s <;> rw [he] <;> exact hs

theorem snkWrite_keeps_alphabet (p : Phrase) : (snkWrite p s).EndsIn AlphabetSet := by
  refine Res.endsIn_iff.2 ⟨fun a t h => ?_, fun e t h => ?_⟩
  · obtain ⟨-, rfl⟩ := snkWrite_ok.1 h
    exact hs
  · obtain ⟨-, -, rfl⟩ := snkWrite_raise.1 h
    exact hs

theorem decBoot_keeps_alphabet (r : Option Code) : (decBoot r s).EndsIn AlphabetSet := by
  refine Res.endsIn_iff.2 ⟨fun a t h => ?_, fun e t h => ?_⟩
  · obtain ⟨-, _, -, -, rfl⟩ := decBoot_ok h
    exact hs
  · obtain ⟨-, ⟨-, rfl, -⟩ | ⟨_, -, -, -, -, rfl⟩⟩ := decBoot_raise h <;> exact hs

theorem hitBody_keeps_alphabet (q : Phrase) (c : Code) : (hitBody q c s).EndsIn AlphabetSet :=
  (dictGet_keeps_alphabet hs c).andThen fun found _ h₁ =>
    match found with
    | none => Res.endsIn_stuck _
    | some e => (snkWrite_keeps_alphabet h₁ e).andThen fun _ _ h₂ =>
      (dictAdd_keeps_alphabet h₂ (hitPhrase q e)).andThen fun _ _ h₃ => h₃

theorem kwkBody_keeps_alphabet (q : Phrase) (c : Code) : (kwkBody q c s).EndsIn AlphabetSet :=
  (dictContains_keeps_alphabet hs c).andThen fun hit _ h₁ =>
    match hit with
    | true => Res.endsIn_stuck _
    | false => (dictAdd_keeps_alphabet h₁ (kwkPhrase q)).andThen fun _ _ h₂ =>
      (snkWrite_keeps_alphabet h₂ (kwkPhrase q)).andThen fun _ _ h₃ => h₃

theorem decHit_keeps_alphabet (c : Code) : (decHit c s).EndsIn AlphabetSet := by
  by_cases hm : s.mode = .steady
  · obtain ⟨q, d, he, -⟩ := decHit_steady (c := c) hm
    rw [he]
    exact hitBody_keeps_alphabet (s := { s with draws := d }) hs q c
  · rw [decHit_wrongMode hm]
    exact Res.endsIn_stuck _

theorem decKwk_keeps_alphabet (c : Code) : (decKwk c s).EndsIn AlphabetSet := by
  by_cases hm : s.mode = .steady
  · obtain ⟨q, d, he, -⟩ := decKwk_steady (c := c) hm
    rw [he]
    exact kwkBody_keeps_alphabet (s := { s with draws := d }) hs q c
  · rw [decKwk_wrongMode hm]
    exact Res.endsIn_stuck _

theorem startSession_keeps_alphabet : (startSession s).EndsIn AlphabetSet :=
  (dictInit_keeps_alphabet (s := startRegs s) hs Config.codeWidth).andThen fun _ _ h₁ => h₁

/-- No instruction discards the alphabet. -/
theorem exec_keeps_alphabet {i : Instr} {t : State} (h : exec i s = .next t) : AlphabetSet t := by
  cases i with
  | decBoot b => exact alphabetSet_of_outcome (decBoot_keeps_alphabet hs _) h
  | decBootInvalid c => exact alphabetSet_of_outcome (.ite (Res.endsIn_stuck _) (decBoot_keeps_alphabet hs _)) h
  | decBootEmpty => exact alphabetSet_of_outcome (decBoot_keeps_alphabet hs _) h
  | decHitLit b => exact alphabetSet_of_outcome (decHit_keeps_alphabet hs _) h
  | decHitRef c => exact alphabetSet_of_outcome (.ite (Res.endsIn_stuck _) (decHit_keeps_alphabet hs c)) h
  | decKwk c => exact alphabetSet_of_outcome (decKwk_keeps_alphabet hs c) h
  | decEnd => exact alphabetSet_of_outcome (.ite (x := .ok () (s.finish .ok)) hs (Res.endsIn_stuck _)) h
  | decAbort e =>
    have habort : (if e.ofBlock then Res.raise e s else .stuck .notOfBlock : Res Unit).EndsIn AlphabetSet :=
      .ite hs (Res.endsIn_stuck _)
    exact alphabetSet_of_outcome (.ite (Res.endsIn_stuck _) habort) h
  | rdInit => exact alphabetSet_of_outcome (x := .ok () (rdInit s)) hs h
  | rdCode => exact alphabetSet_of_outcome (rdCode_keeps_alphabet hs) h
  | rdEven => exact alphabetSet_of_outcome (rdEven_keeps_alphabet hs) h
  | rdOdd => exact alphabetSet_of_outcome (rdOdd_keeps_alphabet hs) h
  | dictInit width => exact alphabetSet_of_outcome (dictInit_keeps_alphabet hs width) h
  | dictContains c => exact alphabetSet_of_outcome (dictContains_keeps_alphabet hs c) h
  | dictGet c => exact alphabetSet_of_outcome (dictGet_keeps_alphabet hs c) h
  | dictAdd p => exact alphabetSet_of_outcome (dictAdd_keeps_alphabet hs p) h
  | dictReset => exact alphabetSet_of_outcome (dictReset_keeps_alphabet hs) h
  | dictFree => exact alphabetSet_of_outcome (x := .ok () s.freeDict) hs h
  | snkWrite p => exact alphabetSet_of_outcome (snkWrite_keeps_alphabet hs p) h
  | start =>
    simp only [exec, execStart] at h
    split at h
    · cases h
      exact hs
    · exact alphabetSet_of_outcome (startSession_keeps_alphabet hs) h

end Operations

/-- Settles O24: the alphabet is one fact about the state, which the invariant gives in a session and every operation
keeps. -/
theorem alphabetIsFixed : Obligations.AlphabetIsFixed := by
  unfold Obligations.AlphabetIsFixed
  refine ⟨fun b => rfl, fun s b hinv hb => ?_, fun i s t b h hset => ?_⟩
  · exact (entry_literal_iff s b).2 (alphabetSet_of_busy hinv hb)
  · rw [entry_literal_iff] at hset ⊢
    exact exec_keeps_alphabet hset h

end Sys2Proof.Machine
end

section
/-! The assembly of codes as numbers (30_encoding.md R83): two fields laid side by side are their weighted sum. -/

namespace Sys2Proof

/-- Where the shift loses no high bit and the low field stays below it, no two set bits meet: "or" adds. -/
theorem toNat_shiftLeft_or {w k : Nat} {hi lo : BitVec w} (hhi : hi.toNat * 2 ^ k < 2 ^ w) (hlo : lo.toNat < 2 ^ k) :
    (hi <<< k ||| lo).toNat = hi.toNat * 2 ^ k + lo.toNat := by
  rw [BitVec.toNat_or, BitVec.toNat_shiftLeft, Nat.shiftLeft_eq, Nat.mod_eq_of_lt hhi, ← Nat.shiftLeft_eq,
    Nat.shiftLeft_add_eq_or_of_lt hlo]

theorem assembleEven_toNat (b0 b1 : Byte) : (assembleEven b0 b1).toNat = b0.toNat * 16 + b1.toNat / 16 := by
  have hb0 : (b0.setWidth 12).toNat = b0.toNat := BitVec.toNat_setWidth_of_le (by decide)
  have hb1 : ((b1.extractLsb' 4 4).setWidth 12).toNat = b1.toNat / 16 := by
    have := b1.isLt
    rw [BitVec.toNat_setWidth_of_le (by decide), BitVec.extractLsb'_toNat, Nat.shiftRight_eq_div_pow]; omega
  rw [assembleEven, toNat_shiftLeft_or (by omega) (by omega), hb0, hb1]
  simp only [Nat.reducePow]

theorem assembleOdd_toNat (pend b2 : Byte) : (assembleOdd pend b2).toNat = pend.toNat % 16 * 256 + b2.toNat := by
  have hpend : ((pend.extractLsb' 0 4).setWidth 12).toNat = pend.toNat % 16 := by
    rw [BitVec.toNat_setWidth_of_le (by decide), BitVec.extractLsb'_toNat, Nat.shiftRight_zero]
  have hb2 : (b2.setWidth 12).toNat = b2.toNat := BitVec.toNat_setWidth_of_le (by decide)
  rw [assembleOdd, toNat_shiftLeft_or (by omega) (by omega), hpend, hb2]
  simp only [Nat.reducePow]

/-- Settles O2: each formula is the sum of its two fields, which share no bit. -/
theorem assemblyFormulas : Obligations.AssemblyFormulas := by
  unfold Obligations.AssemblyFormulas
  exact fun b0 b1 pend b2 => ⟨assembleEven_toNat b0 b1, assembleOdd_toNat pend b2⟩

end Sys2Proof
end

section
/-! What stays true wherever an instruction ends (42_decode_loop.md R147): a session has one exit, Finish. -/

namespace Sys2Proof.Machine

/-- P survives everything an operation other than DICT.INIT, START and Finish may do to the state: a read, a change of
the dynamic entries, a write, a new PREV, and the entry into STEADY. -/
structure StableUnderOps (P : State → Prop) : Prop where
  read : ∀ {u : State} a j d p ph, P u → P { u with srcAns := a, spos := j, draws := d, pend := p, phase := ph }
  dict : ∀ {u : State} l m n, P u → P { u with allocAns := l, ent := m, next := n }
  sink : ∀ {u : State} l ys, P u → P { u with sinkAns := l, out := u.out ++ ys }
  prev : ∀ {u : State} q, P u → P { u with prev := q }
  steady : ∀ {u : State}, P u → P { u with mode := .steady }

/-! ## Every operation keeps it -/

section Operations

variable {P : State → Prop} {s : State} (hs : P s)
include hs

theorem dictContains_endsIn (c : Code) : (dictContains c s).EndsIn P := by
  refine Res.endsIn_iff.2 ⟨fun b t h => ?_, fun e t h => absurd h dictContains_not_raise⟩
  obtain ⟨rfl, -⟩ := dictContains_ok.1 h
  exact hs

theorem dictGet_endsIn (c : Code) : (dictGet c s).EndsIn P := by
  refine Res.endsIn_iff.2 ⟨fun r t h => ?_, fun e t h => absurd h dictGet_not_raise⟩
  obtain ⟨rfl, -⟩ := dictGet_ok.1 h
  exact hs

variable (hP : StableUnderOps P)
include hP

theorem dictAdd_endsIn (p : Phrase) : (dictAdd p s).EndsIn P := by
  refine Res.endsIn_iff.2 ⟨fun r t h => ?_, fun e t h => ?_⟩
  · obtain ⟨m, n, rfl⟩ := dictAdd_frame h
    exact hP.dict _ _ _ hs
  · obtain ⟨-, l, m, n, rfl⟩ := dictAdd_raise h
    exact hP.dict _ _ _ hs

theorem dictReset_endsIn : (dictReset s).EndsIn P := by
  refine Res.endsIn_iff.2 ⟨fun a t h => ?_, fun e t h => absurd h dictReset_not_raise⟩
  obtain ⟨-, rfl⟩ := dictReset_ok.1 h
  exact hP.dict _ _ _ hs

theorem rdEven_endsIn : (rdEven s).EndsIn P := by
  obtain ⟨r, j, d, p, ph, he, -⟩ | ⟨j, d, he⟩ := rdEven_spec s <;> rw [he] <;> exact hP.read _ _ _ _ _ hs

theorem rdOdd_endsIn : (rdOdd s).EndsIn P := by
  obtain ⟨r, j, d, p, ph, he, -⟩ | ⟨j, d, he⟩ := rdOdd_spec s <;> rw [he] <;> exact hP.read _ _ _ _ _ hs

theorem rdCode_endsIn : (rdCode s).EndsIn P := by
  obtain ⟨r, j, d, p, ph, he, -⟩ | ⟨j, d, he⟩ := rdCode_spec s <;> rw [he] <;> exact hP.read _ _ _ _ _ hs

theorem snkWrite_endsIn (p : Phrase) : (snkWrite p s).EndsIn P := by
  have hput : P (sinkPut p s).2 := hP.sink _ _ hs
  refine Res.endsIn_iff.2 ⟨fun a t h => ?_, fun e t h => ?_⟩
  · obtain ⟨-, rfl⟩ := snkWrite_ok.1 h
    exact hput
  · obtain ⟨-, -, rfl⟩ := snkWrite_raise.1 h
    exact hput

theorem decBoot_endsIn (r : Option Code) : (decBoot r s).EndsIn P := by
  refine Res.endsIn_iff.2 ⟨fun a t h => ?_, fun e t h => ?_⟩
  · obtain ⟨-, c, -, -, rfl⟩ := decBoot_ok h
    exact hP.steady (hP.prev _ (hP.sink _ _ hs))
  · obtain ⟨-, ⟨-, rfl, -⟩ | ⟨c, -, -, -, -, rfl⟩⟩ := decBoot_raise h
    · exact hs
    · exact hP.sink _ _ hs

theorem hitBody_endsIn (q : Phrase) (c : Code) : (hitBody q c s).EndsIn P :=
  (dictGet_endsIn hs c).andThen fun found _ h₁ =>
    match found with
    | none => Res.endsIn_stuck _
    | some e => (snkWrite_endsIn h₁ hP e).andThen fun _ _ h₂ =>
      (dictAdd_endsIn h₂ hP (hitPhrase q e)).andThen fun _ _ h₃ => hP.prev _ h₃

theorem kwkBody_endsIn (q : Phrase) (c : Code) : (kwkBody q c s).EndsIn P :=
  (dictContains_endsIn hs c).andThen fun hit _ h₁ =>
    match hit with
    | true => Res.endsIn_stuck _
    | false => (dictAdd_endsIn h₁ hP (kwkPhrase q)).andThen fun _ _ h₂ =>
      (snkWrite_endsIn h₂ hP (kwkPhrase q)).andThen fun _ _ h₃ => hP.prev _ h₃

theorem decHit_endsIn (c : Code) : (decHit c s).EndsIn P := by
  by_cases hm : s.mode = .steady
  · obtain ⟨q, d, he, -⟩ := decHit_steady (c := c) hm
    rw [he]
    exact hitBody_endsIn (hP.read _ _ d _ _ hs) hP q c
  · rw [decHit_wrongMode hm]
    exact Res.endsIn_stuck _

theorem decKwk_endsIn (c : Code) : (decKwk c s).EndsIn P := by
  by_cases hm : s.mode = .steady
  · obtain ⟨q, d, he, -⟩ := decKwk_steady (c := c) hm
    rw [he]
    exact kwkBody_endsIn (hP.read _ _ d _ _ hs) hP q c
  · rw [decKwk_wrongMode hm]
    exact Res.endsIn_stuck _

end Operations

/-! ## How an instruction ends -/

/-- t is a state that meets P, with an answer in `ret`, or what Finish makes of such a state. -/
def EndsOrFinishes (P : State → Prop) (t : State) : Prop :=
  ∃ u, P u ∧ ((∃ r, t = { u with ret := r }) ∨ ∃ x, t = u.finish x)

theorem Res.EndsIn.endsOrFinishes {α : Type} {P : State → Prop} {ret : α → Ret} {x : Res α} {t : State}
    (hx : x.EndsIn P) (h : x.outcome ret = .next t) : EndsOrFinishes P t := by
  obtain ⟨hok, hraise⟩ := Res.endsIn_iff.1 hx
  obtain ⟨a, u, hu, rfl⟩ | ⟨e, u, hu, rfl⟩ := Res.outcome_next.1 h
  · exact ⟨u, hok a u hu, .inl ⟨_, rfl⟩⟩
  · exact ⟨u, hraise e u hu, .inr ⟨_, rfl⟩⟩

/-- Every instruction but DICT.INIT and START, which set up a dictionary, keeps P up to its answer, or ends the session
by Finish. -/
theorem exec_endsOrFinishes {P : State → Prop} {i : Instr} {s t : State} (hP : StableUnderOps P) (hs : P s)
    (hinit : ∀ w, i ≠ .dictInit w) (hstart : i ≠ .start) (h : exec i s = .next t) : EndsOrFinishes P t := by
  cases i with
  | decBoot b => exact (decBoot_endsIn hs hP _).endsOrFinishes h
  | decBootInvalid c => exact (Res.EndsIn.ite (Res.endsIn_stuck _) (decBoot_endsIn hs hP _)).endsOrFinishes h
  | decBootEmpty => exact (decBoot_endsIn hs hP _).endsOrFinishes h
  | decHitLit b => exact (decHit_endsIn hs hP _).endsOrFinishes h
  | decHitRef c => exact (Res.EndsIn.ite (Res.endsIn_stuck _) (decHit_endsIn hs hP c)).endsOrFinishes h
  | decKwk c => exact (decKwk_endsIn hs hP c).endsOrFinishes h
  | decEnd =>
    simp only [exec, execDecEnd] at h
    split at h
    · cases h
      exact ⟨s, hs, .inr ⟨.ok, rfl⟩⟩
    · cases h
  | decAbort e =>
    have habort : (if e.ofBlock then Res.raise e s else .stuck .notOfBlock : Res Unit).EndsIn P :=
      .ite hs (Res.endsIn_stuck _)
    exact (Res.EndsIn.ite (Res.endsIn_stuck _) habort).endsOrFinishes h
  | rdInit =>
    have hread : P (rdInit s) := hP.read _ _ _ _ _ hs
    exact Res.EndsIn.endsOrFinishes (x := .ok () (rdInit s)) hread h
  | rdCode => exact (rdCode_endsIn hs hP).endsOrFinishes h
  | rdEven => exact (rdEven_endsIn hs hP).endsOrFinishes h
  | rdOdd => exact (rdOdd_endsIn hs hP).endsOrFinishes h
  | dictInit w => exact absurd rfl (hinit w)
  | dictContains c => exact (dictContains_endsIn hs c).endsOrFinishes h
  | dictGet c => exact (dictGet_endsIn hs c).endsOrFinishes h
  | dictAdd p => exact (dictAdd_endsIn hs hP p).endsOrFinishes h
  | dictReset => exact (dictReset_endsIn hs hP).endsOrFinishes h
  | dictFree =>
    have hfree : P s.freeDict := hP.dict _ _ _ hs
    exact Res.EndsIn.endsOrFinishes (x := .ok () s.freeDict) hfree h
  | snkWrite p => exact (snkWrite_endsIn hs hP p).endsOrFinishes h
  | start => exact absurd rfl hstart

/-! ## The single exit -/

/-- No session has ended, and the alphabet is set or not as b says. -/
def RunningWith (b : Bool) (u : State) : Prop := u.mode ≠ .done ∧ u.seeded = b

theorem runningWith_stable (b : Bool) : StableUnderOps (RunningWith b) where
  read _ _ _ _ _ h := h
  dict _ _ _ h := h
  sink _ _ h := h
  prev _ h := h
  steady h := ⟨nofun, h.2⟩

/-- DICT.INIT does not end a session but by raising. -/
theorem dictInit_done {w : Nat} {s t : State} (h : exec (.dictInit w) s = .next t) (hs : s.mode ≠ .done)
    (ht : t.mode = .done) : t = s.afterAlloc.finish (.error .allocation) := by
  obtain ⟨a, u, hu, rfl⟩ | ⟨e, u, hu, rfl⟩ := Res.outcome_next.1 h
  · obtain ⟨-, -, rfl⟩ := dictInit_ok.1 hu
    exact absurd ht hs
  · obtain ⟨-, -, rfl, rfl⟩ := dictInit_raise.1 hu
    rfl

/-- START does not end a session but by raising. -/
theorem start_done {s t : State} (h : exec .start s = .next t) (hs : s.mode ≠ .done) (ht : t.mode = .done) :
    t = (startRegs s).afterAlloc.finish (.error .allocation) := by
  simp only [exec, execStart] at h
  split at h
  · cases h
    exact absurd ht hs
  · obtain ⟨a, u, hu, rfl⟩ | ⟨e, u, hu, rfl⟩ := Res.outcome_next.1 h
    · obtain ⟨-, rfl⟩ := startSession_ok hu
      simp at ht
    · obtain ⟨-, rfl, rfl⟩ := startSession_raise hu
      rfl

/-- Whatever instruction ends a session ends it by Finish, from a state with the alphabet it found. -/
theorem exec_done_finish {i : Instr} {s t : State} (h : exec i s = .next t) (hs : s.mode ≠ .done)
    (ht : t.mode = .done) : ∃ (u : State) (x : Result), u.seeded = s.seeded ∧ t = u.finish x := by
  by_cases hinit : ∃ w, i = .dictInit w
  · obtain ⟨w, rfl⟩ := hinit
    exact ⟨s.afterAlloc, _, rfl, dictInit_done h hs ht⟩
  by_cases hstart : i = .start
  · subst hstart
    exact ⟨(startRegs s).afterAlloc, _, rfl, start_done h hs ht⟩
  obtain ⟨u, ⟨hmode, hset⟩, ⟨r, rfl⟩ | ⟨x, rfl⟩⟩ :=
    exec_endsOrFinishes (runningWith_stable s.seeded) ⟨hs, rfl⟩ (not_exists.1 hinit) hstart h
  · exact absurd ht hmode
  · exact ⟨u, x, hset, rfl⟩

end Sys2Proof.Machine
end

section
/-! The Dictionary's CONTAINS, RESET and FREE (40_dictionary.md R101, R104, R105). -/

namespace Sys2Proof.Machine

/-! ## The entries -/

theorem isHit_eq_decide (c : Code) (n : Next) : isHit c n = decide (c.toNat < n.toNat) := by
  rw [Bool.eq_iff_iff, isHit_iff, decide_eq_true_iff]

/-- With nothing listed in the table no dynamic code has an entry. -/
theorem entry_dynamic_of_ent_nil {s : State} (h : s.ent = []) {c : Code} (hc : 256 ≤ c.toNat) : s.entry c = none := by
  simp [State.entry, isLiteral_false hc, h]

/-- The alphabet's entries depend only on whether DICT.INIT has set them. -/
theorem entry_literal_congr {s t : State} (h : t.seeded = s.seeded) (b : Byte) :
    t.entry (literalCode b) = s.entry (literalCode b) := by
  simp [State.entry, h]

/-! ## The operations as instructions -/

theorem exec_dictContains_of_ok {c : Code} {s : State} {b : Bool} (h : dictContains c s = .ok b s) :
    exec (.dictContains c) s = .next { s with ret := .bit b } :=
  Res.outcome_next.2 (.inl ⟨b, s, h, rfl⟩)

theorem exec_dictReset_of_next {s : State} {n : Next} (h : s.next = some n) :
    exec .dictReset s = .next { s.clearDynamic with ret := .unit } :=
  Res.outcome_next.2 (.inl ⟨(), s.clearDynamic, dictReset_ok.2 ⟨⟨n, h⟩, rfl⟩, rfl⟩)

theorem exec_dictFree (s : State) : exec .dictFree s = .next { s.freeDict with ret := .unit } := rfl

/-! ## The statements -/

/-- Settles O15: a literal is below NEXT, which R25 keeps at 256 or above, so both answers are the comparison. -/
theorem containsComparesWithNext : Obligations.ContainsComparesWithNext := by
  unfold Obligations.ContainsComparesWithNext
  refine fun s c => ⟨fun hc => ?_, fun n hn hl => ?_⟩
  · exact exec_dictContains_of_ok (dictContains_ok.2 ⟨rfl, .inl ⟨(isLiteral_iff c).2 (by omega), rfl⟩⟩)
  · refine exec_dictContains_of_ok (dictContains_ok.2 ⟨rfl, ?_⟩)
    cases hc : isLiteral c with
    | true =>
      have hlt : c.toNat < 256 := (isLiteral_iff c).1 hc
      exact .inl ⟨rfl, (decide_eq_true (by omega)).symm⟩
    | false => exact .inr ⟨rfl, n, hn, isHit_eq_decide c n⟩

/-- Settles O20: RESET empties the table; the alphabet, which lies outside it, does not change. -/
theorem resetDiscardsDynamicEntries : Obligations.ResetDiscardsDynamicEntries := by
  unfold Obligations.ResetDiscardsDynamicEntries
  exact fun s hn => ⟨_, exec_dictReset_of_next hn, rfl, fun _ => entry_dynamic_of_ent_nil rfl,
    entry_literal_congr rfl, rfl⟩

/-- Settles O21: FREE empties the table and NEXT, and every exit goes through Finish, which frees. -/
theorem freeReleasesDynamicEntries : Obligations.FreeReleasesDynamicEntries := by
  unfold Obligations.FreeReleasesDynamicEntries
  refine ⟨fun s => ?_, fun i s t h hs ht => ?_⟩
  · exact ⟨_, exec_dictFree s, rfl, fun _ => entry_dynamic_of_ent_nil rfl, entry_literal_congr rfl, rfl⟩
  · obtain ⟨u, x, hset, rfl⟩ := exec_done_finish h hs ht
    exact ⟨rfl, fun _ => entry_dynamic_of_ent_nil rfl, entry_literal_congr hset⟩

end Sys2Proof.Machine
end

section
/-! The Code Reader's INIT (41_code_reader.md R120). -/

namespace Sys2Proof.Machine

/-! ## The operations as instructions -/

theorem exec_rdInit (s : State) : exec .rdInit s = .next { rdInit s with ret := .unit } := rfl

/-- In EVEN, `RD.CODE` is the even read (R123). -/
theorem exec_rdCode_of_even {s : State} (h : s.phase = some .even) : exec .rdCode s = exec .rdEven s :=
  congrArg (Res.outcome readValue) (rdCode_even h)

/-! ## The statement -/

/-- Settles O25: after INIT the phase is EVEN, and there RD.CODE is the even read. -/
theorem readerInitSetsEven : Obligations.ReaderInitSetsEven := by
  unfold Obligations.ReaderInitSetsEven
  refine ⟨exec_rdInit, fun s t h => ?_⟩
  rw [exec_rdInit] at h
  cases h
  exact exec_rdCode_of_even (rdInit_phase s)

end Sys2Proof.Machine
end

section
/-! The Dictionary's ADD by its answer to the storage request (40_dictionary.md R103, R108). -/

namespace Sys2Proof.Machine

/-- With storage for the phrase the addition is made; its answer and the table it leaves depend on NEXT and on the
entries alone. -/
theorem dictAdd_granted {p : Phrase} {n : Next} (h1 : 256 ≤ n.toNat) (h2 : n.toNat ≤ 4096) (ent : Memory) :
    ∃ r m k, ∀ s : State, s.next = some n → s.ent = ent → StorageFor p.bytes.length s →
      dictAdd p s = .ok r { s with allocAns := s.allocAns.tail, ent := m, next := some k } := by
  rcases Nat.lt_or_eq_of_le h2 with hroom | hfull
  · refine ⟨(codeAt n, p), Memory.write ent n.toNat p, n + 1#13, fun s hn he ⟨hlen, hgrant⟩ => ?_⟩
    rw [dictAdd_room hn h1 hroom, dictStore_granted hlen hgrant, he]
    rfl
  · refine ⟨(codeAt Config.firstCode, p), Memory.write [] Config.firstCode.toNat p, Config.firstCode + 1#13,
      fun s hn _ ⟨hlen, hgrant⟩ => ?_⟩
    rw [dictAdd_full hn hfull]
    exact dictStore_granted (s := s.clearDynamic) hlen hgrant

/-- Without storage nothing is stored. -/
theorem dictStore_refused {p : Phrase} {n : Next} {s : State} (h : ¬StorageFor p.bytes.length s) :
    ∃ l, dictStore p n s = .raise .allocation { s with allocAns := l } := by
  cases hlen : s.tooLong p.bytes.length with
  | true => exact ⟨_, dictStore_raise.2 ⟨rfl, .inl ⟨hlen, rfl⟩⟩⟩
  | false =>
    have hgrant : allocAnswer s = false := Bool.eq_false_iff.2 fun hg => h ⟨hlen, hg⟩
    exact ⟨_, dictStore_raise.2 ⟨rfl, .inr ⟨hlen, hgrant, rfl⟩⟩⟩

/-- Without storage for the phrase the addition raises, after the reset if NEXT was at the capacity. -/
theorem dictAdd_refused {p : Phrase} {n : Next} {s : State} (hn : s.next = some n) (h1 : 256 ≤ n.toNat)
    (h2 : n.toNat ≤ 4096) (h : ¬StorageFor p.bytes.length s) :
    ∃ l m k, dictAdd p s = .raise .allocation { s with allocAns := l, ent := m, next := k } := by
  rcases Nat.lt_or_eq_of_le h2 with hroom | hfull
  · obtain ⟨l, hraise⟩ := dictStore_refused (n := n) h
    exact ⟨l, _, _, (dictAdd_room hn h1 hroom).trans hraise⟩
  · obtain ⟨l, hraise⟩ := dictStore_refused (s := s.clearDynamic) (n := Config.firstCode) h
    exact ⟨l, _, _, (dictAdd_full hn hfull).trans hraise⟩

end Sys2Proof.Machine
end

section
/-! The Decode Loop's HIT (42_decode_loop.md R144). -/

namespace Sys2Proof.Machine

/-! ## The phrase write by the sink's answer -/

theorem snkWrite_taken {p : Phrase} {s : State} (h : SinkTakes p.bytes.length s) :
    snkWrite p s = .ok () { s with sinkAns := s.sinkAns.tail, out := s.out ++ p.bytes } :=
  snkWrite_ok.2 ⟨h, sinkPut_full h⟩

/-- A write the sink does not take whole raises with a part of the phrase in OUT. -/
theorem snkWrite_failed {p : Phrase} {s : State} (h : ¬SinkTakes p.bytes.length s) :
    ∃ k, snkWrite p s = .raise .write { s with sinkAns := s.sinkAns.tail, out := s.out ++ p.bytes.take k } := by
  obtain ⟨k, -, -, hput⟩ := sinkPut_spec p s
  exact ⟨k, snkWrite_raise.2 ⟨Bool.eq_false_iff.2 h, rfl, hput⟩⟩

/-! ## The hit as an instruction -/

/-- Both rows of a hit are the same step on their code. -/
theorem exec_hitRow {i : Instr} {c : Code} (h : HitRow i c) (s : State) :
    exec i s = (decHit c s).outcome noValue := by
  cases i with
  | decHitLit b =>
    obtain rfl := h
    rfl
  | decHitRef d =>
    obtain ⟨rfl, hd⟩ := h
    simp [exec, execDecHitRef, isLiteral_false hd]
  | _ => exact h.elim

theorem dictGet_entry {c : Code} {n : Next} {s : State} {e : Phrase} (hn : s.next = some n)
    (hc : c.toNat < n.toNat) (he : s.entry c = some e) : dictGet c s = .ok (some e) s :=
  dictGet_ok.2 ⟨rfl, .inl ⟨.inr ⟨n, hn, (isHit_iff c n).2 hc⟩, e, found_of_entry he, rfl⟩⟩

/-- A hit in STEADY on an entry e, with q in PREV: write e, add `q ++ [e[0]]`, then PREV is e. -/
theorem exec_hit {i : Instr} {s : State} {c : Code} {n : Next} {q e : Phrase} (hi : HitRow i c)
    (hm : s.mode = .steady) (hq : s.prev = some q) (hn : s.next = some n) (hc : c.toNat < n.toNat)
    (he : s.entry c = some e) :
    exec i s =
      ((snkWrite e s).andThen fun _ u =>
        (dictAdd (hitPhrase q e) u).andThen fun _ v => .ok () { v with prev := some e }).outcome noValue := by
  have hbody : decHit c s = hitBody q c s := by simp [decHit, hm, readPrev_some hq]
  rw [exec_hitRow hi, hbody, hitBody, dictGet_entry hn hc he]
  rfl

/-- Settles O32: the write and then the addition, each by the environment's answer; the addition after the write is the
one DICT.ADD makes before it, since the write leaves NEXT, the entries and the storage answers alone. -/
theorem hitStep : Obligations.HitStep := by
  unfold Obligations.HitStep
  intro i s c n q e hi hm hq hn h1 h2 hc he
  have hlen : (hitPhrase q e).bytes.length = q.bytes.length + 1 := by simp
  have hexec := exec_hit hi hm hq hn hc he
  refine ⟨fun hsink hstore => ?_, fun hsink => ?_, fun hsink hstore => ?_⟩
  · obtain ⟨r, m, k, hadd⟩ := dictAdd_granted (p := hitPhrase q e) h1 h2 s.ent
    rw [hlen] at hadd
    have hafter := hadd { s with sinkAns := s.sinkAns.tail, out := s.out ++ e.bytes } hn rfl hstore
    refine ⟨hitPhrase q e, _, by simp, congrArg (Res.outcome addedValue) (hadd s hn rfl hstore), hm, ?_⟩
    rw [hexec, snkWrite_taken hsink, Res.andThen, hafter]
    rfl
  · obtain ⟨k, hwrite⟩ := snkWrite_failed hsink
    rw [hexec, hwrite]
    exact ⟨_, k, rfl, rfl, rfl, rfl, rfl⟩
  · rw [← hlen] at hstore
    obtain ⟨l, m, k, hadd⟩ :=
      dictAdd_refused (s := { s with sinkAns := s.sinkAns.tail, out := s.out ++ e.bytes }) hn h1 h2 hstore
    rw [hexec, snkWrite_taken hsink, Res.andThen, hadd]
    exact ⟨_, rfl, rfl, rfl, rfl⟩

end Sys2Proof.Machine
end

section
/-! START accepted and its storage granted (70_reset_and_hazards.md R201). -/

namespace Sys2Proof.Machine

theorem busy_false_of_idle_or_done {s : State} (h : s.mode = .idle ∨ s.mode = .done) : s.busy = false := by
  rcases h with hm | hm <;> simp [State.busy, modeBusy, hm]

/-- Outside a session START is accepted (R35). -/
theorem exec_start_of_not_busy {s : State} (h : s.busy = false) :
    exec .start s = (startSession s).outcome noValue := by
  simp [exec, execStart, h]

/-- Settles O10: outside a session START runs `startSession`, whose granted end names every register; the entries follow
from the alphabet being set and the table being empty. -/
theorem startInitialisesSession : Obligations.StartInitialisesSession := by
  unfold Obligations.StartInitialisesSession
  intro s hmode hgrant
  rw [exec_start_of_not_busy (busy_false_of_idle_or_done hmode), startSession_granted hgrant]
  refine ⟨_, rfl, rfl, rfl, rfl, rfl, rfl, rfl, rfl, rfl, fun b => ?alphabet, fun c hc => ?dynamic,
    rfl, rfl, rfl, rfl, rfl, rfl⟩
  case alphabet => exact entry_literal _ b rfl
  case dynamic => exact entry_dynamic_of_ent_nil rfl hc

end Sys2Proof.Machine
end

section
/-! The decoder against the encoder (30_encoding.md R81 to R83, R86, R87, R92). -/

namespace Sys2Proof

open Machine

/-! ## Codes laid out as bytes are assembled again -/

theorem assembleEven_encode (c : Code) (n : Nibble) : assembleEven (encodeB0 c) (encodeB1 c n) = c := by
  have hn := n.isLt
  apply BitVec.eq_of_toNat_eq
  rw [assembleEven_toNat, encodeB0_toNat, encodeB1_toNat]
  omega

theorem assembleOdd_encode (c : Code) (pend : Byte) (h : pend.toNat % 16 = c.toNat / 256) :
    assembleOdd pend (encodeB2 c) = c := by
  apply BitVec.eq_of_toNat_eq
  rw [assembleOdd_toNat, h, encodeB2_toNat]
  omega

theorem joinNibbles_toNat_mod (hi lo : Nibble) : (joinNibbles hi lo).toNat % 16 = lo.toNat := by
  have hlo := lo.isLt
  rw [joinNibbles_toNat]
  omega

/-- The assembly formulas give the numbers that the reference reading of R124 computes. -/
theorem assembleEven_eq_ofNat (b0 b1 : Byte) :
    assembleEven b0 b1 = BitVec.ofNat 12 (b0.toNat * 16 + b1.toNat / 16) := by
  rw [← assembleEven_toNat, BitVec.ofNat_toNat, BitVec.setWidth_eq]

theorem assembleOdd_eq_ofNat (pend b2 : Byte) :
    assembleOdd pend b2 = BitVec.ofNat 12 (pend.toNat % 16 * 256 + b2.toNat) := by
  rw [← assembleOdd_toNat, BitVec.ofNat_toNat, BitVec.setWidth_eq]

/-! ## The decoder by the bytes it finds -/

theorem decode_even_two (mode : Mode) (next : Next) (pend b0 b1 : Byte) (rest : List Byte) :
    decode mode next .even pend (b0 :: b1 :: rest) = (select mode next (some (assembleEven b0 b1))).map (·, 2) := rfl

theorem decode_odd_one (mode : Mode) (next : Next) (pend b2 : Byte) (rest : List Byte) :
    decode mode next .odd pend (b2 :: rest) = (select mode next (some (assembleOdd pend b2))).map (·, 1) := rfl

/-! ## Selection -/

theorem Code.dynamic_iff (c : Code) : Code.dynamic c = true ↔ 256 ≤ c.toNat := by
  have hlit : Code.dynamic c = !isLiteral c := rfl
  rw [hlit, Bool.not_eq_true', Bool.eq_false_iff, Ne, isLiteral_iff, Nat.not_lt]

theorem selectBoot_literal {c : Code} (h : isLiteral c = true) :
    selectBoot (some c) = .decBoot (literalByte c) := by
  simp [selectBoot, h]

theorem selectBoot_dynamic {c : Code} (h : 256 ≤ c.toNat) : selectBoot (some c) = .decBootInvalid c := by
  simp [selectBoot, isLiteral_false h]

theorem selectSteady_literal {c : Code} (next : Next) (h : isLiteral c = true) :
    selectSteady next (some c) = .decHitLit (literalByte c) := by
  simp [selectSteady, h]

theorem selectSteady_hit {c : Code} {next : Next} (h : 256 ≤ c.toNat) (hn : c.toNat < next.toNat) :
    selectSteady next (some c) = .decHitRef c := by
  simp [selectSteady, isLiteral_false h, (isHit_iff c next).2 hn]

theorem selectSteady_kwk {c : Code} {next : Next} (h : 256 ≤ c.toNat) (hn : next.toNat ≤ c.toNat) :
    selectSteady next (some c) = .decKwk c := by
  simp [selectSteady, isLiteral_false h, isHit_false hn]

/-- A row with a code is what its code selects, in the mode and at the NEXT of the opcode table. -/
theorem select_codeOf {i : Instr} {c : Code} {mode : Mode} {next : Next} (hc : codeOf i = some c)
    (hs : SelectedIn mode next i) : select mode next (some c) = .ok i := by
  cases i with
  | decBoot b =>
    obtain rfl : literalCode b = c := Option.some.inj hc
    obtain rfl : mode = .boot := hs
    simp [select, selectBoot_literal]
  | decBootInvalid d =>
    obtain rfl : d = c := Option.some.inj hc
    obtain ⟨rfl, hd⟩ := hs
    simp [select, selectBoot_dynamic hd]
  | decHitLit b =>
    obtain rfl : literalCode b = c := Option.some.inj hc
    obtain rfl : mode = .steady := hs
    simp [select, selectSteady_literal]
  | decHitRef d =>
    obtain rfl : d = c := Option.some.inj hc
    obtain ⟨rfl, hd, hn⟩ := hs
    simp [select, selectSteady_hit hd hn]
  | decKwk d =>
    obtain rfl : d = c := Option.some.inj hc
    obtain ⟨rfl, hd, hn⟩ := hs
    simp [select, selectSteady_kwk hd hn]
  | _ => cases hc

/-- What BOOT selects is a row of BOOT. -/
theorem selectBoot_selected (next : Next) (r : Option Code) :
    (selectBoot r).wf = true ∧ SelectedIn .boot next (selectBoot r) := by
  rcases r with _ | c
  · exact ⟨rfl, rfl⟩
  · by_cases hl : c.toNat < 256
    · rw [selectBoot_literal ((isLiteral_iff c).2 hl)]
      exact ⟨rfl, rfl⟩
    · have hc : 256 ≤ c.toNat := Nat.not_lt.1 hl
      rw [selectBoot_dynamic hc]
      exact ⟨(Code.dynamic_iff c).2 hc, rfl, hc⟩

/-- What STEADY selects is a row of STEADY, on its side of NEXT. -/
theorem selectSteady_selected (next : Next) (r : Option Code) :
    (selectSteady next r).wf = true ∧ SelectedIn .steady next (selectSteady next r) := by
  rcases r with _ | c
  · exact ⟨rfl, rfl⟩
  · by_cases hl : c.toNat < 256
    · rw [selectSteady_literal next ((isLiteral_iff c).2 hl)]
      exact ⟨rfl, rfl⟩
    · have hc : 256 ≤ c.toNat := Nat.not_lt.1 hl
      by_cases hn : c.toNat < next.toNat
      · rw [selectSteady_hit hc hn]
        exact ⟨(Code.dynamic_iff c).2 hc, rfl, hc, hn⟩
      · rw [selectSteady_kwk hc (Nat.not_lt.1 hn)]
        exact ⟨(Code.dynamic_iff c).2 hc, rfl, hc, Nat.not_lt.1 hn⟩

theorem select_selected {mode : Mode} {next : Next} {r : Option Code} {i : Instr}
    (h : select mode next r = .ok i) : i.wf = true ∧ SelectedIn mode next i := by
  cases mode with
  | idle => cases h
  | boot =>
    cases h
    exact selectBoot_selected next r
  | steady =>
    cases h
    exact selectSteady_selected next r
  | done => cases h

/-- Only a session has something to select. -/
theorem select_mode {mode : Mode} {next : Next} {r : Option Code} {i : Instr}
    (h : select mode next r = .ok i) : mode = .boot ∨ mode = .steady := by
  cases mode with
  | idle => cases h
  | boot => exact .inl rfl
  | steady => exact .inr rfl
  | done => cases h

theorem map_eq_ok {ε α β : Type} {x : Except ε α} {f : α → β} {b : β} (h : x.map f = .ok b) :
    ∃ a, x = .ok a ∧ f a = b := by
  cases x with
  | error e => cases h
  | ok a => exact ⟨a, rfl, Except.ok.inj h⟩

/-! ## Reading what Pack wrote -/

theorem streamCodes_pack (pad : Nibble) (codes : List Code) : streamCodes (pack pad codes) = (codes, false) := by
  induction codes using pack.induct with
  | case1 => rfl
  | case2 a =>
    simp only [pack, encodeEven, streamCodes, ← assembleEven_eq_ofNat, assembleEven_encode]
  | case3 a b rest ih =>
    have hpend : (encodeB1 a (highNibble b)).toNat % 16 = b.toNat / 256 := by
      rw [encodeB1, joinNibbles_toNat_mod, highNibble_toNat]
    simp only [pack, streamCodes, ih, ← assembleEven_eq_ofNat, ← assembleOdd_eq_ofNat, assembleEven_encode,
      assembleOdd_encode b _ hpend]

/-! ## The statements -/

/-- Settles O1: the decoder computes on words written out. -/
theorem writtenWordsDecode : Obligations.WrittenWordsDecode := by
  unfold Obligations.WrittenWordsDecode
  exact ⟨rfl, rfl, rfl, rfl, rfl, rfl, rfl, rfl⟩

/-- Settles O3: the assembly undoes the layout in either phase, and the row is the one its code selects. -/
theorem decodeEncodeAgree : Obligations.DecodeEncodeAgree := by
  unfold Obligations.DecodeEncodeAgree
  intro i c mode next _ hc hs
  have hselect := select_codeOf hc hs
  refine ⟨fun pend n rest => ?even, fun hi rest => ?odd⟩
  case even =>
    rw [encodeEven, List.cons_append, List.cons_append, decode_even_two, assembleEven_encode, hselect]
    rfl
  case odd =>
    have hpend : (joinNibbles hi (highNibble c)).toNat % 16 = c.toNat / 256 := by
      rw [joinNibbles_toNat_mod, highNibble_toNat]
    rw [decode_odd_one, assembleOdd_encode c _ hpend, hselect]
    rfl

/-- Settles O4: every answer of the decoder is a selected row, but for the abort of a stray byte, which only a session
reads. -/
theorem decodedStepsAreSelected : Obligations.DecodedStepsAreSelected := by
  unfold Obligations.DecodedStepsAreSelected
  intro mode next ph pend bytes i m h
  unfold decode at h
  split at h <;> obtain ⟨j, hj, hi⟩ := map_eq_ok h <;> cases hi
  case h_2 => exact ⟨rfl, ⟨select_mode hj, rfl⟩, by simp⟩
  all_goals
    obtain ⟨hwf, hs⟩ := select_selected hj
    exact ⟨hwf, hs, by simp⟩

/-- Settles O5: each group of three bytes gives its two codes back, and a tail its one code whatever the padding. -/
theorem packThenReadIsIdentity : Obligations.PackThenReadIsIdentity := by
  unfold Obligations.PackThenReadIsIdentity
  exact fun codes pad => streamCodes_pack pad codes

end Sys2Proof
end

section
/-! What every instruction and every step keeps of the entry table and of ERR, and what the end of a session leaves
(20_memory.md R68, 40_dictionary.md R103, 60_exceptions.md R172, 42_decode_loop.md R147). -/

namespace Sys2Proof.Machine

/-! ## A fact about the table and ERR, through every operation -/

/-- Q, a fact about the table and ERR, survives emptying the table, storing at a dynamic code, and a result of the
block. -/
structure KeptOnTable (Q : Memory → Result → Prop) : Prop where
  empty : ∀ {m : Memory} {x : Result}, Q m x → Q [] x
  write : ∀ {m : Memory} {x : Result} {c : Nat} (p : Phrase), 256 ≤ c → c < 4096 → Q m x → Q (Memory.write m c p) x
  result : ∀ {m : Memory} {x y : Result}, Result.ofBlock y = true → Q m x → Q m y

/-- Whichever way the operation ends, Q holds of the state it leaves, and what it raises is an error of the block. -/
def Res.Keeps {α : Type} (Q : Memory → Result → Prop) : Res α → Prop
  | .ok _ s => Q s.ent s.err
  | .raise e s => e.ofBlock = true ∧ Q s.ent s.err
  | .stuck _ => True

section Operations

variable {Q : Memory → Result → Prop}

theorem Res.keeps_iff {α : Type} {x : Res α} :
    x.Keeps Q ↔ (∀ a t, x = .ok a t → Q t.ent t.err) ∧
      ∀ e t, x = .raise e t → e.ofBlock = true ∧ Q t.ent t.err := by
  cases x <;> simp [Res.Keeps]

theorem Res.keeps_stuck {α : Type} (g : Fault) : (Res.stuck g : Res α).Keeps Q := trivial

theorem Res.Keeps.andThen {α β : Type} {x : Res α} {f : α → State → Res β} (hx : x.Keeps Q)
    (hf : ∀ a s, Q s.ent s.err → (f a s).Keeps Q) : (x.andThen f).Keeps Q := by
  cases x with
  | ok a s => exact hf a s hx
  | raise e s => exact hx
  | stuck g => exact Res.keeps_stuck g

theorem Res.Keeps.ite {α : Type} {c : Prop} [Decidable c] {x y : Res α} (hx : x.Keeps Q) (hy : y.Keeps Q) :
    (if c then x else y).Keeps Q := by
  split
  · exact hx
  · exact hy

theorem Res.Keeps.outcome {α : Type} {ret : α → Ret} {x : Res α} {t : State} (hx : x.Keeps Q)
    (hQ : KeptOnTable Q) (h : x.outcome ret = .next t) : Q t.ent t.err := by
  obtain ⟨hok, hraise⟩ := Res.keeps_iff.1 hx
  obtain ⟨a, u, hu, rfl⟩ | ⟨e, u, hu, rfl⟩ := Res.outcome_next.1 h
  · exact hok a u hu
  · obtain ⟨he, hq⟩ := hraise e u hu
    exact hQ.result he (hQ.empty hq)

variable {s : State} (hs : Q s.ent s.err)
include hs

theorem dictContains_keeps (c : Code) : (dictContains c s).Keeps Q := by
  refine Res.keeps_iff.2 ⟨fun b t h => ?_, fun e t h => absurd h dictContains_not_raise⟩
  obtain ⟨rfl, -⟩ := dictContains_ok.1 h
  exact hs

theorem dictGet_keeps (c : Code) : (dictGet c s).Keeps Q := by
  refine Res.keeps_iff.2 ⟨fun r t h => ?_, fun e t h => absurd h dictGet_not_raise⟩
  obtain ⟨rfl, -⟩ := dictGet_ok.1 h
  exact hs

theorem rdEven_keeps : (rdEven s).Keeps Q := by
  obtain ⟨r, j, d, p, ph, he, -⟩ | ⟨j, d, he⟩ := rdEven_spec s <;> rw [he]
  · exact hs
  · exact ⟨rfl, hs⟩

theorem rdOdd_keeps : (rdOdd s).Keeps Q := by
  obtain ⟨r, j, d, p, ph, he, -⟩ | ⟨j, d, he⟩ := rdOdd_spec s <;> rw [he]
  · exact hs
  · exact ⟨rfl, hs⟩

theorem rdCode_keeps : (rdCode s).Keeps Q := by
  obtain ⟨r, j, d, p, ph, he, -⟩ | ⟨j, d, he⟩ := rdCode_spec s <;> rw [he]
  · exact hs
  · exact ⟨rfl, hs⟩

theorem snkWrite_keeps (p : Phrase) : (snkWrite p s).Keeps Q := by
  refine Res.keeps_iff.2 ⟨fun a t h => ?_, fun e t h => ?_⟩
  · obtain ⟨-, rfl⟩ := snkWrite_ok.1 h
    exact hs
  · obtain ⟨-, rfl, rfl⟩ := snkWrite_raise.1 h
    exact ⟨rfl, hs⟩

theorem decBoot_keeps (r : Option Code) : (decBoot r s).Keeps Q := by
  refine Res.keeps_iff.2 ⟨fun a t h => ?_, fun e t h => ?_⟩
  · obtain ⟨-, c, -, -, rfl⟩ := decBoot_ok h
    exact hs
  · obtain ⟨-, ⟨rfl, rfl, -⟩ | ⟨c, -, -, rfl, -, rfl⟩⟩ := decBoot_raise h <;> exact ⟨rfl, hs⟩

variable (hQ : KeptOnTable Q)
include hQ

theorem dictInit_keeps (w : Nat) : (dictInit w s).Keeps Q := by
  refine Res.keeps_iff.2 ⟨fun a t h => ?_, fun e t h => ?_⟩
  · obtain ⟨-, -, rfl⟩ := dictInit_ok.1 h
    exact hQ.empty hs
  · obtain ⟨-, -, rfl, rfl⟩ := dictInit_raise.1 h
    exact ⟨rfl, hs⟩

theorem dictReset_keeps : (dictReset s).Keeps Q := by
  refine Res.keeps_iff.2 ⟨fun a t h => ?_, fun e t h => absurd h dictReset_not_raise⟩
  obtain ⟨-, rfl⟩ := dictReset_ok.1 h
  exact hQ.empty hs

theorem dictStore_keeps (p : Phrase) {n : Next} (h1 : 256 ≤ n.toNat) (h2 : n.toNat < 4096) :
    (dictStore p n s).Keeps Q := by
  refine Res.keeps_iff.2 ⟨fun r t h => ?_, fun e t h => ?_⟩
  · obtain ⟨-, -, -, rfl⟩ := dictStore_ok.1 h
    exact hQ.write p h1 h2 hs
  · obtain ⟨rfl, ⟨-, rfl⟩ | ⟨-, -, rfl⟩⟩ := dictStore_raise.1 h <;> exact ⟨rfl, hs⟩

theorem dictAdd_keeps (p : Phrase) : (dictAdd p s).Keeps Q := by
  obtain ⟨g, hg⟩ | ⟨n, -, ⟨h1, h2, hadd⟩ | ⟨-, hadd⟩⟩ := dictAdd_cases (p := p) (s := s)
  · rw [hg]
    exact Res.keeps_stuck g
  · rw [hadd]
    exact dictStore_keeps hs hQ p h1 h2
  · rw [hadd]
    exact dictStore_keeps (s := s.clearDynamic) (hQ.empty hs) hQ p (by decide) (by decide)

theorem hitBody_keeps (q : Phrase) (c : Code) : (hitBody q c s).Keeps Q :=
  (dictGet_keeps hs c).andThen fun found _ h₁ =>
    match found with
    | none => Res.keeps_stuck _
    | some e => (snkWrite_keeps h₁ e).andThen fun _ _ h₂ =>
      (dictAdd_keeps h₂ hQ (hitPhrase q e)).andThen fun _ _ h₃ => h₃

theorem kwkBody_keeps (q : Phrase) (c : Code) : (kwkBody q c s).Keeps Q :=
  (dictContains_keeps hs c).andThen fun hit _ h₁ =>
    match hit with
    | true => Res.keeps_stuck _
    | false => (dictAdd_keeps h₁ hQ (kwkPhrase q)).andThen fun _ _ h₂ =>
      (snkWrite_keeps h₂ (kwkPhrase q)).andThen fun _ _ h₃ => h₃

theorem decHit_keeps (c : Code) : (decHit c s).Keeps Q := by
  by_cases hm : s.mode = .steady
  · obtain ⟨q, d, he, -⟩ := decHit_steady (c := c) hm
    rw [he]
    exact hitBody_keeps (s := { s with draws := d }) hs hQ q c
  · rw [decHit_wrongMode hm]
    exact Res.keeps_stuck _

theorem decKwk_keeps (c : Code) : (decKwk c s).Keeps Q := by
  by_cases hm : s.mode = .steady
  · obtain ⟨q, d, he, -⟩ := decKwk_steady (c := c) hm
    rw [he]
    exact kwkBody_keeps (s := { s with draws := d }) hs hQ q c
  · rw [decKwk_wrongMode hm]
    exact Res.keeps_stuck _

theorem startSession_keeps : (startSession s).Keeps Q := by
  have hregs : Q (startRegs s).ent (startRegs s).err := hQ.result rfl hs
  exact (dictInit_keeps hregs hQ Config.codeWidth).andThen fun _ _ h => h

/-- What is kept on the table and ERR holds after every instruction. -/
theorem exec_keepsOnTable {i : Instr} {t : State} (h : exec i s = .next t) : Q t.ent t.err := by
  cases i with
  | decBoot b => exact (decBoot_keeps hs _).outcome hQ h
  | decBootInvalid c => exact (Res.Keeps.ite (Res.keeps_stuck _) (decBoot_keeps hs _)).outcome hQ h
  | decBootEmpty => exact (decBoot_keeps hs _).outcome hQ h
  | decHitLit b => exact (decHit_keeps hs hQ _).outcome hQ h
  | decHitRef c => exact (Res.Keeps.ite (Res.keeps_stuck _) (decHit_keeps hs hQ c)).outcome hQ h
  | decKwk c => exact (decKwk_keeps hs hQ c).outcome hQ h
  | decEnd =>
    have hfinish : (Res.ok () (s.finish .ok)).Keeps Q := hQ.result (x := s.err) rfl (hQ.empty hs)
    exact (Res.Keeps.ite hfinish (Res.keeps_stuck _)).outcome hQ h
  | decAbort e =>
    have habort : (if e.ofBlock then Res.raise e s else .stuck .notOfBlock : Res Unit).Keeps Q := by
      split
      case isTrue he => exact ⟨he, hs⟩
      case isFalse => exact Res.keeps_stuck _
    exact (Res.Keeps.ite (Res.keeps_stuck _) habort).outcome hQ h
  | rdInit => exact Res.Keeps.outcome (x := .ok () (rdInit s)) hs hQ h
  | rdCode => exact (rdCode_keeps hs).outcome hQ h
  | rdEven => exact (rdEven_keeps hs).outcome hQ h
  | rdOdd => exact (rdOdd_keeps hs).outcome hQ h
  | dictInit width => exact (dictInit_keeps hs hQ width).outcome hQ h
  | dictContains c => exact (dictContains_keeps hs c).outcome hQ h
  | dictGet c => exact (dictGet_keeps hs c).outcome hQ h
  | dictAdd p => exact (dictAdd_keeps hs hQ p).outcome hQ h
  | dictReset => exact (dictReset_keeps hs hQ).outcome hQ h
  | dictFree =>
    have hfree : (Res.ok () s.freeDict).Keeps Q := hQ.empty hs
    exact hfree.outcome hQ h
  | snkWrite p => exact (snkWrite_keeps hs p).outcome hQ h
  | start =>
    simp only [exec, execStart] at h
    split at h
    · cases h
      exact hs
    · exact (startSession_keeps hs hQ).outcome hQ h

/-- What is kept on the table and ERR holds after every step. -/
theorem step_keepsOnTable {t : State} (h : step s = .next t) : Q t.ent t.err := by
  obtain ⟨-, he⟩ | ⟨-, rfl⟩ | ⟨-, rfl⟩ | ⟨ops, bytes, -, rfl⟩ | ⟨src, -, -, rfl⟩ | ⟨-, -, rfl⟩ | ⟨-, -, hcode⟩ :=
    step_cases h
  · exact exec_keepsOnTable (s := s.dropInput) hs hQ he
  · exact hQ.result (x := s.err) rfl (hQ.empty hs)
  · exact hQ.result (x := s.err) rfl (hQ.empty hs)
  · exact hQ.result (x := s.err) rfl (hQ.empty hs)
  · exact hs
  · exact hs
  obtain ⟨hok, hraise⟩ := Res.keeps_iff.1 (rdCode_keeps (s := s.dropInput) hs)
  obtain ⟨r, u, hr, -, he⟩ | ⟨r, u, n, hr, -, -, he⟩ | ⟨e, u, hr, he⟩ := hcode
  · exact exec_keepsOnTable (hok r u hr) hQ he
  · exact exec_keepsOnTable (hok r u hr) hQ he
  · obtain ⟨-, hu⟩ := hraise e u hr
    exact exec_keepsOnTable hu hQ he

end Operations

theorem keptOnTable_wf : KeptOnTable fun m _ => Memory.wf m where
  empty _ := Memory.nil_wf
  write p h1 h2 h := Memory.write_wf p h h1 h2
  result _ h := h

theorem keptOnTable_ofBlock : KeptOnTable fun _ x => Result.ofBlock x = true where
  empty h := h
  write _ _ _ h := h
  result h _ := h

/-! ## What an instruction leaves alone, and the single exit -/

theorem insideFrame_stable (s : State) : StableUnderOps (InsideFrame s) where
  read _ _ _ _ _ h := h
  dict _ _ _ h := h
  sink _ ys := fun ⟨hsrc, hmax, hin, hout⟩ => ⟨hsrc, hmax, hin, hout.trans (List.prefix_append _ ys)⟩
  prev _ h := h
  steady h := h

/-- No instruction but START touches the source, PHRASE_MAX or the host's inputs, nor takes anything out of OUT. -/
theorem exec_insideFrame {i : Instr} {s t : State} (hi : i ≠ .start) (h : exec i s = .next t) : InsideFrame s t := by
  by_cases hinit : ∃ w, i = .dictInit w
  · obtain ⟨w, rfl⟩ := hinit
    obtain ⟨a, u, hu, rfl⟩ | ⟨e, u, hu, rfl⟩ := Res.outcome_next.1 h
    · obtain ⟨-, -, rfl⟩ := dictInit_ok.1 hu
      exact .refl s
    · obtain ⟨-, -, -, rfl⟩ := dictInit_raise.1 hu
      exact .refl s
  · obtain ⟨u, hu, ⟨r, rfl⟩ | ⟨x, rfl⟩⟩ :=
      exec_endsOrFinishes (insideFrame_stable s) (.refl s) (not_exists.1 hinit) hi h <;> exact hu

theorem noSession_finish (s : State) (x : Result) : NoSession (s.finish x) := ⟨rfl, rfl, rfl, rfl, rfl, rfl⟩

theorem busy_iff (s : State) : s.busy = true ↔ s.mode = .boot ∨ s.mode = .steady := by
  cases hm : s.mode <;> simp [State.busy, modeBusy, hm]

theorem exec_start_of_busy {s : State} (h : s.busy = true) : exec .start s = .next s := by
  simp [exec, execStart, h]

theorem exec_decAbort {s : State} {e : ErrKind} (hb : s.busy = true) (he : e.ofBlock = true) :
    exec (.decAbort e) s = .next (s.finish (.error e)) := by
  simp [exec, execDecAbort, hb, he, Res.outcome]

theorem exec_decEnd {s : State} (hm : s.mode = .steady) : exec .decEnd s = .next (s.finish .ok) := by
  simp [exec, execDecEnd, hm, Res.outcome, noValue, State.finish]

/-! ## The statements -/

/-- Settles O23: the only writes to the table are at the codes 256 to 4095, in `dictStore`. -/
theorem tableKeepsCanonicalForm : Obligations.TableKeepsCanonicalForm := by
  unfold Obligations.TableKeepsCanonicalForm
  exact ⟨fun i s t h hwf => exec_keepsOnTable hwf keptOnTable_wf h,
    fun s t h hwf => step_keepsOnTable hwf keptOnTable_wf h⟩

/-- Settles O47: what an operation raises, and what DEC.ABORT takes, is a kind of the block. -/
theorem collaboratorErrorsNeverRaised : Obligations.CollaboratorErrorsNeverRaised := by
  unfold Obligations.CollaboratorErrorsNeverRaised
  refine ⟨fun i s t h hs => exec_keepsOnTable hs keptOnTable_ofBlock h, fun r => ?_⟩
  cases r with
  | ok => decide
  | error e => cases e <;> decide

/-- Settles O35: DEC.END is Finish(OK). -/
theorem endFinishesOk : Obligations.EndFinishesOk := by
  unfold Obligations.EndFinishesOk
  exact fun s hm => ⟨_, exec_decEnd hm, rfl, rfl, rfl, noSession_finish s _, rfl⟩

/-- Settles O36: DEC.ABORT is Finish with its kind; whatever instruction ends a session goes through Finish, and START
does not, being ignored in a session. -/
theorem abortEndsWithItsError : Obligations.AbortEndsWithItsError := by
  unfold Obligations.AbortEndsWithItsError
  refine ⟨fun s e hm he => ?_, fun i s t h hm hdone => ?_⟩
  · exact ⟨_, exec_decAbort ((busy_iff s).2 hm) he, rfl, rfl, noSession_finish s _, rfl⟩
  · have hrunning : s.mode ≠ .done := by rcases hm with hm | hm <;> simp [hm]
    have hstart : i ≠ .start := by
      rintro rfl
      rw [exec_start_of_busy ((busy_iff s).2 hm)] at h
      cases h
      exact hrunning hdone
    obtain ⟨hsrc, -, -, hout⟩ := exec_insideFrame hstart h
    obtain ⟨u, x, -, rfl⟩ := exec_done_finish h hrunning hdone
    exact ⟨noSession_finish u x, hsrc, hout⟩

end Sys2Proof.Machine
end

section
/-! The Dictionary's INIT, GET and ADD as instructions, and the frame of all six rows
(40_dictionary.md R100 to R105). -/

namespace Sys2Proof.Machine

/-! ## Entries -/

/-- Where the codes listed are consecutive from k on, the entry of a code is the one at its place. -/
theorem Memory.read_eq_getElem? {m : Memory} {k len c : Nat} (h : m.map Prod.fst = List.range' k len) (hc : k ≤ c) :
    Memory.read m c = m[c - k]?.map Prod.snd := by
  induction m generalizing k len with
  | nil => rfl
  | cons d m ih =>
    obtain ⟨j, q⟩ := d
    cases len with
    | zero => cases h
    | succ len =>
      rw [List.range'_succ, List.map_cons, List.cons.injEq] at h
      obtain ⟨rfl, htail⟩ := h
      by_cases hj : j = c
      · simp [Memory.read, hj]
      · have hsucc : c - j = c - (j + 1) + 1 := by omega
        simp [Memory.read, hj, ih htail (by omega), hsucc]

/-- There are as many dynamic entries as codes from 256 up to NEXT (R25). -/
theorem DictInv.length_ent {n : Next} {s : State} (h : DictInv n s) : s.ent.length = n.toNat - 256 := by
  obtain ⟨-, -, -, -, hent⟩ := h
  simpa using congrArg List.length hent

/-- Every code below NEXT has an entry (R25). -/
theorem DictInv.entry_below {n : Next} {s : State} (h : DictInv n s) {c : Code} (hc : c.toNat < n.toNat) :
    ∃ e, s.entry c = some e := by
  have hlen := h.length_ent
  obtain ⟨-, hlow, -, hset, hent⟩ := h
  cases hl : isLiteral c with
  | true => exact ⟨alphaPhrase c, by simp [State.entry, hl, hset]⟩
  | false =>
    have hdyn : 256 ≤ c.toNat := by
      rw [Bool.eq_false_iff, Ne, isLiteral_iff] at hl
      omega
    have hread := Memory.read_eq_getElem? hent hdyn
    rw [List.getElem?_eq_getElem (by omega)] at hread
    exact ⟨_, by simpa [State.entry, hl] using hread⟩

/-- Written at 256 into an empty table, a phrase is the only dynamic entry. -/
theorem entry_write_first {t : State} {p : Phrase} (h : t.ent = Memory.write [] Config.firstCode.toNat p) :
    t.entry 256#12 = some p ∧ ∀ c : Code, 257 ≤ c.toNat → t.entry c = none := by
  obtain ⟨hat, hother⟩ :=
    entry_write (s := { t with ent := [] }) (t := t) (n := Config.firstCode) (by decide) (by decide) h rfl
  refine ⟨hat, fun c hc => ?_⟩
  have hne : c.toNat ≠ Config.firstCode.toNat := (show 256 < c.toNat from hc).ne'
  exact (hother c hne).trans (entry_dynamic_of_ent_nil rfl (by omega))

/-! ## The operations as instructions -/

theorem exec_dictInit_granted {s : State} (h : allocAnswer s = true) :
    exec (.dictInit 12) s =
      .next { s with
        next := some 256#13, seeded := true, ent := [], allocAns := s.allocAns.tail, ret := .unit } :=
  Res.outcome_next.2 (.inl ⟨(), _, dictInit_ok.2 ⟨rfl, h, rfl⟩, rfl⟩)

theorem exec_dictInit_refused {s : State} (h : allocAnswer s = false) :
    exec (.dictInit 12) s = .next (s.afterAlloc.finish (.error .allocation)) :=
  Res.outcome_next.2 (.inr ⟨.allocation, _, dictInit_raise.2 ⟨rfl, h, rfl, rfl⟩, rfl⟩)

theorem exec_dictGet_of_ok {c : Code} {s : State} {r : Option Phrase} (h : dictGet c s = .ok r s) :
    exec (.dictGet c) s = .next { s with ret := .entry r } :=
  Res.outcome_next.2 (.inl ⟨r, s, h, rfl⟩)

theorem exec_dictAdd_of_ok {p : Phrase} {s t : State} {r : Code × Phrase} (h : dictAdd p s = .ok r t) :
    exec (.dictAdd p) s = .next { t with ret := .added r.1 r.2 } :=
  Res.outcome_next.2 (.inl ⟨r, t, h, rfl⟩)

theorem exec_dictAdd_of_raise {p : Phrase} {s t : State} {e : ErrKind} (h : dictAdd p s = .raise e t) :
    exec (.dictAdd p) s = .next (t.finish (.error e)) :=
  Res.outcome_next.2 (.inr ⟨e, t, h, rfl⟩)

/-! ## The frame -/

/-- What a dictionary operation may change: the table, NEXT, the alphabet, and the pending storage answers. -/
def DictFrame (s t : State) : Prop :=
  ∃ l m n b, t = { s with allocAns := l, ent := m, next := n, seeded := b }

theorem DictFrame.refl (s : State) : DictFrame s s := ⟨_, _, _, _, rfl⟩

/-- The operation ends within the frame, and the one error it raises is AllocationError. -/
def Res.WithinDict {α : Type} (s : State) (x : Res α) : Prop :=
  x.EndsIn (DictFrame s) ∧ ∀ e t, x = .raise e t → e = .allocation

theorem dictInit_withinDict (w : Nat) (s : State) : (dictInit w s).WithinDict s := by
  refine ⟨Res.endsIn_iff.2 ⟨fun a t h => ?_, fun e t h => ?_⟩, fun e t h => ?_⟩
  · obtain ⟨-, -, rfl⟩ := dictInit_ok.1 h
    exact ⟨_, _, _, _, rfl⟩
  · obtain ⟨-, -, -, rfl⟩ := dictInit_raise.1 h
    exact ⟨_, _, _, _, rfl⟩
  · obtain ⟨-, -, rfl, -⟩ := dictInit_raise.1 h
    rfl

theorem dictContains_withinDict (c : Code) (s : State) : (dictContains c s).WithinDict s :=
  ⟨dictContains_endsIn (.refl s) c, fun _ _ h => absurd h dictContains_not_raise⟩

theorem dictGet_withinDict (c : Code) (s : State) : (dictGet c s).WithinDict s :=
  ⟨dictGet_endsIn (.refl s) c, fun _ _ h => absurd h dictGet_not_raise⟩

theorem dictAdd_withinDict (p : Phrase) (s : State) : (dictAdd p s).WithinDict s := by
  refine ⟨Res.endsIn_iff.2 ⟨fun r t h => ?_, fun e t h => ?_⟩, fun e t h => (dictAdd_raise h).1⟩
  · obtain ⟨m, n, rfl⟩ := dictAdd_frame h
    exact ⟨_, _, _, _, rfl⟩
  · obtain ⟨-, l, m, n, rfl⟩ := dictAdd_raise h
    exact ⟨_, _, _, _, rfl⟩

theorem dictReset_withinDict (s : State) : (dictReset s).WithinDict s := by
  refine ⟨Res.endsIn_iff.2 ⟨fun a t h => ?_, fun e t h => absurd h dictReset_not_raise⟩,
    fun e t h => absurd h dictReset_not_raise⟩
  obtain ⟨-, rfl⟩ := dictReset_ok.1 h
  exact ⟨_, _, _, _, rfl⟩

theorem freeDict_withinDict (s : State) : (Res.ok () s.freeDict).WithinDict s := by
  have hends : DictFrame s s.freeDict := ⟨s.allocAns, [], none, s.seeded, rfl⟩
  exact ⟨hends, fun e t h => by cases h⟩

/-- As an instruction, such an operation stays within the frame, or ends the session with AllocationError. -/
theorem Res.WithinDict.outcome {α : Type} {ret : α → Ret} {x : Res α} {s t : State} (hx : x.WithinDict s)
    (h : x.outcome ret = .next t) :
    ∃ u, DictFrame s u ∧ ((∃ r, t = { u with ret := r }) ∨ t = u.finish (.error .allocation)) := by
  obtain ⟨hends, hraise⟩ := hx
  obtain ⟨hok, hfail⟩ := Res.endsIn_iff.1 hends
  obtain ⟨a, u, hu, rfl⟩ | ⟨e, u, hu, rfl⟩ := Res.outcome_next.1 h
  · exact ⟨u, hok a u hu, .inl ⟨_, rfl⟩⟩
  · obtain rfl := hraise e u hu
    exact ⟨u, hfail _ u hu, .inr rfl⟩

/-! ## The statements -/

/-- Settles O14: INIT by the environment's answer to its storage request. -/
theorem initSeedsAlphabet : Obligations.InitSeedsAlphabet := by
  unfold Obligations.InitSeedsAlphabet
  refine fun s => ⟨fun h => ?granted, fun h => ?refused⟩
  case granted =>
    exact ⟨_, exec_dictInit_granted h, rfl, fun b => entry_literal _ b rfl, fun _ => entry_dynamic_of_ent_nil rfl, rfl⟩
  case refused => exact ⟨_, exec_dictInit_refused h, rfl, rfl, rfl⟩

/-- Settles O16: a literal is found in every state; below NEXT the invariant gives the entry. -/
theorem getAnswersBelowNext : Obligations.GetAnswersBelowNext := by
  unfold Obligations.GetAnswersBelowNext
  refine ⟨fun s b => ?literal, fun s c n hinv => ⟨fun hc => ?below, fun hc => ?above⟩⟩
  case literal =>
    have hfound := dictGet_ok.2 ⟨rfl, .inl ⟨.inl (isLiteral_literalCode b), _, found_literal s b, rfl⟩⟩
    exact exec_dictGet_of_ok hfound
  case below =>
    obtain ⟨e, he⟩ := hinv.entry_below hc
    obtain ⟨hn, -⟩ := hinv
    exact ⟨e, he, exec_dictGet_of_ok (dictGet_entry hn hc he)⟩
  case above =>
    obtain ⟨hn, hlow, -⟩ := hinv
    have hlit : isLiteral c = false := isLiteral_false (hlow.trans hc)
    exact exec_dictGet_of_ok (dictGet_ok.2 ⟨rfl, .inr ⟨hlit, ⟨n, hn, isHit_false hc⟩, rfl⟩⟩)

/-- Settles O17: below the capacity the addition is a store at NEXT. -/
theorem addStoresAtNext : Obligations.AddStoresAtNext := by
  unfold Obligations.AddStoresAtNext
  intro s p n hn h1 h2 ⟨hlen, hgrant⟩
  have hadd := (dictAdd_room (p := p) hn h1 h2).trans (dictStore_granted hlen hgrant)
  exact ⟨_, _, exec_dictAdd_of_ok hadd, rfl, entry_write h1 h2 rfl rfl⟩

/-- Settles O18: at the capacity the addition is a store at 256 in the emptied table. -/
theorem addAtCapacityResets : Obligations.AddAtCapacityResets := by
  unfold Obligations.AddAtCapacityResets
  intro s p hn ⟨hlen, hgrant⟩
  have hadd := (dictAdd_full (p := p) hn rfl).trans (dictStore_granted (s := s.clearDynamic) hlen hgrant)
  obtain ⟨hat, hother⟩ := entry_write_first (t := { s.clearDynamic.afterAlloc with
    ent := Memory.write [] Config.firstCode.toNat p, next := some (Config.firstCode + 1#13) }) rfl
  exact ⟨_, _, exec_dictAdd_of_ok hadd, rfl, hat, hother, entry_literal_congr rfl⟩

/-- Settles O19: a refused addition raises, and Finish releases the session. -/
theorem addWithoutStorageFails : Obligations.AddWithoutStorageFails := by
  unfold Obligations.AddWithoutStorageFails
  intro s p n hn h1 h2 hstore
  obtain ⟨l, m, k, hadd⟩ := dictAdd_refused hn h1 h2 hstore
  exact ⟨_, exec_dictAdd_of_raise hadd, rfl, rfl, rfl, noSession_finish _ _⟩

/-- Settles O22: every dictionary operation stays within its frame, and so does what it leaves to Finish. -/
theorem dictionaryFrame : Obligations.DictionaryFrame := by
  unfold Obligations.DictionaryFrame
  intro i s t hi h
  have hframe : ∃ u, DictFrame s u ∧ ((∃ r, t = { u with ret := r }) ∨ t = u.finish (.error .allocation)) := by
    obtain ⟨w, rfl⟩ | ⟨c, rfl⟩ | ⟨c, rfl⟩ | ⟨p, rfl⟩ | rfl | rfl := hi
    · exact (dictInit_withinDict w s).outcome h
    · exact (dictContains_withinDict c s).outcome h
    · exact (dictGet_withinDict c s).outcome h
    · exact (dictAdd_withinDict p s).outcome h
    · exact (dictReset_withinDict s).outcome h
    · exact (freeDict_withinDict s).outcome h
  obtain ⟨u, ⟨l, m, n, b, rfl⟩, ⟨r, rfl⟩ | rfl⟩ := hframe
  · exact ⟨rfl, rfl, rfl, rfl, rfl, rfl, .inr ⟨rfl, rfl, rfl, rfl, rfl, rfl⟩⟩
  · exact ⟨rfl, rfl, rfl, rfl, rfl, rfl, .inl ⟨rfl, rfl, noSession_finish _ _⟩⟩

/-- Settles O55: the body of RESET does not look at NEXT, so long as it holds a value. -/
theorem resetRunsAtEveryNext : Obligations.ResetRunsAtEveryNext := by
  unfold Obligations.ResetRunsAtEveryNext
  exact fun s n hn => ⟨_, exec_dictReset_of_next hn, rfl, fun _ => entry_dynamic_of_ent_nil rfl,
    entry_literal_congr rfl, rfl⟩

end Sys2Proof.Machine
end

section
/-! Where an operation has no next step (93_implementation_defined.md U17, 30_encoding.md R86, R87). -/

namespace Sys2Proof.Machine

theorem exec_decKwk (c : Code) (s : State) : exec (.decKwk c) s = (decKwk c s).outcome noValue := rfl

/-- A dynamic code cannot be looked up without a dictionary. -/
theorem dynamic_lookup_stuck {s : State} (hn : s.next = none) {c : Code} (hc : 256 ≤ c.toNat) :
    dictContains c s = .stuck .noDictionary ∧ dictGet c s = .stuck .noDictionary := by
  simp [dictContains, dictGet, isLiteral_false hc, hn]

theorem decBoot_wrongMode {r : Option Code} {s : State} (hm : s.mode ≠ .boot) :
    decBoot r s = .stuck .wrongMode := by
  simp [decBoot, hm]

/-- Settles O56: each operation by the register or the MODE it lacks. -/
theorem stopsOutsidePreconditions : Obligations.StopsOutsidePreconditions := by
  unfold Obligations.StopsOutsidePreconditions
  refine fun s => ⟨fun hn => ?dictionary, fun hm => ?boot, fun hm => ?steady, fun hb e => ?abort⟩
  case dictionary =>
    refine ⟨fun c hc => ?_, fun p => ?_, ?_⟩
    · obtain ⟨hcontains, hget⟩ := dynamic_lookup_stuck hn hc
      exact ⟨Res.outcome_fault.2 hcontains, Res.outcome_fault.2 hget⟩
    · exact Res.outcome_fault.2 (by simp [dictAdd, hn])
    · exact Res.outcome_fault.2 (by simp [dictReset, hn])
  case boot =>
    refine ⟨fun b => Res.outcome_fault.2 (decBoot_wrongMode hm), fun c hc => ?_,
      Res.outcome_fault.2 (decBoot_wrongMode hm)⟩
    exact Res.outcome_fault.2 (by simp [isLiteral_false hc, decBoot_wrongMode hm])
  case steady =>
    refine ⟨fun i c hi => ?_, Res.outcome_fault.2 (if_neg hm)⟩
    rcases hi with hi | rfl
    · rw [exec_hitRow hi, decHit_wrongMode hm]
      rfl
    · rw [exec_decKwk, decKwk_wrongMode hm]
      rfl
  case abort => exact Res.outcome_fault.2 (by simp [hb])

end Sys2Proof.Machine
end

section
/-! START without storage, during a session and after one (42_decode_loop.md R141, 10_state.md R35, R39). -/

namespace Sys2Proof.Machine

/-- START refused its storage, outside a session. -/
theorem exec_start_refused {s : State} (hb : s.busy = false) (h : allocAnswer s = false) :
    exec .start s = .next ((startRegs s).afterAlloc.finish (.error .allocation)) := by
  rw [exec_start_of_not_busy hb, startSession_refused h]
  rfl

/-- Settles O11: refused storage is Finish(AllocationError) on the registers START has set. -/
theorem startWithoutStorageFails : Obligations.StartWithoutStorageFails := by
  unfold Obligations.StartWithoutStorageFails
  exact fun s hm h => ⟨_, exec_start_refused (busy_false_of_idle_or_done hm) h, rfl, rfl, rfl, rfl, rfl,
    noSession_finish _ _⟩

/-- Settles O12: in a session START is ignored. -/
theorem startIgnoredWhileBusy : Obligations.StartIgnoredWhileBusy := by
  unfold Obligations.StartIgnoredWhileBusy
  exact fun s hm => exec_start_of_busy ((busy_iff s).2 hm)

/-- Settles O13: granted or refused, START answers a state that names the environment alone, and after a refusal also
the alphabet. -/
theorem startForgetsThePast : Obligations.StartForgetsThePast := by
  unfold Obligations.StartForgetsThePast
  intro s t hs ht ⟨hsrc, hread, hsink, halloc, hmax, hin, hdraws⟩ hset
  have hsame : allocAnswer s = allocAnswer t := congrArg (·.headD true) halloc
  cases h : allocAnswer s with
  | true =>
    rw [exec_start_of_not_busy hs, exec_start_of_not_busy ht, startSession_granted h,
      startSession_granted (hsame ▸ h), hsrc, hread, hsink, halloc, hmax, hin, hdraws]
    rfl
  | false =>
    have hseeded : s.seeded = t.seeded := hset.resolve_left (by simp [h])
    rw [exec_start_refused hs h, exec_start_refused ht (hsame ▸ h)]
    simp [State.finish, State.freeDict, State.afterAlloc, startRegs, hsrc, hread, hsink, halloc, hmax, hin, hdraws,
      hseeded]

end Sys2Proof.Machine
end

section
/-! The host's turn and the reset input (10_state.md R35, R39, 70_reset_and_hazards.md R200 to R203). -/

namespace Sys2Proof.Machine

/-! ## The step by what the host does -/

theorem step_of_start {s : State} (h : hostInput s = .start) : step s = exec .start s.dropInput := by
  simp [step, plan, h]

theorem step_of_reset {s : State} (h : hostInput s = .reset) : step s = .next s.dropInput.hardReset := by
  simp [step, plan, h]

theorem step_of_resetInStart {s : State} (h : hostInput s = .resetInStart) :
    step s = .next s.dropInput.insideStart.hardReset := by
  simp [step, plan, h]

theorem step_of_resetInStep {s : State} {ops bytes : Nat} (h : hostInput s = .resetInStep ops bytes) :
    step s = .next (s.dropInput.insideStep ops bytes).hardReset := by
  simp [step, plan, h]

theorem step_of_connect {s : State} {src : List Byte} (h : hostInput s = .connect src) (hb : s.busy = false) :
    step s = .next { s.dropInput with src := src } := by
  simp [step, plan, h, hb]

theorem step_of_connect_busy {s : State} {src : List Byte} (h : hostInput s = .connect src) (hb : s.busy = true) :
    step s = .refused .streamChanged := by
  simp [step, plan, h, hb]

theorem step_of_waiting {s : State} (h : Quiet s) (hb : s.busy = false) : step s = .next s.dropInput := by
  have hb' : s.dropInput.busy = false := hb
  simp [step, plan, show hostInput s = .quiet from h, planQuiet, hb']

/-! ## After the reset input -/

theorem noSession_hardReset (s : State) : NoSession s.hardReset := ⟨rfl, rfl, rfl, rfl, rfl, rfl⟩

/-- After a hardware reset no code has an entry, literal or not. -/
theorem entry_hardReset (s : State) (c : Code) : s.hardReset.entry c = none := by
  simp [State.entry]

/-- The reset input's step is a hardware reset of a state as far as the step or START had come. -/
theorem step_of_resetComes {s : State} (h : ResetComes s) :
    ∃ u : State, step s = .next u.hardReset ∧ u.src = s.src ∧ u.phraseMax = s.phraseMax ∧
      (hostInput s = .reset → u = s.dropInput) ∧
      (hostInput s = .resetInStart → u.out = if s.busy then s.out else []) ∧
      (hostInput s ≠ .resetInStart → s.out <+: u.out) := by
  obtain h | h | ⟨ops, bytes, h⟩ := h
  · exact ⟨_, step_of_reset h, rfl, rfl, fun _ => rfl, by simp [h], fun _ => List.prefix_refl _⟩
  · obtain ⟨hsrc, hmax, -, hout⟩ := insideStart_frame s.dropInput
    exact ⟨_, step_of_resetInStart h, hsrc, hmax, by simp [h], fun _ => hout, by simp [h]⟩
  · obtain ⟨hsrc, hmax, -, hout⟩ := insideStep_frame ops bytes s.dropInput
    exact ⟨_, step_of_resetInStep h, hsrc, hmax, by simp [h], by simp [h], fun _ => hout⟩

/-! ## The statements -/

/-- Settles O7: the plan of a step for each thing the host can do at it. -/
theorem hostInputsTakeTheirTurn : Obligations.HostInputsTakeTheirTurn := by
  unfold Obligations.HostInputsTakeTheirTurn
  exact fun s => ⟨step_of_start, step_of_reset, step_of_resetInStart, fun _ _ => step_of_resetInStep,
    fun _ => step_of_connect, fun _ => step_of_connect_busy, step_of_waiting⟩

/-- Settles O8: every register of the reset state is written out in its definition. -/
theorem resetLeavesNoSession : Obligations.ResetLeavesNoSession := by
  unfold Obligations.ResetLeavesNoSession
  exact ⟨rfl, rfl, rfl, rfl, rfl, rfl, rfl, entry_hardReset State.reset⟩

/-- Settles O40: hardware reset leaves IDLE with no session. -/
theorem invariantAtReset : Obligations.InvariantAtReset := by
  unfold Obligations.InvariantAtReset
  exact ⟨noSession_hardReset State.reset, rfl⟩

/-- Settles O9: whenever the reset input comes, the step is a hardware reset, of a state that has only OUT and the
pending answers changed. -/
theorem resetInputAbandonsSession : Obligations.ResetInputAbandonsSession := by
  unfold Obligations.ResetInputAbandonsSession
  intro s hs
  obtain ⟨u, hstep, hsrc, hmax, hreset, hinStart, hother⟩ := step_of_resetComes hs
  refine ⟨_, hstep, rfl, rfl, noSession_hardReset u, entry_hardReset u, hsrc, hmax, fun h => ?_, hinStart, hother⟩
  obtain rfl := hreset h
  exact ⟨rfl, rfl, rfl, rfl⟩

end Sys2Proof.Machine
end

section
/-! The three reads by what the source answers, and what they leave alone (41_code_reader.md R121 to R123, R126). -/

namespace Sys2Proof.Machine

/-! ## A read that fails -/

theorem srcRead_failed {n : Nat} {s : State} (h : ¬ReadOk s) : (srcRead n s).1 = .fail := by
  have hat : ∀ (k : Nat) (u : State), srcAnswer u = srcAnswer s → (srcReadAt n k u).1 = .fail := by
    intro k u hu
    rcases ha : srcAnswer s with _ | j
    · exact absurd ha h
    · rw [srcReadAt_fail (hu.trans ha)]
  unfold srcRead
  split
  · exact hat _ _ rfl
  · exact hat _ s.drawn rfl

theorem rdEven_failed {s : State} (h : ¬ReadOk s) : rdEven s = .raise .read (srcRead 2 s).2 := by
  rw [rdEven, srcRead_failed h]
  rfl

theorem rdOdd_failed {s : State} (h : ¬ReadOk s) : ∃ u, rdOdd s = .raise .read u := by
  obtain ⟨b, d, hb, -⟩ := readPend_spec s
  have hok : ¬ReadOk { s with draws := d } := h
  refine ⟨(srcRead 1 { s with draws := d }).2, ?_⟩
  simp only [rdOdd, hb, srcRead_failed hok]
  rfl

/-- A failed read of a code is ReadError, whatever PHASE and PEND hold. -/
theorem rdCode_failed {s : State} (h : ¬ReadOk s) : ∃ u, rdCode s = .raise .read u := by
  obtain ⟨d, -, ⟨-, he⟩ | ⟨-, he⟩⟩ := rdCode_cases s
  · exact ⟨_, he.trans (rdEven_failed (s := { s with draws := d }) h)⟩
  · obtain ⟨u, hu⟩ := rdOdd_failed (s := { s with draws := d }) h
    exact ⟨u, he.trans hu⟩

/-! ## A read that finds bytes, with SPOS at k -/

theorem sourceBytes_of_drop {src bytes : List Byte} {k : Nat} (h : src.drop k = bytes) (n : Nat) :
    sourceBytes src k n = bytes.take n :=
  congrArg (List.take n) h

section Found

variable {s : State} {k : Nat} (hk : s.spos = some k) (hok : ReadOk s)
include hk hok

theorem rdEven_two {b0 b1 : Byte} (h : sourceBytes s.src k 2 = [b0, b1]) :
    rdEven s = .ok (some (assembleEven b0 b1))
      { s with srcAns := s.srcAns.tail, spos := some (k + 2), pend := some b1, phase := some .odd } := by
  rw [rdEven, srcRead_some hk, srcReadAt_bytes hok, h]
  rfl

theorem rdEven_stray {b : Byte} (h : sourceBytes s.src k 2 = [b]) :
    rdEven s = .raise .read { s with srcAns := s.srcAns.tail, spos := some (k + 1) } := by
  rw [rdEven, srcRead_some hk, srcReadAt_bytes hok, h]
  rfl

theorem rdEven_end (h : s.src.length ≤ k) :
    rdEven s = .ok none { s with srcAns := s.srcAns.tail, spos := some k } := by
  rw [rdEven, srcRead_some hk, srcReadAt_bytes hok, (sourceBytes_nil (by decide)).2 h]
  rfl

theorem rdOdd_one {pend b2 : Byte} (hp : s.pend = some pend) (h : sourceBytes s.src k 1 = [b2]) :
    rdOdd s = .ok (some (assembleOdd pend b2))
      { s with srcAns := s.srcAns.tail, spos := some (k + 1), pend := none, phase := some .even } := by
  rw [rdOdd_pend hp, srcRead_some hk, srcReadAt_bytes hok, h]
  rfl

theorem rdOdd_end {pend : Byte} (hp : s.pend = some pend) (h : s.src.length ≤ k) :
    rdOdd s = .ok none { s with srcAns := s.srcAns.tail, spos := some k } := by
  rw [rdOdd_pend hp, srcRead_some hk, srcReadAt_bytes hok, (sourceBytes_nil (by decide)).2 h]
  rfl

end Found

/-- One byte short of the end there is one byte. -/
theorem sourceBytes_last {src : List Byte} {k : Nat} (h : src.length = k + 1) : ∃ b, sourceBytes src k 2 = [b] := by
  rw [← List.length_eq_one_iff, length_sourceBytes]
  omega

/-- While PHASE has no value a read of a code is the read of a free phase. -/
theorem rdCode_free_even {s : State} (h : s.phase = none) (hfree : Config.freePhase s.draws = .even) :
    rdCode s = rdEven s.drawn := by
  simp [rdCode, readPhase, h, hfree]

theorem rdCode_free_odd {s : State} (h : s.phase = none) (hfree : Config.freePhase s.draws = .odd) :
    rdCode s = rdOdd s.drawn := by
  simp [rdCode, readPhase, h, hfree]

/-! ## The reads as instructions -/

theorem exec_rdEven_of_ok {r : Option Code} {s t : State} (h : rdEven s = .ok r t) :
    exec .rdEven s = .next { t with ret := readValue r } :=
  Res.outcome_next.2 (.inl ⟨r, t, h, rfl⟩)

theorem exec_rdOdd_of_ok {r : Option Code} {s t : State} (h : rdOdd s = .ok r t) :
    exec .rdOdd s = .next { t with ret := readValue r } :=
  Res.outcome_next.2 (.inl ⟨r, t, h, rfl⟩)

/-- A read that has changed nothing of the state but the reader's registers and the source's answers. -/
def ReadFrame (s t : State) : Prop :=
  ∃ a j d p ph, t = { s with srcAns := a, spos := j, draws := d, pend := p, phase := ph }

/-- The read answers, within its frame: a code or `none`, or ReadError. -/
def Res.Reads (s : State) (x : Res (Option Code)) : Prop :=
  (∃ r t, x = .ok r t ∧ ReadFrame s t) ∨ ∃ t, x = .raise .read t ∧ ReadFrame s t

theorem rdEven_reads (s : State) : (rdEven s).Reads s := by
  obtain ⟨r, j, d, p, ph, he, -⟩ | ⟨j, d, he⟩ := rdEven_spec s
  · exact .inl ⟨r, _, he, _, _, _, _, _, rfl⟩
  · exact .inr ⟨_, he, _, _, _, _, _, rfl⟩

theorem rdOdd_reads (s : State) : (rdOdd s).Reads s := by
  obtain ⟨r, j, d, p, ph, he, -⟩ | ⟨j, d, he⟩ := rdOdd_spec s
  · exact .inl ⟨r, _, he, _, _, _, _, _, rfl⟩
  · exact .inr ⟨_, he, _, _, _, _, _, rfl⟩

theorem rdCode_reads (s : State) : (rdCode s).Reads s := by
  obtain ⟨r, j, d, p, ph, he, -⟩ | ⟨j, d, he⟩ := rdCode_spec s
  · exact .inl ⟨r, _, he, _, _, _, _, _, rfl⟩
  · exact .inr ⟨_, he, _, _, _, _, _, rfl⟩

/-- RD.CODE, RD.EVEN and RD.ODD answer in every state: a value, within the reader's frame, or Finish(ReadError). -/
theorem exec_read {i : Instr} (hi : i = .rdCode ∨ i = .rdEven ∨ i = .rdOdd) (s : State) :
    ∃ u, ReadFrame s u ∧
      ((∃ r, exec i s = .next { u with ret := readValue r }) ∨ exec i s = .next (u.finish (.error .read))) := by
  have hreads : ∃ x : Res (Option Code), x.Reads s ∧ exec i s = x.outcome readValue := by
    obtain rfl | rfl | rfl := hi
    · exact ⟨_, rdCode_reads s, rfl⟩
    · exact ⟨_, rdEven_reads s, rfl⟩
    · exact ⟨_, rdOdd_reads s, rfl⟩
  obtain ⟨x, ⟨r, u, rfl, hu⟩ | ⟨u, rfl, hu⟩, he⟩ := hreads
  · exact ⟨u, hu, .inl ⟨r, he⟩⟩
  · exact ⟨u, hu, .inr he⟩

/-- A failed read as an instruction: Finish(ReadError), and OUT as it was. -/
theorem exec_read_raise {x : Res (Option Code)} {s u : State} (hx : x.Reads s) (h : x = .raise .read u) :
    ∃ t, x.outcome readValue = .next t ∧ t.mode = .done ∧ t.err = .error .read ∧ t.out = s.out := by
  obtain ⟨r, v, hv, -⟩ | ⟨v, rfl, a, j, d, p, ph, rfl⟩ := hx
  · cases h.symm.trans hv
  · exact ⟨_, rfl, rfl, rfl, rfl⟩

/-! ## The statements -/

/-- Settles O26: the even read by the number of bytes the source finds at SPOS, and by its failure. -/
theorem evenRead : Obligations.EvenRead := by
  unfold Obligations.EvenRead
  refine fun s k hk =>
    ⟨fun b0 b1 hok h0 h1 => ?code, fun hok hend => ?none, fun hok hlast => ?stray, fun hfail => ?fail⟩
  case code => exact exec_rdEven_of_ok (rdEven_two hk hok (sourceBytes_two h0 h1))
  case none =>
    rw [exec_rdEven_of_ok (rdEven_end hk hok hend), ← hk]
    rfl
  case stray =>
    obtain ⟨b, hb⟩ := sourceBytes_last hlast
    exact exec_read_raise (rdEven_reads s) (rdEven_stray hk hok hb)
  case fail => exact exec_read_raise (rdEven_reads s) (rdEven_failed hfail)

/-- Settles O27: the odd read by the number of bytes the source finds at SPOS, and by its failure. -/
theorem oddRead : Obligations.OddRead := by
  unfold Obligations.OddRead
  refine fun s k pend hp hk => ⟨fun b2 hok h => ?code, fun hok hend => ?none, fun hfail => ?fail⟩
  case code => exact exec_rdOdd_of_ok (rdOdd_one hk hok hp (sourceBytes_one h))
  case none =>
    rw [exec_rdOdd_of_ok (rdOdd_end hk hok hp hend), ← hk]
    rfl
  case fail =>
    obtain ⟨u, hu⟩ := rdOdd_failed hfail
    exact exec_read_raise (rdOdd_reads s) hu

/-- Settles O28: RD.CODE looks at PHASE, or at the free phase drawn in its place; every read answers. -/
theorem readCodeFollowsPhase : Obligations.ReadCodeFollowsPhase := by
  unfold Obligations.ReadCodeFollowsPhase
  refine fun s => ⟨exec_rdCode_of_even, fun h => congrArg (Res.outcome readValue) (rdCode_odd h), fun h => ?free,
    fun i hi => ?answers⟩
  case free =>
    cases hfree : Config.freePhase s.draws with
    | even => exact .inl (congrArg (Res.outcome readValue) (rdCode_free_even h hfree))
    | odd => exact .inr (congrArg (Res.outcome readValue) (rdCode_free_odd h hfree))
  case answers =>
    obtain ⟨u, -, ⟨_ | c, he⟩ | he⟩ := exec_read hi s
    · exact ⟨_, he, .inr (.inl rfl)⟩
    · exact ⟨_, he, .inl ⟨c, rfl⟩⟩
    · exact ⟨_, he, .inr (.inr ⟨rfl, rfl⟩)⟩

/-- Settles O29: every read stays within the reader's frame, and so does what it leaves to Finish. -/
theorem readerFrame : Obligations.ReaderFrame := by
  unfold Obligations.ReaderFrame
  intro i s t hi h
  rcases hi with rfl | hi
  · rw [exec_rdInit] at h
    cases h
    exact ⟨rfl, rfl, rfl, rfl, rfl, rfl, rfl, .inr ⟨rfl, rfl, rfl, rfl, rfl⟩⟩
  · obtain ⟨u, ⟨a, j, d, p, ph, rfl⟩, ⟨r, he⟩ | he⟩ := exec_read hi s <;> cases he.symm.trans h
    · exact ⟨rfl, rfl, rfl, rfl, rfl, rfl, rfl, .inr ⟨rfl, rfl, rfl, rfl, rfl⟩⟩
    · exact ⟨rfl, rfl, rfl, rfl, rfl, rfl, rfl, .inl ⟨rfl, rfl, noSession_finish _ _⟩⟩

end Sys2Proof.Machine
end

section
/-! Registers without a value are read as free values (10_state.md R26 to R29, 93_implementation_defined.md U4 to
U6). -/

namespace Sys2Proof.Machine

/-! ## Updates -/

/-- The source standing at offset k. -/
def State.atOffset (k : Nat) (s : State) : State := { s with spos := some k }

/-- x in PEND. -/
def State.withPend (x : Option Byte) (s : State) : State := { s with pend := x }

/-- What a read at a free offset leaves: SPOS stays without a value, and one value more has been drawn. -/
def State.sposFree (s : State) : State := { s with spos := none, draws := s.draws + 1 }

/-- As an instruction, an operation whose state is changed by f afterwards answers with f. -/
theorem Res.outcome_mapState {α : Type} {ret : α → Ret} {f : State → State} {x : Res α} {t : State}
    (hret : ∀ s r, { f s with ret := r } = f { s with ret := r })
    (hfinish : ∀ s e, (f s).finish (.error e) = f (s.finish (.error e))) (h : x.outcome ret = .next t) :
    (x.mapState f).outcome ret = .next (f t) := by
  obtain ⟨a, s, rfl, rfl⟩ | ⟨e, s, rfl, rfl⟩ := Res.outcome_next.1 h
  · exact congrArg Host.Outcome.next (hret s (ret a))
  · exact congrArg Host.Outcome.next (hfinish s e)

theorem outcome_sposFree {α : Type} {ret : α → Ret} {x y : Res α} {t : State} (hxy : y = x.mapState State.sposFree)
    (h : x.outcome ret = .next t) : y.outcome ret = .next t.sposFree :=
  hxy ▸ Res.outcome_mapState (fun _ _ => rfl) (fun _ _ => rfl) h

/-! ## SPOS -/

theorem srcRead_none {n : Nat} {s : State} (h : s.spos = none) :
    srcRead n s =
      ((srcReadAt n (Config.freeOffset s.draws) s.drawn).1,
        { (srcReadAt n (Config.freeOffset s.draws) s.drawn).2 with spos := none }) := by
  simp [srcRead, h]

/-- Without SPOS the source is read as it would be at a free offset. -/
theorem srcRead_without_spos {n : Nat} {s : State} (h : s.spos = none) :
    srcRead n s =
      ((srcRead n (s.atOffset (Config.freeOffset s.draws))).1,
        (srcRead n (s.atOffset (Config.freeOffset s.draws))).2.sposFree) := by
  rw [srcRead_none h, srcRead_some (s := s.atOffset (Config.freeOffset s.draws)) rfl]
  rcases ha : srcAnswer s with _ | j
  · rw [srcReadAt_bytes (s := s.drawn) ha, srcReadAt_bytes (s := s.atOffset _) ha]
    rfl
  · rw [srcReadAt_fail (s := s.drawn) ha, srcReadAt_fail (s := s.atOffset _) ha]
    rfl

theorem evenAnswer_sposFree (r : SrcOut) (s : State) :
    evenAnswer r s.sposFree = (evenAnswer r s).mapState State.sposFree := by
  rcases r with (_ | ⟨b0, _ | ⟨b1, l⟩⟩) | _ <;> rfl

theorem oddAnswer_sposFree (b : Byte) (r : SrcOut) (s : State) :
    oddAnswer b r s.sposFree = (oddAnswer b r s).mapState State.sposFree := by
  rcases r with (_ | ⟨b2, l⟩) | _ <;> rfl

theorem rdEven_without_spos {s : State} (h : s.spos = none) :
    ∃ k, rdEven s = (rdEven (s.atOffset k)).mapState State.sposFree := by
  refine ⟨Config.freeOffset s.draws, ?_⟩
  rw [rdEven, srcRead_without_spos h, evenAnswer_sposFree]
  rfl

/-- Without PEND the odd read completes a free byte. -/
theorem rdOdd_none {s : State} (h : s.pend = none) :
    rdOdd s = oddAnswer (Config.freePend s.draws) (srcRead 1 s.drawn).1 (srcRead 1 s.drawn).2 := by
  simp [rdOdd, readPend, h]

theorem rdOdd_without_spos {s : State} (h : s.spos = none) :
    ∃ k, rdOdd s = (rdOdd (s.atOffset k)).mapState State.sposFree := by
  rcases Option.eq_none_or_eq_some s.pend with hp | ⟨b, hp⟩
  · refine ⟨Config.freeOffset s.drawn.draws, ?_⟩
    rw [rdOdd_none hp, rdOdd_none (s := s.atOffset _) hp, srcRead_without_spos (s := s.drawn) h, oddAnswer_sposFree]
    rfl
  · refine ⟨Config.freeOffset s.draws, ?_⟩
    rw [rdOdd_pend hp, rdOdd_pend (s := s.atOffset _) hp, srcRead_without_spos h, oddAnswer_sposFree]

theorem rdCode_without_spos {s : State} (h : s.spos = none) :
    ∃ k, rdCode s = (rdCode (s.atOffset k)).mapState State.sposFree := by
  rcases Option.eq_none_or_eq_some s.phase with hp | ⟨_ | _, hp⟩
  · cases hfree : Config.freePhase s.draws with
    | even =>
      obtain ⟨k, hk⟩ := rdEven_without_spos (s := s.drawn) h
      exact ⟨k, by rw [rdCode_free_even hp hfree, hk, rdCode_free_even (s := s.atOffset k) hp hfree]; rfl⟩
    | odd =>
      obtain ⟨k, hk⟩ := rdOdd_without_spos (s := s.drawn) h
      exact ⟨k, by rw [rdCode_free_odd hp hfree, hk, rdCode_free_odd (s := s.atOffset k) hp hfree]; rfl⟩
  · obtain ⟨k, hk⟩ := rdEven_without_spos h
    exact ⟨k, by rw [rdCode_even hp, hk, rdCode_even (s := s.atOffset k) hp]⟩
  · obtain ⟨k, hk⟩ := rdOdd_without_spos h
    exact ⟨k, by rw [rdCode_odd hp, hk, rdCode_odd (s := s.atOffset k) hp]⟩

/-! ## PEND and PREV -/

theorem srcReadAt_withPend (n k : Nat) (x : Option Byte) (s : State) :
    srcReadAt n k (s.withPend x) = ((srcReadAt n k s).1, (srcReadAt n k s).2.withPend x) := by
  rcases ha : srcAnswer s with _ | j
  · rw [srcReadAt_bytes ha, srcReadAt_bytes (s := s.withPend x) ha]
    rfl
  · rw [srcReadAt_fail ha, srcReadAt_fail (s := s.withPend x) ha]
    rfl

/-- A read of the source does not look at PEND. -/
theorem srcRead_withPend (n : Nat) (x : Option Byte) (s : State) :
    srcRead n (s.withPend x) = ((srcRead n s).1, (srcRead n s).2.withPend x) := by
  rcases Option.eq_none_or_eq_some s.spos with hk | ⟨k, hk⟩
  · rw [srcRead_none hk, srcRead_none (s := s.withPend x) hk]
    exact congrArg (fun r => (r.1, { r.2 with spos := none }))
      (srcReadAt_withPend n (Config.freeOffset s.draws) x s.drawn)
  · rw [srcRead_some hk, srcRead_some (s := s.withPend x) hk, srcReadAt_withPend]

/-- The odd read with b in PEND. -/
theorem rdOdd_withPend (b : Byte) (s : State) :
    rdOdd (s.withPend (some b)) = oddAnswer b (srcRead 1 s).1 ((srcRead 1 s).2.withPend (some b)) := by
  rw [rdOdd_pend (s := s.withPend (some b)) rfl, srcRead_withPend]

/-- What the odd read answers is the same whatever PEND keeps of it. -/
theorem oddAnswer_withPend (b : Byte) (x : Option Byte) (r : SrcOut) (s : State) :
    (oddAnswer b r (s.withPend x)).mapState (State.withPend none) = oddAnswer b r (s.withPend none) := by
  rcases r with (_ | ⟨b2, l⟩) | _ <;> rfl

/-- Without PEND the odd read is that of a free byte, which PEND does not keep. -/
theorem rdOdd_without_pend {s : State} (h : s.pend = none) :
    rdOdd s = (rdOdd (s.drawn.withPend (some (Config.freePend s.draws)))).mapState (State.withPend none) := by
  have hnone : s.drawn = s.drawn.withPend none := by rw [State.withPend, ← h]; rfl
  rw [rdOdd_withPend, oddAnswer_withPend, rdOdd_none h]
  nth_rw 1 2 [hnone]
  rw [srcRead_withPend]

/-- Without PREV, DEC.HIT and DEC.KWK run on a free phrase. -/
theorem exec_without_prev {s : State} (hm : s.mode = .steady) (h : s.prev = none) {i : Instr} {c : Code}
    (hi : HitRow i c ∨ i = .decKwk c) :
    exec i s = exec i { s with prev := some (Config.freePrev s.draws), draws := s.draws + 1 } := by
  have hm' : { s with prev := some (Config.freePrev s.draws), draws := s.draws + 1 }.mode = .steady := hm
  have hread : readPrev s = (Config.freePrev s.draws, s.drawn) := by simp [readPrev, h]
  have hread' := readPrev_some (s := { s with prev := some (Config.freePrev s.draws), draws := s.draws + 1 }) rfl
  rcases hi with hi | rfl
  · rw [exec_hitRow hi, exec_hitRow hi, decHit, decHit, if_neg (not_not.2 hm), if_neg (not_not.2 hm'), hread, hread']
    exact (hitBody_prev _ c (some (Config.freePrev s.draws)) s.drawn).symm
  · rw [exec_decKwk, exec_decKwk, decKwk, decKwk, if_neg (not_not.2 hm), if_neg (not_not.2 hm'), hread, hread']
    exact (kwkBody_prev _ c (some (Config.freePrev s.draws)) s.drawn).symm

/-! ## The statements -/

/-- Settles O53: the free offset drawn is the offset at which the read runs. -/
theorem readWithoutSposIsFree : Obligations.ReadWithoutSposIsFree := by
  unfold Obligations.ReadWithoutSposIsFree
  intro s i h hi
  obtain rfl | rfl | rfl := hi
  · obtain ⟨k, hk⟩ := rdCode_without_spos h
    exact ⟨k, fun t ht => outcome_sposFree hk ht⟩
  · obtain ⟨k, hk⟩ := rdEven_without_spos h
    exact ⟨k, fun t ht => outcome_sposFree hk ht⟩
  · obtain ⟨k, hk⟩ := rdOdd_without_spos h
    exact ⟨k, fun t ht => outcome_sposFree hk ht⟩

/-- Settles O54: the free byte and the free phrase drawn are what the operations run on. -/
theorem absentOperandsAreFree : Obligations.AbsentOperandsAreFree := by
  unfold Obligations.AbsentOperandsAreFree
  refine fun s => ⟨fun h => ⟨Config.freePend s.draws, fun t ht => ?pend⟩, fun hm h => ?prev⟩
  case pend =>
    have hout : ((rdOdd _).mapState (State.withPend none)).outcome readValue = .next (t.withPend none) :=
      Res.outcome_mapState (fun _ _ => rfl) (fun _ _ => rfl) ht
    exact (congrArg (Res.outcome readValue) (rdOdd_without_pend h)).trans hout
  case prev => exact ⟨Config.freePrev s.draws, fun i c hi => exec_without_prev hm h hi⟩

end Sys2Proof.Machine
end

section
/-! The step in a session by what its read answers (42_decode_loop.md R142, 60_exceptions.md R175, R176). -/

namespace Sys2Proof.Machine

theorem rdCode_mode {s u : State} {r : Option Code} (h : rdCode s = .ok r u) : u.mode = s.mode := by
  obtain ⟨j, d, p, ph, rfl⟩ := rdCode_frame h
  rfl

/-- Two sessions whose reads answer the same, in the same state, take the same step. -/
theorem step_congr_of_read {s t : State} (hs : Quiet s) (ht : Quiet t) (hbs : s.busy = true) (hbt : t.busy = true)
    (h : rdCode s.dropInput = rdCode t.dropInput) : step s = step t := by
  have hbs' : s.dropInput.busy = true := hbs
  have hbt' : t.dropInput.busy = true := hbt
  have hs' : hostInput s = .quiet := hs
  have ht' : hostInput t = .quiet := ht
  simp [step, plan, hs', ht', planQuiet, hbs', hbt', planCode, h]

/-- The result of a session whose codes end cleanly: a first code is required (R143, R146). -/
def endResult (mode : Mode) : Result := if mode = .steady then .ok else .error .invalidFormat

theorem exec_decBootEmpty {s : State} (hm : s.mode = .boot) :
    exec .decBootEmpty s = .next (s.finish (.error .invalidFormat)) := by
  simp [exec, execDecBootEmpty, decBoot, hm, Res.outcome]

/-- A step whose read finds the clean end ends the session. -/
theorem step_end {s u : State} (hq : Quiet s) (hb : s.busy = true) (hr : rdCode s.dropInput = .ok none u) :
    step s = .next (u.finish (endResult s.mode)) := by
  have hmode : u.mode = s.mode := rdCode_mode (s := s.dropInput) hr
  have hnot : comparesNext u.mode none = false := by cases u.mode <;> rfl
  obtain hm | hm := (busy_iff s).1 hb
  · have hu : u.mode = .boot := hmode.trans hm
    rw [step_code_any (i := .decBootEmpty) hq hb hr hnot fun n => by rw [hu]; rfl, exec_decBootEmpty hu, hm]
    rfl
  · have hu : u.mode = .steady := hmode.trans hm
    rw [step_code_any (i := .decEnd) hq hb hr hnot fun n => by rw [hu]; rfl, exec_decEnd hu, hm]
    rfl

/-- A step whose read raises ends the session with ReadError. -/
theorem step_readError {s u : State} {e : ErrKind} (hq : Quiet s) (hb : s.busy = true)
    (hr : rdCode s.dropInput = .raise e u) : step s = .next (u.finish (.error .read)) := by
  obtain ⟨rfl, j, d, rfl⟩ := rdCode_raise hr
  rw [step_raise hq hb hr]
  exact exec_decAbort (s := { s.dropInput with srcAns := _, spos := j, draws := d }) hb rfl

/-- A step of a session, by its read: the row selected for what it returned, or Finish(ReadError). -/
theorem step_session {s t : State} (hq : Quiet s) (hb : s.busy = true) (h : step s = .next t) :
    (∃ r u, rdCode s.dropInput = .ok r u ∧
      ((s.mode = .boot ∧ exec (selectBoot r) u = .next t) ∨
        (s.mode = .steady ∧ ∃ n, exec (selectSteady n r) u = .next t))) ∨
      ∃ u, rdCode s.dropInput = .raise .read u ∧ t = u.finish (.error .read) := by
  have hi : hostInput s = .quiet := hq
  obtain ⟨h', -⟩ | ⟨h', -⟩ | ⟨h', -⟩ | ⟨ops, bytes, h', -⟩ | ⟨src, h', -⟩ | ⟨-, hwait, -⟩ | ⟨-, -, hcode⟩ :=
    step_cases h
  · cases hi.symm.trans h'
  · cases hi.symm.trans h'
  · cases hi.symm.trans h'
  · cases hi.symm.trans h'
  · cases hi.symm.trans h'
  · cases hb.symm.trans hwait
  obtain ⟨r, u, hr, hm, he⟩ | ⟨r, u, n, hr, -, hm, he⟩ | ⟨e, u, hr, -⟩ := hcode
  · exact .inl ⟨r, u, hr, .inl ⟨hm, he⟩⟩
  · exact .inl ⟨r, u, hr, .inr ⟨hm, n, he⟩⟩
  · obtain ⟨rfl, -⟩ := rdCode_raise hr
    cases (step_readError hq hb hr).symm.trans h
    exact .inr ⟨u, hr, rfl⟩

/-- Finish discards PEND. -/
theorem finish_withPend (s : State) (b : Option Byte) (x : Result) : (s.withPend b).finish x = s.finish x := rfl

/-- Only bits 3 to 0 of PEND enter a code. -/
theorem assembleOdd_congr {a b : Byte} (h : a.toNat % 16 = b.toNat % 16) (b2 : Byte) :
    assembleOdd a b2 = assembleOdd b b2 := by
  rw [assembleOdd_eq_ofNat, assembleOdd_eq_ofNat, h]

theorem sourceBytes_exhausted {src : List Byte} {k : Nat} (h : src.length ≤ k) (n : Nat) :
    sourceBytes src k n = [] := by
  rw [sourceBytes, List.drop_eq_nil_of_le h, List.take_nil]

/-- Past the end of the source a read finds no byte. -/
theorem srcRead_exhausted {n k : Nat} {s : State} {b : Byte} {l : List Byte} (hk : s.spos = some k)
    (hend : s.src.length ≤ k) : (srcRead n s).1 ≠ .bytes (b :: l) := by
  rw [srcRead_some hk]
  rcases ha : srcAnswer s with _ | j
  · rw [srcReadAt_bytes ha]
    simp [(sourceBytes_exhausted hend)]
  · simp [srcReadAt_fail ha]

/-- The read of a code in ODD with b in PEND. -/
theorem rdCode_odd_withPend {s : State} (b : Byte) (hp : s.phase = some .odd) :
    rdCode (s.withPend (some b)) = oddAnswer b (srcRead 1 s).1 ((srcRead 1 s).2.withPend (some b)) := by
  rw [rdCode_odd (s := s.withPend (some b)) hp, rdOdd_withPend]

/-! ## The statements -/

/-- Settles O6: the decoder and the read look at the same bytes, so the row the decoder answers is the one selected. -/
theorem stepRunsDecodedInstruction : Obligations.StepRunsDecodedInstruction := by
  unfold Obligations.StepRunsDecodedInstruction
  intro s n ph k m pend i hq hok hn hph hk hp h
  have hbusy : ∀ {r j}, select s.mode n r = .ok j → s.busy = true := fun hj => (busy_iff s).2 (select_mode hj)
  generalize hbytes : s.src.drop k = bytes at h ⊢
  have hend : bytes = [] → s.src.length ≤ k := fun hnil => List.drop_eq_nil_iff.1 (hbytes.trans hnil)
  have hsource := sourceBytes_of_drop hbytes
  unfold decode at h
  split at h <;> obtain ⟨j, hj, hi⟩ := map_eq_ok h <;> cases hi
  · have hr := (rdCode_even (s := s.dropInput) hph).trans (rdEven_end (s := s.dropInput) hk hok (hend rfl))
    exact step_code hq (hbusy hj) hr hn hj
  · have hr := (rdCode_even (s := s.dropInput) hph).trans (rdEven_stray (s := s.dropInput) hk hok (hsource 2))
    exact step_raise hq (hbusy hj) hr
  · have hr := (rdCode_even (s := s.dropInput) hph).trans (rdEven_two (s := s.dropInput) hk hok (hsource 2))
    exact step_code hq (hbusy hj) hr hn hj
  · have hr := (rdCode_odd (s := s.dropInput) hph).trans (rdOdd_end (s := s.dropInput) hk hok (hp rfl) (hend rfl))
    exact step_code hq (hbusy hj) hr hn hj
  · have hr := (rdCode_odd (s := s.dropInput) hph).trans (rdOdd_one (s := s.dropInput) hk hok (hp rfl) (hsource 1))
    exact step_code hq (hbusy hj) hr hn hj

/-- Settles O30: PEND enters a code by bits 3 to 0 alone, and where there is no code to come Finish discards it. -/
theorem pendingNibbleNoninterference : Obligations.PendingNibbleNoninterference := by
  unfold Obligations.PendingNibbleNoninterference
  intro s a b hb hph hab hq
  have hra := rdCode_odd_withPend (s := s.dropInput) a hph
  have hrb := rdCode_odd_withPend (s := s.dropInput) b hph
  have hstep : step (s.withPend (some a)) = step (s.withPend (some b)) := by
    rcases hsrc : (srcRead 1 s.dropInput).1 with (_ | ⟨b2, l⟩) | _ <;> rw [hsrc] at hra hrb
    · rw [step_end (s := s.withPend (some a)) hq hb hra, step_end (s := s.withPend (some b)) hq hb hrb, finish_withPend,
        finish_withPend]
      rfl
    · have hnibble : a.toNat % 16 = b.toNat % 16 := by
        rcases hab with h | ⟨k, hk, hend⟩
        · exact h
        · exact absurd hsrc (srcRead_exhausted (s := s.dropInput) hk hend)
      refine step_congr_of_read (s := s.withPend _) (t := s.withPend _) hq hq hb hb (hra.trans (Eq.trans ?_ hrb.symm))
      simp only [oddAnswer, assembleOdd_congr hnibble]
      rfl
    · rw [step_readError (s := s.withPend (some a)) hq hb hra, step_readError (s := s.withPend (some b)) hq hb hrb,
        finish_withPend, finish_withPend]
  exact hstep

/-- Settles O39: the read comes first in a step, and one that raises leaves OUT and the other answers as they were. -/
theorem readErrorComesFirst : Obligations.ReadErrorComesFirst := by
  unfold Obligations.ReadErrorComesFirst
  intro s k hq hb hk hbad
  have hraise : ∃ e u, rdCode s.dropInput = .raise e u := by
    by_cases hok : ReadOk s
    · obtain ⟨hph, hlast⟩ := hbad.resolve_left (not_not.2 hok)
      obtain ⟨b, hbyte⟩ := sourceBytes_last hlast
      exact ⟨_, _, (rdCode_even (s := s.dropInput) hph).trans (rdEven_stray (s := s.dropInput) hk hok hbyte)⟩
    · obtain ⟨u, hu⟩ := rdCode_failed (s := s.dropInput) hok
      exact ⟨_, u, hu⟩
  obtain ⟨e, u, hr⟩ := hraise
  refine ⟨_, step_readError hq hb hr, rfl, rfl, ?_⟩
  obtain ⟨-, j, d, rfl⟩ := rdCode_raise hr
  exact ⟨rfl, rfl, rfl⟩

end Sys2Proof.Machine
end

section
/-! The phrase write and the decode steps by what the sink and the storage answer, and their frame
(42_decode_loop.md R143 to R148). -/

namespace Sys2Proof.Machine

/-! ## The phrase write -/

/-- A write the sink does not take whole raises with as much in OUT as the sink's answer says. -/
theorem snkWrite_not_full {p : Phrase} {s : State} {a : SinkAns} (ha : sinkAnswer p.bytes.length s = a)
    (hfull : a.full p.bytes.length = false) :
    snkWrite p s = .raise .write
      { s with sinkAns := s.sinkAns.tail, out := s.out ++ p.bytes.take (a.count p.bytes.length) } := by
  subst ha
  exact snkWrite_raise.2 ⟨hfull, rfl, rfl⟩

theorem take_count (p : Phrase) (k : Nat) : p.bytes.take (min k p.bytes.length) = p.bytes.take k :=
  List.take_eq_take_min.symm

/-! ## The decode steps as instructions -/

/-- In BOOT a literal first code: write its byte, then PREV is that byte and MODE is STEADY. -/
theorem exec_decBoot {s : State} (hm : s.mode = .boot) (b : Byte) :
    exec (.decBoot b) s =
      ((snkWrite (single b) s).andThen fun _ u =>
        .ok () { u with prev := some (single b), mode := .steady }).outcome noValue := by
  simp [exec, execDecBoot, decBoot, hm]

theorem exec_decBootInvalid {s : State} (hm : s.mode = .boot) {c : Code} (hc : 256 ≤ c.toNat) :
    exec (.decBootInvalid c) s = .next (s.finish (.error .invalidFormat)) := by
  simp [exec, execDecBootInvalid, decBoot, hm, isLiteral_false hc, Res.outcome]

/-- A KwKwK step in STEADY, with q in PREV: add `q ++ [q[0]]`, write it, then it is PREV. -/
theorem exec_kwk {s : State} {c : Code} {n : Next} {q : Phrase} (hm : s.mode = .steady) (hq : s.prev = some q)
    (hn : s.next = some n) (h1 : 256 ≤ n.toNat) (hc : n.toNat ≤ c.toNat) :
    exec (.decKwk c) s =
      ((dictAdd (kwkPhrase q) s).andThen fun _ u =>
        (snkWrite (kwkPhrase q) u).andThen fun _ v =>
          .ok () { v with prev := some (kwkPhrase q) }).outcome noValue := by
  have hbody : decKwk c s = kwkBody q c s := by simp [decKwk, hm, readPrev_some hq]
  have habsent : dictContains c s = .ok false s :=
    dictContains_ok.2 ⟨rfl, .inr ⟨isLiteral_false (h1.trans hc), n, hn, isHit_false hc⟩⟩
  rw [exec_decKwk, hbody, kwkBody, habsent]
  rfl

/-! ## The frame -/

/-- What the body of a decode step may change: OUT, the dictionary, PREV and MODE, and the answers it uses up. -/
def LoopFrame (s t : State) : Prop :=
  ∃ a o l m n q md, t = { s with sinkAns := a, out := o, allocAns := l, ent := m, next := n, prev := q, mode := md }

theorem LoopFrame.refl (s : State) : LoopFrame s s := ⟨_, _, _, _, _, _, _, rfl⟩

theorem sinkPut_loopFrame (p : Phrase) (s : State) : LoopFrame s (sinkPut p s).2 := ⟨_, _, _, _, _, _, _, rfl⟩

theorem snkWrite_loopFrame (p : Phrase) (s : State) : (snkWrite p s).EndsIn (LoopFrame s) := by
  refine Res.endsIn_iff.2 ⟨fun a t h => ?_, fun e t h => ?_⟩
  · obtain ⟨-, rfl⟩ := snkWrite_ok.1 h
    exact sinkPut_loopFrame p s
  · obtain ⟨-, -, rfl⟩ := snkWrite_raise.1 h
    exact sinkPut_loopFrame p s

theorem decBoot_loopFrame (r : Option Code) (s : State) : (decBoot r s).EndsIn (LoopFrame s) := by
  refine Res.endsIn_iff.2 ⟨fun a t h => ?_, fun e t h => ?_⟩
  · obtain ⟨-, c, -, -, rfl⟩ := decBoot_ok h
    exact ⟨_, _, _, _, _, _, _, rfl⟩
  · obtain ⟨-, ⟨-, rfl, -⟩ | ⟨c, -, -, -, -, rfl⟩⟩ := decBoot_raise h
    · exact .refl t
    · exact sinkPut_loopFrame _ s

theorem hitBody_loopFrame (q : Phrase) (c : Code) (s : State) : (hitBody q c s).EndsIn (LoopFrame s) := by
  refine Res.endsIn_iff.2 ⟨fun a t h => ?_, fun e t h => ?_⟩
  · obtain ⟨p, n, -, -, -, r, u, hadd, rfl⟩ := hitBody_ok h
    obtain ⟨m, k, rfl⟩ := dictAdd_frame hadd
    exact ⟨_, _, _, _, _, _, _, rfl⟩
  · obtain ⟨p, -, -, ⟨-, -, rfl⟩ | hadd⟩ := hitBody_raise h
    · exact sinkPut_loopFrame p s
    · obtain ⟨-, l, m, k, rfl⟩ := dictAdd_raise hadd
      exact ⟨_, _, _, _, _, _, _, rfl⟩

theorem kwkBody_loopFrame (q : Phrase) (c : Code) (s : State) : (kwkBody q c s).EndsIn (LoopFrame s) := by
  refine Res.endsIn_iff.2 ⟨fun a t h => ?_, fun e t h => ?_⟩
  · obtain ⟨n, -, -, -, r, u, hadd, rfl⟩ := kwkBody_ok h
    obtain ⟨m, k, rfl⟩ := dictAdd_frame hadd
    exact ⟨_, _, _, _, _, _, _, rfl⟩
  · obtain ⟨n, -, -, -, hadd | ⟨r, u, hadd, -, -, rfl⟩⟩ := kwkBody_raise h
    · obtain ⟨-, l, m, k, rfl⟩ := dictAdd_raise hadd
      exact ⟨_, _, _, _, _, _, _, rfl⟩
    · obtain ⟨m, k, rfl⟩ := dictAdd_frame hadd
      exact ⟨_, _, _, _, _, _, _, rfl⟩

/-- A hit stays in the frame, but for the draw of a free phrase while PREV has no value. -/
theorem decHit_loopFrame (c : Code) (s : State) :
    ∃ d, (decHit c s).EndsIn (LoopFrame { s with draws := d }) ∧ ∀ x, s.prev = some x → d = s.draws := by
  by_cases hm : s.mode = .steady
  · obtain ⟨q, d, he, hq⟩ := decHit_steady (c := c) hm
    exact ⟨d, he ▸ hitBody_loopFrame q c _, fun x hx => (hq x hx).2⟩
  · exact ⟨s.draws, decHit_wrongMode (c := c) hm ▸ Res.endsIn_stuck _, fun _ _ => rfl⟩

theorem decKwk_loopFrame (c : Code) (s : State) :
    ∃ d, (decKwk c s).EndsIn (LoopFrame { s with draws := d }) ∧ ∀ x, s.prev = some x → d = s.draws := by
  by_cases hm : s.mode = .steady
  · obtain ⟨q, d, he, hq⟩ := decKwk_steady (c := c) hm
    exact ⟨d, he ▸ kwkBody_loopFrame q c _, fun x hx => (hq x hx).2⟩
  · exact ⟨s.draws, decKwk_wrongMode (c := c) hm ▸ Res.endsIn_stuck _, fun _ _ => rfl⟩

/-- The rows of the decode loop, SNK.WRITE among them. -/
def LoopRow (i : Instr) : Prop :=
  (∃ b, i = .decBoot b) ∨ (∃ c, i = .decBootInvalid c) ∨ i = .decBootEmpty ∨ (∃ b, i = .decHitLit b) ∨
    (∃ c, i = .decHitRef c) ∨ (∃ c, i = .decKwk c) ∨ i = .decEnd ∨ (∃ e, i = .decAbort e) ∨ ∃ p, i = .snkWrite p

/-- A decode step ends within the frame, or by Finish from there; only a PREV without a value makes it draw. -/
theorem exec_loopRow {i : Instr} {s t : State} (hi : LoopRow i) (h : exec i s = .next t) :
    ∃ d, EndsOrFinishes (LoopFrame { s with draws := d }) t ∧ ∀ x, s.prev = some x → d = s.draws := by
  obtain ⟨b, rfl⟩ | ⟨c, rfl⟩ | rfl | ⟨b, rfl⟩ | ⟨c, rfl⟩ | ⟨c, rfl⟩ | rfl | ⟨e, rfl⟩ | ⟨p, rfl⟩ := hi
  · exact ⟨s.draws, (decBoot_loopFrame _ s).endsOrFinishes h, fun _ _ => rfl⟩
  · exact ⟨s.draws, (Res.EndsIn.ite (Res.endsIn_stuck _) (decBoot_loopFrame _ s)).endsOrFinishes h, fun _ _ => rfl⟩
  · exact ⟨s.draws, (decBoot_loopFrame _ s).endsOrFinishes h, fun _ _ => rfl⟩
  · obtain ⟨d, hends, hd⟩ := decHit_loopFrame (literalCode b) s
    exact ⟨d, hends.endsOrFinishes h, hd⟩
  · obtain ⟨d, hends, hd⟩ := decHit_loopFrame c s
    exact ⟨d, (Res.EndsIn.ite (Res.endsIn_stuck _) hends).endsOrFinishes h, hd⟩
  · obtain ⟨d, hends, hd⟩ := decKwk_loopFrame c s
    exact ⟨d, hends.endsOrFinishes h, hd⟩
  · refine ⟨s.draws, ⟨s, .refl s, .inr ⟨.ok, ?_⟩⟩, fun _ _ => rfl⟩
    simp only [exec, execDecEnd] at h
    split at h <;> cases h
    rfl
  · have habort : (if e.ofBlock then Res.raise e s else .stuck .notOfBlock : Res Unit).EndsIn (LoopFrame s) :=
      .ite (LoopFrame.refl s) (Res.endsIn_stuck _)
    exact ⟨s.draws, (Res.EndsIn.ite (Res.endsIn_stuck _) habort).endsOrFinishes h, fun _ _ => rfl⟩
  · exact ⟨s.draws, (snkWrite_loopFrame p s).endsOrFinishes h, fun _ _ => rfl⟩

/-- SNK.WRITE writes, or ends the session with WriteError. -/
theorem exec_snkWrite_cases {p : Phrase} {s t : State} (h : exec (.snkWrite p) s = .next t) :
    t = { (sinkPut p s).2 with ret := .unit } ∨ t = (sinkPut p s).2.finish (.error .write) := by
  obtain ⟨a, u, hu, rfl⟩ | ⟨e, u, hu, rfl⟩ := Res.outcome_next.1 h
  · obtain ⟨-, rfl⟩ := snkWrite_ok.1 hu
    exact .inl rfl
  · obtain ⟨-, rfl, rfl⟩ := snkWrite_raise.1 hu
    exact .inr rfl

/-! ## The statements -/

/-- Settles O37: SNK.WRITE by the sink's answer. -/
theorem writeIsWholeOrError : Obligations.WriteIsWholeOrError := by
  unfold Obligations.WriteIsWholeOrError
  refine fun s p => ⟨fun h => ?whole, fun k hk ha => ?short, fun k ha => ?fail⟩
  case whole => exact congrArg (Res.outcome noValue) (snkWrite_taken h)
  case short =>
    have hwrite := snkWrite_not_full ha (by simpa [SinkAns.full] using hk)
    rw [SinkAns.count, take_count] at hwrite
    exact ⟨_, congrArg (Res.outcome noValue) hwrite, rfl, rfl, rfl, rfl⟩
  case fail =>
    have hwrite := snkWrite_not_full ha rfl
    rw [SinkAns.count, take_count] at hwrite
    exact ⟨_, congrArg (Res.outcome noValue) hwrite, rfl, rfl, rfl, rfl⟩

/-- Settles O31: the bootstrap step by its code and the sink's answer. -/
theorem bootstrapStep : Obligations.BootstrapStep := by
  unfold Obligations.BootstrapStep
  refine fun s hm => ⟨fun b hsink => ?whole, fun b hsink => ?failed, fun c hc => ?invalid, ?empty⟩
  case whole =>
    rw [exec_decBoot hm, snkWrite_taken (p := single b) hsink]
    rfl
  case failed =>
    obtain ⟨k, hwrite⟩ := snkWrite_failed (p := single b) hsink
    rw [exec_decBoot hm, hwrite]
    refine ⟨_, rfl, rfl, rfl, ?_⟩
    cases k with
    | zero => exact .inl (List.append_nil s.out)
    | succ k => exact .inr (by simp)
  case invalid => exact ⟨_, exec_decBootInvalid hm hc, rfl, rfl, rfl, noSession_finish s _⟩
  case empty => exact ⟨_, exec_decBootEmpty hm, rfl, rfl, rfl, noSession_finish s _⟩

/-- Settles O33: at the capacity the addition stores at 256 in the emptied table; PREV is set after it, by value. -/
theorem hitAcrossReset : Obligations.HitAcrossReset := by
  unfold Obligations.HitAcrossReset
  intro i s c q e hi hm hq hn he hsink hstore
  have hlen : (hitPhrase q e).bytes.length = q.bytes.length + 1 := by simp
  obtain ⟨hshort, hgrant⟩ := hlen ▸ hstore
  have hadd :=
    (dictAdd_full (s := { s with sinkAns := s.sinkAns.tail, out := s.out ++ e.bytes }) (p := hitPhrase q e) hn rfl).trans
      (dictStore_granted (s := { s.clearDynamic with sinkAns := s.sinkAns.tail, out := s.out ++ e.bytes }) hshort hgrant)
  rw [exec_hit hi hm hq hn c.isLt he, snkWrite_taken hsink, Res.andThen, hadd]
  obtain ⟨hat, hother⟩ := entry_write_first (t := { s with
    ent := Memory.write [] Config.firstCode.toNat (hitPhrase q e) }) rfl
  exact ⟨_, hitPhrase q e, rfl, by simp, rfl, hat, hother, rfl, rfl, hm⟩

/-- Settles O34: the addition and then the write, each by the environment's answer; an absent code leaves room at
NEXT. -/
theorem kwkStep : Obligations.KwkStep := by
  unfold Obligations.KwkStep
  intro s c n q hm hq hn h1 hc
  have hroom : n.toNat < 4096 := hc.trans_lt c.isLt
  have hlen : (kwkPhrase q).bytes.length = q.bytes.length + 1 := by simp
  have hbytes : (kwkPhrase q).bytes = q.bytes ++ q.bytes.take 1 := by simp
  rw [exec_kwk hm hq hn h1 hc, ← hlen]
  have hadd : StorageFor (kwkPhrase q).bytes.length s → dictAdd (kwkPhrase q) s = _ := fun ⟨hshort, hgrant⟩ =>
    (dictAdd_room (p := kwkPhrase q) hn h1 hroom).trans (dictStore_granted hshort hgrant)
  refine ⟨fun hstore hsink => ?done, fun hstore => ?noStorage, fun hstore hsink => ?noSink⟩
  case done =>
    rw [hadd hstore, Res.andThen, snkWrite_taken (s := { s.afterAlloc with
      ent := Memory.write s.ent n.toNat (kwkPhrase q), next := some (n + 1#13) }) hsink]
    exact ⟨_, kwkPhrase q, _, rfl, hbytes, rfl, entry_write h1 hroom rfl rfl⟩
  case noStorage =>
    obtain ⟨l, m, k, hraise⟩ := dictAdd_refused hn h1 hroom.le hstore
    rw [hraise]
    exact ⟨_, rfl, rfl, rfl, rfl, rfl⟩
  case noSink =>
    obtain ⟨k, hwrite⟩ := snkWrite_failed (s := { s.afterAlloc with
      ent := Memory.write s.ent n.toNat (kwkPhrase q), next := some (n + 1#13) }) hsink
    rw [hadd hstore, Res.andThen, hwrite, ← hbytes]
    exact ⟨_, k, rfl, rfl, rfl, rfl⟩

/-- Settles O38: every decode step stays within the frame of the loop, and so does what it leaves to Finish. -/
theorem decodeLoopFrame : Obligations.DecodeLoopFrame := by
  unfold Obligations.DecodeLoopFrame
  intro i s t hi h
  have hwrite : (∃ p, i = .snkWrite p) → t.mode = s.mode ∧ t.next = s.next ∧ t.ent = s.ent ∧ t.prev = s.prev ∨
      (t.mode = .done ∧ t.err = .error .write ∧ NoSession t) := by
    rintro ⟨p, rfl⟩
    obtain rfl | rfl := exec_snkWrite_cases h
    · exact .inl ⟨rfl, rfl, rfl, rfl⟩
    · exact .inr ⟨rfl, rfl, noSession_finish _ _⟩
  obtain ⟨d, ⟨u, ⟨a, o, l, m, n, q, md, rfl⟩, hend⟩, -⟩ := exec_loopRow hi h
  obtain ⟨r, rfl⟩ | ⟨x, rfl⟩ := hend
  · exact ⟨rfl, rfl, rfl, rfl, rfl, .inr ⟨rfl, rfl, rfl, rfl⟩, hwrite⟩
  · exact ⟨rfl, rfl, rfl, rfl, rfl, .inl ⟨rfl, noSession_finish _ _⟩, hwrite⟩

end Sys2Proof.Machine
end

section
/-! What a step of a session can be (42_decode_loop.md R142, R152), said once, and what follows for OUT, the source, the
position, MODE and ERR. -/

namespace Sys2Proof.Machine

/-! ## The selected row by its code -/

theorem exec_selectBoot (r : Option Code) (s : State) : exec (selectBoot r) s = (decBoot r s).outcome noValue := by
  rcases r with _ | c
  · rfl
  · cases hl : isLiteral c with
    | true => rw [selectBoot_literal hl, exec, execDecBoot, literalCode_literalByte hl]
    | false => simp [selectBoot, hl, exec, execDecBootInvalid]

theorem exec_selectSteady_found {c : Code} {n : Next} (h : isLiteral c = true ∨ isHit c n = true) (s : State) :
    exec (selectSteady n (some c)) s = (decHit c s).outcome noValue := by
  cases hl : isLiteral c with
  | true => rw [selectSteady_literal n hl, exec, execDecHitLit, literalCode_literalByte hl]
  | false =>
    have hh : isHit c n = true := h.resolve_left (by simp [hl])
    simp [selectSteady, hl, hh, exec, execDecHitRef]

theorem exec_selectSteady_absent {c : Code} {n : Next} (hl : isLiteral c = false) (hh : isHit c n = false) (s : State) :
    exec (selectSteady n (some c)) s = (decKwk c s).outcome noValue := by
  simp [selectSteady, hl, hh, exec, execDecKwk]

theorem selectBoot_loopRow (r : Option Code) : LoopRow (selectBoot r) := by
  unfold selectBoot LoopRow
  split
  · simp
  · split <;> simp

theorem selectSteady_loopRow (n : Next) (r : Option Code) : LoopRow (selectSteady n r) := by
  unfold selectSteady LoopRow
  split
  · simp
  · split
    · simp
    · split <;> simp

theorem LoopRow.ne_start {i : Instr} (h : LoopRow i) : i ≠ .start := by
  rintro rfl
  simp [LoopRow] at h

/-! ## An addition that is made -/

/-- t has the dictionary of s with a added: at NEXT, or at 256 after a reset where NEXT, which is n, was at the
capacity. -/
def Stored (a : Phrase) (n : Next) (s t : State) : Prop :=
  (256 ≤ n.toNat ∧ n.toNat < 4096 ∧ t.next = some (n + 1#13) ∧ t.ent = Memory.write s.ent n.toNat a) ∨
    (n.toNat = 4096 ∧ t.next = some 257#13 ∧ t.ent = Memory.write [] 256 a)

theorem dictAdd_stored {a : Phrase} {s t : State} {r : Code × Phrase} (h : dictAdd a s = .ok r t) :
    ∃ n, s.next = some n ∧ Stored a n s t ∧
      t = { s with allocAns := s.allocAns.tail, ent := t.ent, next := t.next } := by
  obtain ⟨g, hg⟩ | ⟨n, hn, ⟨h1, h2, hadd⟩ | ⟨hfull, hadd⟩⟩ := dictAdd_cases (p := a) (s := s)
  · cases h.symm.trans hg
  · obtain ⟨-, -, -, rfl⟩ := dictStore_ok.1 (hadd.symm.trans h)
    exact ⟨n, hn, .inl ⟨h1, h2, rfl, rfl⟩, rfl⟩
  · obtain ⟨-, -, -, rfl⟩ := dictStore_ok.1 (hadd.symm.trans h)
    exact ⟨n, hn, .inr ⟨hfull, rfl, rfl⟩, rfl⟩

/-! ## A step that goes on, from the state u after the read -/

/-- The bootstrap step on a literal c (R143). -/
def BootsOn (c : Code) (u t : State) : Prop :=
  isLiteral c = true ∧
    t = { u with
      sinkAns := u.sinkAns.tail, out := u.out ++ (alphaPhrase c).bytes, prev := some (alphaPhrase c), mode := .steady
      ret := .unit }

/-- A step in STEADY on c (R144, R145): p is written and becomes PREV, a is added; q is what PREV held, n what NEXT
held. -/
structure GoesOn (c : Code) (n : Next) (q a p : Phrase) (u t : State) : Prop where
  next : u.next = some n
  prev : ∀ x, u.prev = some x → x = q
  stored : Stored a n u t
  row : (isHit c n = true ∧ u.found c = some p ∧ a = hitPhrase q p) ∨
    (isLiteral c = false ∧ isHit c n = false ∧ p = kwkPhrase q ∧ a = kwkPhrase q)
  frame : ∃ m k d, t = { u with
    sinkAns := u.sinkAns.tail, allocAns := u.allocAns.tail, out := u.out ++ p.bytes, prev := some p, ent := m, next := k
    draws := d, ret := .unit }

/-- A step of a session in this MODE goes on with the code c, from the state u after the read. -/
def Advances (mode : Mode) (c : Code) (u t : State) : Prop :=
  (mode = .boot ∧ BootsOn c u t) ∨ (mode = .steady ∧ ∃ n q a p, GoesOn c n q a p u t)

/-- The results of a session that a step in a MODE can end with (R152). -/
def EndsAs (mode : Mode) (x : Result) : Prop :=
  (mode = .boot ∧ (x = .error .invalidFormat ∨ x = .error .read ∨ x = .error .write)) ∨
    (mode = .steady ∧ (x = .ok ∨ x = .error .read ∨ x = .error .write ∨ x = .error .allocation))

/-- The session has ended, by Finish, with one of these results. -/
def SessionEnds (mode : Mode) (t : State) : Prop := ∃ (v : State) (x : Result), t = v.finish x ∧ EndsAs mode x

theorem exec_selectBoot_cases {r : Option Code} {u t : State} (h : exec (selectBoot r) u = .next t) :
    SessionEnds .boot t ∨ ∃ c, r = some c ∧ BootsOn c u t := by
  rw [exec_selectBoot] at h
  obtain ⟨a, v, hv, rfl⟩ | ⟨e, v, hv, rfl⟩ := Res.outcome_next.1 h
  · obtain ⟨-, c, rfl, hl, rfl⟩ := decBoot_ok hv
    exact .inr ⟨c, rfl, hl, rfl⟩
  · refine .inl ⟨v, _, rfl, .inl ⟨rfl, ?_⟩⟩
    obtain ⟨-, ⟨rfl, -⟩ | ⟨c, -, -, rfl, -⟩⟩ := decBoot_raise hv
    · exact .inl rfl
    · exact .inr (.inr rfl)

theorem decHit_cases {c : Code} {u t : State} (hm : u.mode = .steady)
    (h : (decHit c u).outcome noValue = .next t) :
    SessionEnds .steady t ∨ ∃ n q a p, GoesOn c n q a p u t := by
  obtain ⟨q, d, he, hq⟩ := decHit_steady (c := c) hm
  rw [he] at h
  obtain ⟨b, v, hv, rfl⟩ | ⟨e, v, hv, rfl⟩ := Res.outcome_next.1 h
  · obtain ⟨p, n, hn, hh, hp, r, w, hadd, rfl⟩ := hitBody_ok hv
    obtain ⟨k, hk, hstored, hw⟩ := dictAdd_stored hadd
    obtain rfl : n = k := Option.some.inj (hn.symm.trans hk)
    refine .inr ⟨n, q, hitPhrase q p, p, hn, fun x hx => (hq x hx).1, hstored, .inl ⟨hh, hp, rfl⟩, w.ent, w.next, d, ?_⟩
    rw [hw]
    rfl
  · refine .inl ⟨v, _, rfl, .inr ⟨rfl, ?_⟩⟩
    obtain ⟨p, -, -, ⟨rfl, -, -⟩ | hadd⟩ := hitBody_raise hv
    · exact .inr (.inr (.inl rfl))
    · obtain ⟨rfl, -⟩ := dictAdd_raise hadd
      exact .inr (.inr (.inr rfl))

theorem decKwk_cases {c : Code} {u t : State} (hm : u.mode = .steady)
    (h : (decKwk c u).outcome noValue = .next t) :
    SessionEnds .steady t ∨ ∃ n q a p, GoesOn c n q a p u t := by
  obtain ⟨q, d, he, hq⟩ := decKwk_steady (c := c) hm
  rw [he] at h
  obtain ⟨b, v, hv, rfl⟩ | ⟨e, v, hv, rfl⟩ := Res.outcome_next.1 h
  · obtain ⟨n, hn, hl, hh, r, w, hadd, rfl⟩ := kwkBody_ok hv
    obtain ⟨k, hk, hstored, hw⟩ := dictAdd_stored hadd
    obtain rfl : n = k := Option.some.inj (hn.symm.trans hk)
    refine .inr ⟨n, q, kwkPhrase q, kwkPhrase q, hn, fun x hx => (hq x hx).1, hstored, .inr ⟨hl, hh, rfl, rfl⟩,
      w.ent, w.next, d, ?_⟩
    rw [hw]
    rfl
  · refine .inl ⟨v, _, rfl, .inr ⟨rfl, ?_⟩⟩
    obtain ⟨n, -, -, -, hadd | ⟨r, w, -, rfl, -⟩⟩ := kwkBody_raise hv
    · obtain ⟨rfl, -⟩ := dictAdd_raise hadd
      exact .inr (.inr (.inr rfl))
    · exact .inr (.inr (.inl rfl))

theorem exec_selectSteady_cases {n : Next} {r : Option Code} {u t : State} (hm : u.mode = .steady)
    (h : exec (selectSteady n r) u = .next t) :
    SessionEnds .steady t ∨ ∃ c, r = some c ∧ ∃ n q a p, GoesOn c n q a p u t := by
  rcases r with _ | c
  · cases (exec_decEnd hm).symm.trans h
    exact .inl ⟨u, .ok, rfl, .inr ⟨rfl, .inl rfl⟩⟩
  · by_cases hf : isLiteral c = true ∨ isHit c n = true
    · rw [exec_selectSteady_found hf] at h
      exact (decHit_cases hm h).imp id fun hgo => ⟨c, rfl, hgo⟩
    · rw [not_or, Bool.not_eq_true, Bool.not_eq_true] at hf
      obtain ⟨hl, hh⟩ := hf
      rw [exec_selectSteady_absent hl hh] at h
      exact (decKwk_cases hm h).imp id fun hgo => ⟨c, rfl, hgo⟩

/-- A step of a session, nothing coming from the host, ends it by Finish or goes on with a code. -/
theorem step_session_cases {s t : State} (hq : Quiet s) (hb : s.busy = true) (h : step s = .next t) :
    SessionEnds s.mode t ∨
      ∃ c u, rdCode s.dropInput = .ok (some c) u ∧ Advances s.mode c u t := by
  obtain ⟨r, u, hr, ⟨hm, he⟩ | ⟨hm, n, he⟩⟩ | ⟨u, -, rfl⟩ := step_session hq hb h
  · rw [hm]
    refine (exec_selectBoot_cases he).imp id ?_
    rintro ⟨c, rfl, hgo⟩
    exact ⟨c, u, hr, .inl ⟨rfl, hgo⟩⟩
  · rw [hm]
    refine (exec_selectSteady_cases ((rdCode_mode hr).trans hm) he).imp id ?_
    rintro ⟨c, rfl, hgo⟩
    exact ⟨c, u, hr, .inr ⟨rfl, hgo⟩⟩
  · refine .inl ⟨u, _, rfl, ?_⟩
    obtain hm | hm := (busy_iff s).1 hb
    · exact .inl ⟨hm, .inr (.inl rfl)⟩
    · exact .inr ⟨hm, .inr (.inl rfl)⟩

/-- A step of a session touches neither the source nor the host's inputs to come, and OUT only grows. -/
theorem step_session_frame {s t : State} (hq : Quiet s) (hb : s.busy = true) (h : step s = .next t) :
    InsideFrame s.dropInput t := by
  have hrow : ∀ {i r u}, rdCode s.dropInput = .ok r u → LoopRow i → exec i u = .next t → InsideFrame s.dropInput t := by
    intro i r u hr hi he
    obtain ⟨j, d, p, ph, rfl⟩ := rdCode_frame hr
    have hframe := exec_insideFrame hi.ne_start he
    exact hframe
  obtain ⟨r, u, hr, ⟨-, he⟩ | ⟨-, n, he⟩⟩ | ⟨u, hr, rfl⟩ := step_session hq hb h
  · exact hrow hr (selectBoot_loopRow r) he
  · exact hrow hr (selectSteady_loopRow n r) he
  · obtain ⟨-, j, d, rfl⟩ := rdCode_raise hr
    exact .refl _

/-! ## Every step, by what the host does -/

/-- START, run as an instruction, in the three things it can come to. -/
theorem exec_start_cases {s t : State} (h : exec .start s = .next t) :
    (s.busy = true ∧ t = s) ∨
      (s.busy = false ∧ allocAnswer s = true ∧
        t = { s with
          mode := .boot, err := .ok, next := some Config.firstCode, seeded := true, ent := [], phase := some .even,
          pend := none, prev := none, spos := some 0, out := [], allocAns := s.allocAns.tail, ret := .unit }) ∨
      (s.busy = false ∧ t = (startRegs s).afterAlloc.finish (.error .allocation)) := by
  cases hb : s.busy with
  | true =>
    cases (exec_start_of_busy hb).symm.trans h
    exact .inl ⟨rfl, rfl⟩
  | false =>
    cases ha : allocAnswer s with
    | true =>
      rw [exec_start_of_not_busy hb, startSession_granted ha] at h
      cases h
      exact .inr (.inl ⟨rfl, rfl, rfl⟩)
    | false =>
      cases (exec_start_refused hb ha).symm.trans h
      exact .inr (.inr ⟨rfl, rfl⟩)

/-- A step that answers a next state: START ignored, accepted or refused; the reset input; a step without a session,
which may connect a source; or a step of a session. -/
inductive StepKind (s t : State) : Prop where
  | ignored (hi : hostInput s = .start) (hb : s.busy = true) (ht : t = s.dropInput)
  | started (hi : hostInput s = .start) (hb : s.busy = false)
      (ht : t = { s.dropInput with
        mode := .boot, err := .ok, next := some Config.firstCode, seeded := true, ent := [], phase := some .even,
        pend := none, prev := none, spos := some 0, out := [], allocAns := s.allocAns.tail, ret := .unit })
  | refused (hi : hostInput s = .start) (hb : s.busy = false)
      (ht : t = (startRegs s.dropInput).afterAlloc.finish (.error .allocation))
  | resets (u : State) (hr : ResetComes s) (hsrc : u.src = s.src)
      (hstart : hostInput s = .resetInStart → u.out = if s.busy then s.out else [])
      (hout : hostInput s ≠ .resetInStart → s.out <+: u.out) (ht : t = u.hardReset)
  | waits (src : List Byte) (hb : s.busy = false) (hsrc : src = s.src ∨ hostInput s = .connect src)
      (hi : hostInput s = .connect src ∨ Quiet s) (ht : t = { s.dropInput with src := src })
  | session (hq : Quiet s) (hb : s.busy = true)

theorem step_kind {s t : State} (h : step s = .next t) : StepKind s t := by
  have hreset : ResetComes s → StepKind s t := by
    intro hr
    obtain ⟨u, hstep, hsrc, -, -, hstart, hout⟩ := step_of_resetComes hr
    cases hstep.symm.trans h
    exact .resets u hr hsrc hstart hout rfl
  obtain ⟨hi, he⟩ | ⟨hi, -⟩ | ⟨hi, -⟩ | ⟨ops, bytes, hi, -⟩ | ⟨src, hi, hb, rfl⟩ | ⟨hi, hb, rfl⟩ | ⟨hi, hb, -⟩ :=
    step_cases h
  · obtain ⟨hb, rfl⟩ | ⟨hb, -, rfl⟩ | ⟨hb, rfl⟩ := exec_start_cases he
    · exact .ignored hi hb rfl
    · exact .started hi hb rfl
    · exact .refused hi hb rfl
  · exact hreset (.inl hi)
  · exact hreset (.inr (.inl hi))
  · exact hreset (.inr (.inr ⟨ops, bytes, hi⟩))
  · exact .waits src hb (.inr hi) (.inl hi) rfl
  · exact .waits s.src hb (.inl rfl) (.inr hi) rfl
  · exact .session hi hb

/-! ## The statements -/

/-- Settles O43: only START, accepted, empties OUT; a step of a session appends. -/
theorem outputOnlyGrows : Obligations.OutputOnlyGrows := by
  unfold Obligations.OutputOnlyGrows
  intro s t h
  cases step_kind h with
  | ignored hi hb ht => simp [hb, ht]
  | started hi hb ht => simp [hi, hb, ht]
  | refused hi hb ht => simp [hi, hb, ht]
  | resets u hr _ hstart hout ht =>
    subst ht
    by_cases hi : hostInput s = .resetInStart
    · cases hb : s.busy <;> simp [hi, hstart hi, hb]
    · have hnot : hostInput s ≠ .start := by obtain h | h | ⟨_, _, h⟩ := hr <;> simp [h]
      simpa [hi, hnot] using hout hi
  | waits src hb _ hi ht =>
    have hnot : ¬(hostInput s = .start ∨ hostInput s = .resetInStart) := by
      obtain hi | hi := hi
      · simp [hi]
      · simp [show hostInput s = .quiet from hi]
    simp [hnot, ht]
  | session hq hb =>
    obtain ⟨-, -, -, hout⟩ := step_session_frame hq hb h
    simpa [hb] using hout

/-- Settles O44: only connecting a source changes it, and outside a session. -/
theorem sourceIsImmutable : Obligations.SourceIsImmutable := by
  unfold Obligations.SourceIsImmutable
  intro s t h
  cases step_kind h with
  | ignored _ _ ht | started _ _ ht | refused _ _ ht => exact .inl (ht ▸ rfl)
  | resets u _ hsrc _ _ ht => exact .inl (ht ▸ hsrc)
  | waits src hb hsrc _ ht =>
    subst ht
    obtain rfl | hi := hsrc
    · exact .inl rfl
    · exact .inr ⟨hb, src, hi, rfl⟩
  | session hq hb =>
    obtain ⟨hsrc, -⟩ := step_session_frame hq hb h
    exact .inl hsrc

/-- Settles O46: each kind of step is one line of the table of R152. -/
theorem modeTransitions : Obligations.ModeTransitions := by
  unfold Obligations.ModeTransitions
  intro s t h
  cases step_kind h with
  | ignored hi hb ht => exact .inr (.inr (.inr (.inl ⟨hb, hi, ht ▸ ⟨rfl, rfl⟩⟩)))
  | started hi hb ht => exact .inr (.inl ⟨hb, hi, .inl (ht ▸ ⟨rfl, rfl⟩)⟩)
  | refused hi hb ht => exact .inr (.inl ⟨hb, hi, .inr (ht ▸ ⟨rfl, rfl⟩)⟩)
  | resets u hr _ _ _ ht => exact .inl ⟨hr, ht ▸ ⟨rfl, rfl⟩⟩
  | waits src hb _ hi ht =>
    have hnot : hostInput s ≠ .start := by
      obtain hi | hi := hi
      · simp [hi]
      · simp [show hostInput s = .quiet from hi]
    exact .inr (.inr (.inl ⟨hb, hnot, ht ▸ ⟨rfl, rfl⟩⟩))
  | session hq hb =>
    obtain ⟨v, x, rfl, ⟨hm, hx⟩ | ⟨hm, hx⟩⟩ | ⟨c, u, hr, ⟨hm, -, ht⟩ | ⟨hm, n, q, a, p, hgo⟩⟩ :=
      step_session_cases hq hb h
    · exact .inr (.inr (.inr (.inr (.inl ⟨hm, hq, .inr ⟨rfl, hx⟩⟩))))
    · exact .inr (.inr (.inr (.inr (.inr ⟨hm, hq, .inr ⟨rfl, hx⟩⟩))))
    · exact .inr (.inr (.inr (.inr (.inl ⟨hm, hq, .inl (ht ▸ rfl)⟩))))
    · obtain ⟨m, k, d, rfl⟩ := hgo.frame
      obtain ⟨j, d', p', ph, rfl⟩ := rdCode_frame hr
      exact .inr (.inr (.inr (.inr (.inr ⟨hm, hq, .inl hm⟩))))

/-- A step that goes on with a code leaves the reader's registers as the read left them, in STEADY. -/
theorem advances_reader {s t u : State} {c : Code} (hr : rdCode s.dropInput = .ok (some c) u)
    (h : Advances s.mode c u t) :
    t.mode = .steady ∧ t.phase = u.phase ∧ t.pend = u.pend ∧ t.spos = u.spos := by
  obtain ⟨-, -, rfl⟩ | ⟨hm, n, q, a, p, hgo⟩ := h
  · exact ⟨rfl, rfl, rfl, rfl⟩
  · obtain ⟨m, k, d, rfl⟩ := hgo.frame
    obtain ⟨j, d', p', ph, rfl⟩ := rdCode_frame hr
    exact ⟨hm, rfl, rfl, rfl⟩

/-- Settles O45: the read moves SPOS and turns the phase; the rest of a step that goes on leaves both alone. -/
theorem positionMovesForward : Obligations.PositionMovesForward := by
  unfold Obligations.PositionMovesForward
  intro s t k hq hb hk h
  obtain ⟨v, x, rfl, -⟩ | ⟨c, u, hr, hgo⟩ := step_session_cases hq hb h
  · exact .inl ⟨rfl, rfl⟩
  · obtain ⟨hm, hphase, -, hspos⟩ := advances_reader hr hgo
    rw [hm, hphase, hspos]
    obtain ⟨d, ⟨hnone, -⟩ | ⟨b0, b1, hph, -, -, rfl⟩ | ⟨b, b2, hph, -, -, -, rfl⟩⟩ :=
      rdCode_ok (s := s.dropInput) hk hr
    · cases hnone
    · exact .inr (.inl ⟨rfl, hph, rfl, rfl⟩)
    · exact .inr (.inr ⟨rfl, hph, rfl, rfl⟩)

end Sys2Proof.Machine
end

section
/-! What every step keeps between the steps of a session: the registers of each mode, NEXT and the phrase lengths as
functions of the position, PREV in OUT (10_state.md R25 to R42, 42_decode_loop.md R154). -/

namespace Sys2Proof.Machine

/-! ## The invariant by MODE -/

theorem blockInv_boot {s : State} (h : BlockInv s) (hm : s.mode = .boot) :
    DictInv Config.firstCode s ∧ ReaderInv .even 0 s ∧ s.prev = none ∧ s.out = [] ∧ s.err = .ok := by
  simpa only [BlockInv, hm] using h

theorem blockInv_steady {s : State} (h : BlockInv s) (hm : s.mode = .steady) :
    (∃ n, DictInv n s) ∧ (∃ ph k, ReaderInv ph k s ∧ k ≠ 0) ∧ s.prev.isSome = true ∧ s.out ≠ [] ∧ s.err = .ok := by
  simpa only [BlockInv, hm] using h

/-- In a session the dictionary and the reader stand in the invariant. -/
theorem blockInv_busy {s : State} (h : BlockInv s) (hb : s.busy = true) :
    (∃ n, DictInv n s) ∧ ∃ ph k, ReaderInv ph k s := by
  obtain hm | hm := (busy_iff s).1 hb
  · obtain ⟨hd, hr, -⟩ := blockInv_boot h hm
    exact ⟨⟨_, hd⟩, _, _, hr⟩
  · obtain ⟨hd, ⟨ph, k, hr, -⟩, -⟩ := blockInv_steady h hm
    exact ⟨hd, ph, k, hr⟩

/-- Finish, with a result of the block, and with OK only after something was written, leaves the invariant of DONE. -/
theorem blockInv_finish {s : State} {x : Result} (hx : Result.ofBlock x = true) (hout : x = .ok → s.out ≠ []) :
    BlockInv (s.finish x) :=
  ⟨noSession_finish s x, hx, hout⟩

theorem EndsAs.ofBlock {mode : Mode} {x : Result} (h : EndsAs mode x) : Result.ofBlock x = true := by
  obtain ⟨-, rfl | rfl | rfl⟩ | ⟨-, rfl | rfl | rfl | rfl⟩ := h <;> rfl

theorem EndsAs.steady_of_ok {mode : Mode} (h : EndsAs mode .ok) : mode = .steady := by
  obtain ⟨-, h | h | h⟩ | ⟨hm, -⟩ := h
  · cases h
  · cases h
  · cases h
  · exact hm

/-! ## A read of a code -/

/-- A read of a code takes the reader from its invariant to its invariant, one code further. -/
theorem ReaderInv.read {ph : Phase} {k : Nat} {s u : State} {c : Code} (h : ReaderInv ph k s)
    (hr : rdCode s = .ok (some c) u) :
    ∃ ph' k', ReaderInv ph' k' u ∧ k' ≠ 0 ∧ codesRead k' = codesRead k + 1 := by
  obtain ⟨hph, hk, hpend⟩ := h
  obtain ⟨d, ⟨hnone, -⟩ | ⟨b0, b1, hne, -, -, rfl⟩ | ⟨b, b2, hne, -, -, -, rfl⟩⟩ := rdCode_ok hk hr
  · cases hnone
  · cases ph with
    | odd => exact absurd hph hne
    | even =>
      obtain ⟨hmod, -⟩ := hpend
      refine ⟨.odd, k + 2, ⟨rfl, rfl, ?_, rfl⟩, by omega, ?_⟩
      · omega
      · simp only [codesRead]; omega
  · cases ph with
    | even => exact absurd hph hne
    | odd =>
      obtain ⟨hmod, -⟩ := hpend
      refine ⟨.even, k + 1, ⟨rfl, rfl, ?_, rfl⟩, by omega, ?_⟩
      · omega
      · simp only [codesRead]; omega

/-- The read leaves the dictionary alone. -/
theorem dictInv_read {n : Next} {s u : State} {r : Option Code} (h : DictInv n s) (hr : rdCode s = .ok r u) :
    DictInv n u := by
  obtain ⟨j, d, p, ph, rfl⟩ := rdCode_frame hr
  exact h

/-! ## An addition -/

/-- The codes below NEXT are the ones listed, so a store at NEXT appends. -/
theorem DictInv.write_next {n : Next} {s : State} (h : DictInv n s) (a : Phrase) :
    Memory.write s.ent n.toNat a = s.ent ++ [(n.toNat, a)] := by
  obtain ⟨-, hlow, -, -, hent⟩ := h
  refine Memory.write_end _ _ _ fun e he => ?_
  have hmem : e.1 ∈ List.range' 256 (n.toNat - 256) := hent ▸ List.mem_map_of_mem he
  rw [List.mem_range'_1] at hmem
  omega

/-- NEXT after an addition: one more, or 257 after a reset at the capacity. -/
def nextStored (n : Nat) : Nat := if n = 4096 then 257 else n + 1

/-- An addition keeps the dictionary's invariant. -/
theorem Stored.dictInv {a : Phrase} {n : Next} {s t : State} (h : Stored a n s t) (hs : DictInv n s)
    (hset : t.seeded = true) : ∃ n', DictInv n' t ∧ n'.toNat = nextStored n.toNat := by
  obtain ⟨h1, h2, hnext, hent⟩ | ⟨hfull, hnext, hent⟩ := h
  · have hsucc : (n + 1#13).toNat = n.toNat + 1 := by
      rw [BitVec.toNat_add, BitVec.toNat_ofNat]; omega
    refine ⟨n + 1#13, ⟨hnext, by omega, by omega, hset, ?_⟩, by rw [nextStored, if_neg (by omega), hsucc]⟩
    rw [hent, hs.write_next]
    obtain ⟨-, -, -, -, hlisted⟩ := hs
    have hlen : (n + 1#13).toNat - 256 = (n.toNat - 256) + 1 := by omega
    have hlast : 256 + (n.toNat - 256) = n.toNat := by omega
    rw [List.map_append, hlisted, hlen, List.range'_1_concat, hlast]
    rfl
  · exact ⟨257#13, ⟨hnext, by decide, by decide, hset, by rw [hent]; rfl⟩, by simp [nextStored, hfull]⟩

/-- A step that goes on in STEADY keeps the dictionary's invariant, by its one addition. -/
theorem GoesOn.dictInv {c : Code} {n m : Next} {q a p : Phrase} {u t : State} (h : GoesOn c n q a p u t)
    (hu : DictInv m u) : ∃ n', DictInv n' t ∧ n'.toNat = nextStored m.toNat := by
  have ⟨hm, _⟩ := hu
  obtain rfl : m = n := Option.some.inj (hm.symm.trans h.next)
  have hseeded : t.seeded = u.seeded := by
    obtain ⟨l, k, d, rfl⟩ := h.frame
    rfl
  exact h.stored.dictInv hu (hseeded.trans (alphabetSet_of_dictInv hu))

/-- After an addition every entry is the phrase added or an entry from before. -/
theorem Stored.entries {a : Phrase} {n : Next} {s t : State} (h : Stored a n s t) {e : Nat × Phrase} (he : e ∈ t.ent) :
    e.2 = a ∨ e ∈ s.ent := by
  obtain ⟨-, -, -, hent⟩ | ⟨-, -, hent⟩ := h <;> rw [hent] at he
  · exact (Memory.mem_write _ _ _ he).imp (congrArg Prod.snd) id
  · obtain rfl | hmem := Memory.mem_write _ _ _ he
    · exact .inl rfl
    · cases hmem

/-! ## The step to STEADY -/

/-- A step to STEADY leaves the session as it was, the host's START being ignored, or goes on with a code. -/
theorem step_to_steady {s t : State} (h : step s = .next t) (hm : t.mode = .steady) :
    (s.mode = .steady ∧ t = s.dropInput) ∨
      (Quiet s ∧ s.busy = true ∧ ∃ c u, rdCode s.dropInput = .ok (some c) u ∧ Advances s.mode c u t) := by
  cases step_kind h with
  | ignored _ _ ht =>
    subst ht
    exact .inl ⟨hm, rfl⟩
  | started _ _ ht | refused _ _ ht | resets _ _ _ _ _ ht =>
    subst ht
    cases hm
  | waits src hb _ _ ht =>
    subst ht
    have hbusy : s.busy = true := (busy_iff s).2 (.inr hm)
    simp [hbusy] at hb
  | session hq hb =>
    obtain ⟨v, x, rfl, -⟩ | hgo := step_session_cases hq hb h
    · cases hm
    · exact .inr ⟨hq, hb, hgo⟩

/-- A step of a session that leads to STEADY has written its new PREV. -/
theorem step_writes_prev {s t : State} (hq : Quiet s) (hb : s.busy = true) (h : step s = .next t)
    (hm : t.mode = .steady) : ∃ p, t.prev = some p ∧ t.out = s.out ++ p.bytes := by
  obtain ⟨v, x, rfl, -⟩ | ⟨c, u, hr, hgo⟩ := step_session_cases hq hb h
  · cases hm
  · obtain ⟨j, d, p, ph, rfl⟩ := rdCode_frame hr
    obtain ⟨-, -, rfl⟩ | ⟨-, n, q, a, p, hgo⟩ := hgo
    · exact ⟨_, rfl, rfl⟩
    · obtain ⟨m, k, d, rfl⟩ := hgo.frame
      exact ⟨p, rfl, rfl⟩

/-! ## The invariant is kept -/

/-- A step that goes on with a code leads to the invariant of STEADY. -/
theorem blockInv_of_advances {s t u : State} {c : Code} (hs : BlockInv s) (hb : s.busy = true)
    (hr : rdCode s.dropInput = .ok (some c) u)
    (h : Advances s.mode c u t) : BlockInv t := by
  obtain ⟨hmode, hphase, hpend, hspos⟩ := advances_reader hr h
  have hreader : ∃ ph k, ReaderInv ph k t ∧ k ≠ 0 := by
    obtain ⟨-, ph, k, hreader⟩ := blockInv_busy hs hb
    obtain ⟨ph', k', hread, hk', -⟩ := ReaderInv.read (s := s.dropInput) hreader hr
    exact ⟨ph', k', by simpa only [ReaderInv, hphase, hpend, hspos] using hread, hk'⟩
  have hsteady : (∃ n, DictInv n t) ∧ t.prev.isSome = true ∧ t.out ≠ [] ∧ t.err = .ok := by
    obtain ⟨hm, -, rfl⟩ | ⟨hm, n, q, a, p, hgo⟩ := h
    · obtain ⟨hdict, -, -, -, herr⟩ := blockInv_boot hs hm
      have hdict' := dictInv_read (s := s.dropInput) hdict hr
      obtain ⟨j, d, p, ph, rfl⟩ := rdCode_frame hr
      exact ⟨⟨_, hdict'⟩, rfl, by simp [bytes_ne_nil], herr⟩
    · obtain ⟨⟨n', hdict⟩, -, -, -, herr⟩ := blockInv_steady hs hm
      have hdict' := dictInv_read (s := s.dropInput) hdict hr
      obtain ⟨n'', hdict'', -⟩ := hgo.dictInv hdict'
      obtain ⟨m, k, d, ht⟩ := hgo.frame
      obtain ⟨j, d, p, ph, rfl⟩ := rdCode_frame hr
      refine ⟨⟨n'', hdict''⟩, ?_⟩
      rw [ht]
      exact ⟨rfl, by simp [bytes_ne_nil], herr⟩
  obtain ⟨hdict, hprev, hout, herr⟩ := hsteady
  unfold BlockInv
  rw [hmode]
  exact ⟨hdict, hreader, hprev, hout, herr⟩

/-- Each kind of step keeps the invariant; the source and the host's inputs, which a step without a session may change,
do not matter to it. -/
theorem blockInv_step {s t : State} (hs : BlockInv s) (h : step s = .next t) : BlockInv t := by
  cases step_kind h with
  | ignored _ _ ht => exact ht ▸ hs
  | started _ _ ht =>
    subst ht
    exact ⟨⟨rfl, by decide, by decide, rfl, rfl⟩, ⟨rfl, rfl, rfl, rfl⟩, rfl, rfl, rfl⟩
  | refused _ _ ht => exact ht ▸ blockInv_finish rfl nofun
  | resets u _ _ _ _ ht => exact ht ▸ ⟨noSession_hardReset u, rfl⟩
  | waits src _ _ _ ht => exact ht ▸ hs
  | session hq hb =>
    obtain ⟨v, x, rfl, hx⟩ | ⟨c, u, hr, hgo⟩ := step_session_cases hq hb h
    · refine blockInv_finish hx.ofBlock ?_
      rintro rfl
      obtain ⟨-, -, -, hout, -⟩ := blockInv_steady hs hx.steady_of_ok
      obtain ⟨-, -, -, hprefix⟩ := step_session_frame hq hb h
      exact fun hnil => hout (List.prefix_nil.1 (hnil ▸ hprefix))
    · exact blockInv_of_advances hs hb hr hgo

/-! ## NEXT and the phrase lengths by the position -/

/-- R154 (c): one code more is one addition more, but for the first code, which adds nothing. -/
theorem nextAfter_succ {m : Nat} (h : 1 ≤ m) : nextAfter (m + 1) = nextStored (nextAfter m) := by
  have hone : ¬m + 1 ≤ 1 := by omega
  simp only [nextAfter, nextStored, hone, if_false]
  split <;> split <;> omega

theorem one_le_codesRead {ph : Phase} {k : Nat} {s : State} (h : ReaderInv ph k s) (hk : k ≠ 0) : 1 ≤ codesRead k := by
  obtain ⟨-, -, hmod⟩ := h
  cases ph <;> simp only at hmod <;> simp only [codesRead] <;> omega

/-- The position that a step which goes on leaves is one code after the one it found. -/
theorem advances_position {ph : Phase} {k k' : Nat} {s t u : State} {c : Code} (hreader : ReaderInv ph k s)
    (hr : rdCode s.dropInput = .ok (some c) u)
    (h : Advances s.mode c u t) (hk' : t.spos = some k') : codesRead k' = codesRead k + 1 := by
  obtain ⟨-, -, -, hspos⟩ := advances_reader hr h
  obtain ⟨ph'', k'', ⟨-, hk'', -⟩, -, hcodes⟩ := ReaderInv.read (s := s.dropInput) hreader hr
  obtain rfl : k'' = k' := Option.some.inj (hk''.symm.trans (hspos.symm.trans hk'))
  exact hcodes

/-- What a lookup finds is a byte's phrase or an entry. -/
theorem Memory.mem_of_read {m : Memory} {c : Nat} {p : Phrase} (h : Memory.read m c = some p) : (c, p) ∈ m := by
  induction m with
  | nil => cases h
  | cons d m ih =>
    obtain ⟨j, q⟩ := d
    simp only [Memory.read] at h
    split at h
    case isTrue hj =>
      cases h
      exact hj ▸ List.mem_cons_self
    case isFalse => exact List.mem_cons_of_mem _ (ih h)

theorem length_found {s : State} {c : Code} {p : Phrase} {m : Nat} (h : s.found c = some p)
    (hm : ∀ e ∈ s.ent, e.2.bytes.length ≤ m) : p.bytes.length ≤ m + 1 := by
  unfold State.found at h
  split at h
  · cases h
    simp [alphaPhrase, Phrase.bytes]
  · exact (hm _ (Memory.mem_of_read h)).trans (Nat.le_succ m)

/-- A step in STEADY writes and adds phrases at most one byte longer than PREV and the entries. -/
theorem GoesOn.lengths {c : Code} {n : Next} {q a p : Phrase} {u t : State} {m : Nat} (h : GoesOn c n q a p u t)
    (hq : q.bytes.length ≤ m) (hm : ∀ e ∈ u.ent, e.2.bytes.length ≤ m) :
    p.bytes.length ≤ m + 1 ∧ a.bytes.length ≤ m + 1 := by
  obtain ⟨-, hfound, rfl⟩ | ⟨-, -, rfl, rfl⟩ := h.row
  · exact ⟨length_found hfound hm, by simpa using hq⟩
  · exact ⟨by simpa using hq, by simpa using hq⟩

/-! ## The statements -/

/-- Settles O41: each kind of step leads to the invariant of its mode. -/
theorem stepKeepsInvariant : Obligations.StepKeepsInvariant := by
  unfold Obligations.StepKeepsInvariant
  exact fun s t hs h => blockInv_step hs h

/-- Settles O48: a step to STEADY reads one code; from BOOT it adds nothing, from STEADY one phrase. -/
theorem stepKeepsNextCount : Obligations.StepKeepsNextCount := by
  unfold Obligations.StepKeepsNextCount
  intro s t hs hcount h hm n' k' hn' hk'
  obtain ⟨hsteady, rfl⟩ | ⟨-, hb, c, u, hr, hgo⟩ := step_to_steady h hm
  · exact hcount hsteady n' k' hn' hk'
  · obtain ⟨hboot, -, rfl⟩ | ⟨hsteady, n, q, a, p, hon⟩ := id hgo
    · obtain ⟨⟨hnext, -⟩, hreader, -⟩ := blockInv_boot hs hboot
      have hcodes := advances_position hreader hr hgo hk'
      obtain ⟨j, d, p, ph, rfl⟩ := rdCode_frame hr
      obtain rfl : Config.firstCode = n' := Option.some.inj (hnext.symm.trans hn')
      rw [hcodes]
      rfl
    · obtain ⟨⟨n₀, hdict⟩, ⟨ph, k, hreader, hk⟩, -⟩ := blockInv_steady hs hsteady
      have hcodes := advances_position hreader hr hgo hk'
      obtain ⟨n'', ⟨hn'', -⟩, hval⟩ := hon.dictInv (dictInv_read (s := s.dropInput) hdict hr)
      obtain rfl : n'' = n' := Option.some.inj (hn''.symm.trans hn')
      have ⟨hnext, _⟩ := hdict
      have ⟨_, hspos, _⟩ := hreader
      rw [hval, hcount hsteady n₀ k hnext hspos, hcodes, nextAfter_succ (one_le_codesRead hreader hk)]

/-- Settles O49: a step to STEADY reads one code, and writes and adds phrases longer by a byte at most. -/
theorem stepKeepsLengthBound : Obligations.StepKeepsLengthBound := by
  unfold Obligations.StepKeepsLengthBound
  intro s t hs hlen h hm k' hk'
  obtain ⟨hsteady, rfl⟩ | ⟨-, hb, c, u, hr, hgo⟩ := step_to_steady h hm
  · exact hlen hsteady k' hk'
  · obtain ⟨hboot, -, rfl⟩ | ⟨hsteady, n, q, a, p, hon⟩ := id hgo
    · obtain ⟨hdict, hreader, -⟩ := blockInv_boot hs hboot
      rw [advances_position hreader hr hgo hk']
      obtain ⟨-, -, -, -, hent⟩ := dictInv_read (s := s.dropInput) hdict hr
      have hnil : u.ent = [] := List.map_eq_nil_iff.1 hent
      refine ⟨?_, by simp [hnil]⟩
      rintro p ⟨⟩
      simp [alphaPhrase, Phrase.bytes]
    · obtain ⟨-, ⟨ph, k, hreader, hk⟩, hprev, -⟩ := blockInv_steady hs hsteady
      obtain ⟨q₀, hq₀⟩ := Option.isSome_iff_exists.1 hprev
      have ⟨_, hspos, _⟩ := hreader
      obtain ⟨hqlen, hents⟩ := hlen hsteady k hspos
      rw [advances_position hreader hr hgo hk']
      obtain ⟨j, d, p', ph', rfl⟩ := rdCode_frame hr
      obtain rfl : q₀ = q := hon.prev q₀ hq₀
      obtain ⟨hp, ha⟩ := hon.lengths (hqlen q₀ hq₀) hents
      obtain ⟨m, l, d, ht⟩ := hon.frame
      refine ⟨fun x hx => ?_, fun e he => ?_⟩
      · rw [ht] at hx
        cases hx
        exact hp
      · obtain hea | hold := hon.stored.entries he
        · rw [hea]
          exact ha
        · exact (hents e hold).trans (Nat.le_succ _)

/-- Settles O50: a step to STEADY writes its new PREV, whole and last; START ignored changes neither PREV nor OUT. -/
theorem stepKeepsPrevWritten : Obligations.StepKeepsPrevWritten := by
  unfold Obligations.StepKeepsPrevWritten
  refine ⟨fun s t hq hb h hm => step_writes_prev hq hb h hm, fun s t _ hprev h hm p hp => ?_⟩
  obtain ⟨hsteady, rfl⟩ | ⟨hq, hb, -⟩ := step_to_steady h hm
  · exact hprev hsteady p hp
  · obtain ⟨p', hp', hout⟩ := step_writes_prev hq hb h hm
    obtain rfl : p' = p := Option.some.inj (hp'.symm.trans hp)
    exact hout ▸ List.suffix_append s.out p'.bytes

end Sys2Proof.Machine
end

section
/-! Every step from the invariant answers, and reads no register without a value (93_implementation_defined.md U17,
10_state.md R41). -/

namespace Sys2Proof.Machine

/-! ## Operations that are not stuck -/

/-- The operation ends, with a value or raising. -/
def Res.Answers {α : Type} (x : Res α) : Prop := ∀ g, x ≠ .stuck g

theorem Res.Answers.andThen {α β : Type} {x : Res α} {f : α → State → Res β} (hx : x.Answers)
    (hf : ∀ a s, x = .ok a s → (f a s).Answers) : (x.andThen f).Answers := by
  intro g hg
  obtain h | ⟨a, s, ha, h⟩ := Res.andThen_stuck.1 hg
  · exact hx g h
  · exact hf a s ha g h

/-- As an instruction, an operation that is not stuck has a next state. -/
theorem Res.Answers.outcome {α : Type} {x : Res α} (h : x.Answers) (ret : α → Ret) :
    ∃ t, x.outcome ret = .next t := by
  cases x with
  | ok a s => exact ⟨_, rfl⟩
  | raise e s => exact ⟨_, rfl⟩
  | stuck g => exact absurd rfl (h g)

theorem Res.answers_ok {α : Type} (a : α) (s : State) : (Res.ok a s).Answers := nofun

theorem snkWrite_answers (p : Phrase) (s : State) : (snkWrite p s).Answers := by
  intro g h
  unfold snkWrite at h
  split at h <;> cases h

theorem dictStore_answers (p : Phrase) (n : Next) (s : State) : (dictStore p n s).Answers := by
  intro g h
  unfold dictStore at h
  split at h
  · cases h
  · split at h <;> cases h

theorem dictAdd_answers (p : Phrase) {n : Next} {s : State} (hn : s.next = some n) (h1 : 256 ≤ n.toNat)
    (h2 : n.toNat ≤ 4096) : (dictAdd p s).Answers := by
  obtain hroom | hfull := Nat.lt_or_eq_of_le h2
  · rw [dictAdd_room hn h1 hroom]
    exact dictStore_answers p n s
  · rw [dictAdd_full hn hfull]
    exact dictStore_answers p Config.firstCode s.clearDynamic

theorem decBoot_answers {s : State} (hm : s.mode = .boot) (r : Option Code) : (decBoot r s).Answers := by
  unfold decBoot
  rw [if_neg (not_not.2 hm)]
  rcases r with _ | c
  · exact nofun
  · simp only
    split
    · exact (snkWrite_answers _ s).andThen fun _ _ _ => Res.answers_ok _ _
    · exact nofun

theorem hitBody_answers {n : Next} {s : State} {c : Code} (h : DictInv n s) (hc : c.toNat < n.toNat) (q : Phrase) :
    (hitBody q c s).Answers := by
  obtain ⟨e, he⟩ := h.entry_below hc
  obtain ⟨hn, h1, h2, -, -⟩ := h
  rw [hitBody, dictGet_entry hn hc he]
  refine (snkWrite_answers e s).andThen fun _ u hu => ?_
  obtain ⟨-, rfl⟩ := snkWrite_ok.1 hu
  exact (dictAdd_answers (s := (sinkPut e s).2) _ hn h1 h2).andThen fun _ _ _ => Res.answers_ok _ _

theorem kwkBody_answers {n : Next} {s : State} {c : Code} (h : DictInv n s) (hc : n.toNat ≤ c.toNat) (q : Phrase) :
    (kwkBody q c s).Answers := by
  obtain ⟨hn, h1, h2, -, -⟩ := h
  have habsent : dictContains c s = .ok false s :=
    dictContains_ok.2 ⟨rfl, .inr ⟨isLiteral_false (h1.trans hc), n, hn, isHit_false hc⟩⟩
  rw [kwkBody, habsent]
  exact (dictAdd_answers _ hn h1 h2).andThen fun _ u _ =>
    (snkWrite_answers _ u).andThen fun _ _ _ => Res.answers_ok _ _

/-- The row that STEADY selects for a code answers, where the dictionary stands in its invariant. -/
theorem exec_selectSteady_answers {n : Next} {s : State} (hm : s.mode = .steady) (h : DictInv n s) (c : Code) :
    ∃ t, exec (selectSteady n (some c)) s = .next t := by
  have ⟨_, h1, _⟩ := h
  by_cases hc : c.toNat < n.toNat
  · obtain ⟨q, d, he, -⟩ := decHit_steady (c := c) hm
    rw [exec_selectSteady_found (.inr ((isHit_iff c n).2 hc)), he]
    exact (hitBody_answers (s := { s with draws := d }) h hc q).outcome noValue
  · have hc' : n.toNat ≤ c.toNat := Nat.not_lt.1 hc
    obtain ⟨q, d, he, -⟩ := decKwk_steady (c := c) hm
    rw [exec_selectSteady_absent (isLiteral_false (h1.trans hc')) (isHit_false hc'), he]
    exact (kwkBody_answers (s := { s with draws := d }) h hc' q).outcome noValue

/-- A step of a session from the invariant answers. -/
theorem step_session_answers {s : State} (hs : BlockInv s) (hq : Quiet s) (hb : s.busy = true) :
    ∃ t, step s = .next t := by
  obtain ⟨⟨n, hdict⟩, -⟩ := blockInv_busy hs hb
  rcases hr : rdCode s.dropInput with ⟨_ | c, u⟩ | ⟨e, u⟩ | g
  · exact ⟨_, step_end hq hb hr⟩
  · have hdict' := dictInv_read (s := s.dropInput) hdict hr
    have ⟨hn, _⟩ := hdict'
    have hmode : u.mode = s.mode := rdCode_mode (s := s.dropInput) hr
    obtain hm | hm := (busy_iff s).1 hb
    · rw [step_code hq hb hr hn (i := selectBoot (some c)) (by rw [hmode, hm]; rfl), exec_selectBoot]
      exact (decBoot_answers (hmode.trans hm) _).outcome noValue
    · rw [step_code hq hb hr hn (i := selectSteady n (some c)) (by rw [hmode, hm]; rfl)]
      exact exec_selectSteady_answers (hmode.trans hm) hdict' c
  · exact ⟨_, step_readError hq hb hr⟩
  · exact absurd hr rdCode_not_stuck

theorem exec_start_answers (s : State) : ∃ t, exec .start s = .next t := by
  cases hb : s.busy with
  | true => exact ⟨_, exec_start_of_busy hb⟩
  | false =>
    rw [exec_start_of_not_busy hb]
    cases ha : allocAnswer s with
    | true => exact ⟨_, by rw [startSession_granted ha]; rfl⟩
    | false => exact ⟨_, by rw [startSession_refused ha]; rfl⟩

/-! ## The draw counter -/

theorem srcRead_draws {k : Nat} {s : State} (hk : s.spos = some k) (n : Nat) : (srcRead n s).2.draws = s.draws := by
  rw [srcRead_some hk, srcReadAt]
  split <;> rfl

theorem evenAnswer_draws (r : SrcOut) (s : State) : (evenAnswer r s).EndsIn fun u => u.draws = s.draws := by
  rcases r with (_ | ⟨b0, _ | ⟨b1, l⟩⟩) | _ <;> rfl

theorem oddAnswer_draws (b : Byte) (r : SrcOut) (s : State) : (oddAnswer b r s).EndsIn fun u => u.draws = s.draws := by
  rcases r with (_ | ⟨b2, l⟩) | _ <;> rfl

/-- With the reader's registers in their invariant a read draws nothing. -/
theorem ReaderInv.rdCode_draws {ph : Phase} {k : Nat} {s : State} (h : ReaderInv ph k s) :
    (rdCode s).EndsIn fun u => u.draws = s.draws := by
  obtain ⟨hph, hk, hpend⟩ := h
  cases ph with
  | even =>
    rw [rdCode_even hph, rdEven, ← srcRead_draws hk 2]
    exact evenAnswer_draws _ _
  | odd =>
    obtain ⟨b, hb⟩ := Option.isSome_iff_exists.1 hpend.2
    rw [rdCode_odd hph, rdOdd_pend hb, ← srcRead_draws hk 1]
    exact oddAnswer_draws b _ _

theorem EndsOrFinishes.draws {s t : State} (h : EndsOrFinishes (LoopFrame s) t) : t.draws = s.draws := by
  obtain ⟨u, ⟨a, o, l, m, n, q, md, rfl⟩, ⟨r, rfl⟩ | ⟨x, rfl⟩⟩ := h <;> rfl

theorem exec_selectBoot_draws {r : Option Code} {s t : State} (h : exec (selectBoot r) s = .next t) :
    t.draws = s.draws :=
  ((decBoot_loopFrame r s).endsOrFinishes (exec_selectBoot r s ▸ h)).draws

/-- With PREV holding a value no decode step draws. -/
theorem exec_loopRow_draws {i : Instr} {s t : State} {q : Phrase} (hi : LoopRow i) (hq : s.prev = some q)
    (h : exec i s = .next t) : t.draws = s.draws := by
  obtain ⟨d, hends, hd⟩ := exec_loopRow hi h
  exact hends.draws.trans (hd q hq)

theorem runSubOps_keeps_draws (os : List SubOp) (n bytes : Nat) (s : State) :
    (runSubOps os n bytes s).draws = s.draws := by
  exact (congrArg State.draws (runSubOps_draws os n bytes s.draws s) :)

/-- Inside a step from the invariant no value has been drawn. -/
theorem insideStep_draws {s : State} (hs : BlockInv s) (ops bytes : Nat) :
    (s.insideStep ops bytes).draws = s.draws := by
  unfold State.insideStep
  split
  case h_2 => rfl
  case h_1 hb =>
    obtain ⟨-, ph, k, hreader⟩ := blockInv_busy hs hb
    obtain ⟨hok, hraise⟩ := Res.endsIn_iff.1 hreader.rdCode_draws
    split
    case h_1 r u hr => exact (runSubOps_keeps_draws _ _ _ u).trans (hok r u hr)
    case h_2 e u hr => exact hraise e u hr
    case h_3 => rfl

theorem insideStart_draws (s : State) : s.insideStart.draws = s.draws := by
  unfold State.insideStart
  split <;> rfl

/-! ## The statements -/

/-- Settles O42: the host's inputs are answered in every state, and in a session the invariant gives each operation what
it needs. -/
theorem invariantNeverStuck : Obligations.InvariantNeverStuck := by
  unfold Obligations.InvariantNeverStuck
  intro s hs
  cases hi : hostInput s with
  | quiet =>
    cases hb : s.busy with
    | true => exact .inl (step_session_answers hs hi hb)
    | false => exact .inl ⟨_, step_of_waiting hi hb⟩
  | start =>
    rw [step_of_start hi]
    exact .inl (exec_start_answers _)
  | reset => exact .inl ⟨_, step_of_reset hi⟩
  | resetInStart => exact .inl ⟨_, step_of_resetInStart hi⟩
  | resetInStep ops bytes => exact .inl ⟨_, step_of_resetInStep hi⟩
  | connect src =>
    cases hb : s.busy with
    | true => exact .inr ⟨rfl, ⟨src, rfl⟩, step_of_connect_busy hi hb⟩
    | false => exact .inl ⟨_, step_of_connect hi hb⟩

/-- Settles O57: the invariant gives the reader its registers, and PREV a value in STEADY, where it is read. -/
theorem stepReadsNoAbsentRegister : Obligations.StepReadsNoAbsentRegister := by
  unfold Obligations.StepReadsNoAbsentRegister
  intro s t hs h
  have hs' : BlockInv s.dropInput := hs
  obtain ⟨-, he⟩ | ⟨-, rfl⟩ | ⟨-, rfl⟩ | ⟨ops, bytes, -, rfl⟩ | ⟨src, -, -, rfl⟩ | ⟨-, -, rfl⟩ | ⟨-, hb, hcode⟩ :=
    step_cases h
  · obtain ⟨-, rfl⟩ | ⟨-, -, rfl⟩ | ⟨-, rfl⟩ := exec_start_cases he <;> rfl
  · rfl
  · exact insideStart_draws s.dropInput
  · exact insideStep_draws hs' ops bytes
  · rfl
  · rfl
  obtain ⟨-, ph, k, hreader⟩ := blockInv_busy hs' hb
  obtain ⟨hok, hraise⟩ := Res.endsIn_iff.1 hreader.rdCode_draws
  obtain ⟨r, u, hr, -, he⟩ | ⟨r, u, n, hr, -, hm, he⟩ | ⟨e, u, hr, he⟩ := hcode
  · exact (exec_selectBoot_draws he).trans (hok r u hr)
  · obtain ⟨-, -, hprev, -⟩ := blockInv_steady hs' hm
    obtain ⟨q, hq⟩ := Option.isSome_iff_exists.1 hprev
    have hu : u.prev = some q := by
      obtain ⟨j, d, p, ph, rfl⟩ := rdCode_frame hr
      exact hq
    exact (exec_loopRow_draws (selectSteady_loopRow n r) hu he).trans (hok r u hr)
  · obtain ⟨rfl, -⟩ := rdCode_raise hr
    have hbu : u.busy = true := by
      obtain ⟨-, j, d, rfl⟩ := rdCode_raise hr
      exact hb
    cases (exec_decAbort hbu rfl).symm.trans he
    exact hraise .read u hr

end Sys2Proof.Machine
end

section
/-! A reset inside a step and OUT (70_reset_and_hazards.md R200): the sub-operations of a step, all done, have
written what the step writes, and cut short a part of it. -/

namespace Sys2Proof.Machine

/-! ## One sub-operation -/

/-- The sub-operation has ended in t, with a value or raising. -/
def SubOp.EndsAt (o : SubOp) (s t : State) : Prop := o.run s = .ok () t ∨ ∃ e, o.run s = .raise e t

/-- What a sub-operation appends to OUT, and what it has appended while under way. -/
theorem SubOp.part_out {o : SubOp} {s t : State} (h : o.EndsAt s t) :
    ∃ w, t.out = s.out ++ w ∧ ∀ bytes, (o.part bytes s).out = s.out ++ w.take bytes := by
  cases o with
  | write p =>
    have hput : t = (sinkPut p s).2 := by
      obtain h | ⟨e, h⟩ := h
      · obtain ⟨-, rfl⟩ := snkWrite_ok.1 h
        rfl
      · obtain ⟨-, -, rfl⟩ := snkWrite_raise.1 h
        rfl
    obtain ⟨w, hw, -⟩ := sinkPart_out 0 p s
    refine ⟨w, by rw [hput, hw], fun bytes => ?_⟩
    obtain ⟨w', hw', hpart⟩ := sinkPart_out bytes p s
    have hsame : s.out ++ w = s.out ++ w' := congrArg State.out (hw.symm.trans hw')
    rw [List.append_cancel_left hsame]
    exact congrArg State.out hpart
  | add p =>
    refine ⟨[], ?_, fun bytes => by simp [SubOp.part]⟩
    obtain h | ⟨e, h⟩ := h
    · obtain ⟨p', hp, -⟩ | ⟨p', r, -, hadd⟩ := SubOp.run_ok h
      · cases hp
      · obtain ⟨m, n, rfl⟩ := dictAdd_frame hadd
        simp
    · obtain ⟨p', hp, -⟩ | ⟨p', -, hadd⟩ := SubOp.run_raise h
      · cases hp
      · obtain ⟨-, l, m, n, rfl⟩ := dictAdd_raise hadd
        simp

/-- A list that begins with xs and with which `xs ++ w` begins is xs and a part of w. -/
theorem eq_append_take_of_between {xs ys w : List Byte} (h : xs <+: ys) (h' : ys <+: xs ++ w) :
    ∃ n, ys = xs ++ w.take n := by
  obtain ⟨zs, rfl⟩ := h
  have hzs : zs <+: w := (List.prefix_append_right_inj xs).1 h'
  exact ⟨zs.length, by rw [← List.prefix_iff_eq_take.1 hzs]⟩

/-! ## The sub-operations of a step -/

/-- The state with every sub-operation done, or as many as there are before one raises. -/
def allSubOps (os : List SubOp) (s : State) : State := runSubOps os os.length 0 s

theorem allSubOps_cons_ok {o : SubOp} {os : List SubOp} {s t : State} (h : o.run s = .ok () t) :
    allSubOps (o :: os) s = allSubOps os t := by
  simp [allSubOps, runSubOps, h]

theorem allSubOps_cons_raise {o : SubOp} {os : List SubOp} {s t : State} {e : ErrKind} (h : o.run s = .raise e t) :
    allSubOps (o :: os) s = t := by
  simp [allSubOps, runSubOps, h]

theorem allSubOps_cons_stuck {o : SubOp} {os : List SubOp} {s : State} {g : Fault} (h : o.run s = .stuck g) :
    allSubOps (o :: os) s = s := by
  simp [allSubOps, runSubOps, h]

theorem allSubOps_grows (os : List SubOp) (s : State) : s.out <+: (allSubOps os s).out := by
  obtain ⟨-, -, -, hout⟩ := runSubOps_frame os os.length 0 s
  exact hout

/-- Where the first sub-operation ends at t, all of them leave at least what t has in OUT. -/
theorem allSubOps_after {o : SubOp} {os : List SubOp} {s t : State} (h : o.EndsAt s t) :
    t.out <+: (allSubOps (o :: os) s).out := by
  obtain h | ⟨e, h⟩ := h
  · rw [allSubOps_cons_ok h]
    exact allSubOps_grows os t
  · rw [allSubOps_cons_raise h]

/-- Cut short anywhere, the sub-operations have written a part of what they would write. -/
theorem runSubOps_prefix (os : List SubOp) (n bytes : Nat) (s : State) :
    (runSubOps os n bytes s).out <+: (allSubOps os s).out := by
  induction os generalizing n s with
  | nil => exact List.prefix_refl _
  | cons o os ih =>
    cases n with
    | zero =>
      have hpart : ∀ {t}, o.EndsAt s t → (o.part bytes s).out <+: (allSubOps (o :: os) s).out := by
        intro t ht
        obtain ⟨w, hw, hbytes⟩ := SubOp.part_out ht
        refine List.IsPrefix.trans ?_ (allSubOps_after ht)
        rw [hbytes, hw]
        exact (List.prefix_append_right_inj _).2 (List.take_prefix _ _)
      rcases h : o.run s with ⟨⟨⟩, t⟩ | ⟨e, t⟩ | g
      · exact hpart (.inl h)
      · exact hpart (.inr ⟨e, h⟩)
      · cases o with
        | write p => exact absurd h (snkWrite_answers p s g)
        | add p => exact allSubOps_grows _ s
    | succ n =>
      simp only [runSubOps]
      rcases h : o.run s with ⟨⟨⟩, t⟩ | ⟨e, t⟩ | g
      · rw [allSubOps_cons_ok h]
        exact ih n t
      · rw [allSubOps_cons_raise h]
      · rw [allSubOps_cons_stuck h]

/-- Every OUT between that before the sub-operations and that after them is left by some cut. -/
theorem runSubOps_reaches (os : List SubOp) (s : State) {ys : List Byte} (h : s.out <+: ys)
    (h' : ys <+: (allSubOps os s).out) : ∃ n bytes, (runSubOps os n bytes s).out = ys := by
  induction os generalizing s with
  | nil => exact ⟨0, 0, h.eq_of_length_le h'.length_le⟩
  | cons o os ih =>
    have hcut : ∀ {t}, o.EndsAt s t → ys <+: t.out → ∃ n bytes, (runSubOps (o :: os) n bytes s).out = ys := by
      intro t ht hys
      obtain ⟨w, hw, hbytes⟩ := SubOp.part_out ht
      obtain ⟨bytes, rfl⟩ := eq_append_take_of_between h (hw ▸ hys)
      exact ⟨0, bytes, hbytes bytes⟩
    rcases hrun : o.run s with ⟨⟨⟩, t⟩ | ⟨e, t⟩ | g
    · rw [allSubOps_cons_ok hrun] at h'
      obtain hys | hys := List.prefix_or_prefix_of_prefix h' (allSubOps_grows os t)
      · exact hcut (.inl hrun) hys
      · obtain ⟨n, bytes, hn⟩ := ih t hys h'
        exact ⟨n + 1, bytes, by simpa [runSubOps, hrun] using hn⟩
    · rw [allSubOps_cons_raise hrun] at h'
      exact hcut (.inr ⟨e, hrun⟩) h'
    · rw [allSubOps_cons_stuck hrun] at h'
      refine ⟨1, 0, ?_⟩
      simpa [runSubOps, hrun] using h.eq_of_length_le h'.length_le

/-! ## A decode step writes what its sub-operations write -/

/-- One sub-operation after another, an error ending them. -/
def subOpsRes : List SubOp → State → Res Unit
  | [], s => .ok () s
  | o :: os, s => (o.run s).andThen fun _ t => subOpsRes os t

theorem subOpsRes_ends (os : List SubOp) (s : State) : (subOpsRes os s).EndsIn fun t => t = allSubOps os s := by
  induction os generalizing s with
  | nil => rfl
  | cons o os ih =>
    simp only [subOpsRes]
    rcases h : o.run s with ⟨⟨⟩, t⟩ | ⟨e, t⟩ | g
    · rw [allSubOps_cons_ok h]
      exact ih t
    · exact (allSubOps_cons_raise h).symm
    · exact Res.endsIn_stuck g

/-- An operation that is its sub-operations and then a change outside OUT ends with the OUT they leave. -/
theorem out_of_subOps {os : List SubOp} {s : State} {f : Unit → State → Res Unit}
    (hf : ∀ v, (f () v).EndsIn fun u => u.out = v.out) :
    ((subOpsRes os s).andThen f).EndsIn fun t => t.out = (allSubOps os s).out := by
  have hends : (subOpsRes os s).EndsIn fun t => t.out = (allSubOps os s).out := by
    obtain ⟨hok, hraise⟩ := Res.endsIn_iff.1 (subOpsRes_ends os s)
    exact Res.endsIn_iff.2 ⟨fun a t h => congrArg State.out (hok a t h), fun e t h => congrArg State.out (hraise e t h)⟩
  refine hends.andThen fun _ v hv => ?_
  obtain ⟨hok, hraise⟩ := Res.endsIn_iff.1 (hf v)
  exact Res.endsIn_iff.2 ⟨fun a t h => (hok a t h).trans hv, fun e t h => (hraise e t h).trans hv⟩

theorem Res.EndsIn.outcome_out {α : Type} {ys : List Byte} {ret : α → Ret} {x : Res α} {t : State}
    (hx : x.EndsIn fun u => u.out = ys) (h : x.outcome ret = .next t) : t.out = ys :=
  hx.outcome (fun _ _ hs => hs) (fun _ _ hs => hs) h

theorem Res.andThen_assoc {α β γ : Type} (x : Res α) (f : α → State → Res β) (g : β → State → Res γ) :
    (x.andThen f).andThen g = x.andThen fun a s => (f a s).andThen g := by
  cases x <;> rfl

theorem Res.ok_andThen {α β : Type} (a : α) (s : State) (f : α → State → Res β) : (Res.ok a s).andThen f = f a s := rfl

theorem decBoot_subOps {s : State} (hm : s.mode = .boot) (r : Option Code) :
    (decBoot r s).EndsIn fun t => t.out = (allSubOps (subOps r s) s).out := by
  rcases r with _ | c
  · have hstop : decBoot none s = .raise .invalidFormat s := by simp [decBoot, hm]
    rw [hstop]
    exact (rfl : s.out = s.out)
  · cases hl : isLiteral c with
    | false =>
      have hstop : decBoot (some c) s = .raise .invalidFormat s := by simp [decBoot, hm, hl]
      have hops : subOps (some c) s = [] := by simp [subOps, hm, bootOps, hl]
      rw [hstop, hops]
      exact (rfl : s.out = s.out)
    | true =>
      have hsplit : decBoot (some c) s = (subOpsRes [.write (alphaPhrase c)] s).andThen
          fun _ u => .ok () { u with prev := some (alphaPhrase c), mode := .steady } := by
        simp [decBoot, hm, hl, subOpsRes, SubOp.run, Res.andThen_assoc, Res.ok_andThen]
      have hops : subOps (some c) s = [.write (alphaPhrase c)] := by simp [subOps, hm, bootOps, hl]
      rw [hsplit, hops]
      exact out_of_subOps fun v => (rfl : v.out = v.out)

theorem hitBody_subOps {s : State} {q e : Phrase} {c : Code} (h : dictGet c s = .ok (some e) s) :
    (hitBody q c s).EndsIn fun t => t.out = (allSubOps [.write e, .add (hitPhrase q e)] s).out := by
  have hsplit : hitBody q c s = (subOpsRes [.write e, .add (hitPhrase q e)] s).andThen
      fun _ u => .ok () { u with prev := some e } := by
    simp only [hitBody, h, subOpsRes, SubOp.run, Res.andThen_assoc, Res.ok_andThen]
  rw [hsplit]
  exact out_of_subOps fun v => (rfl : v.out = v.out)

theorem kwkBody_subOps {s : State} {q : Phrase} {c : Code} (h : dictContains c s = .ok false s) :
    (kwkBody q c s).EndsIn fun t => t.out = (allSubOps [.add (kwkPhrase q), .write (kwkPhrase q)] s).out := by
  have hsplit : kwkBody q c s = (subOpsRes [.add (kwkPhrase q), .write (kwkPhrase q)] s).andThen
      fun _ u => .ok () { u with prev := some (kwkPhrase q) } := by
    simp only [kwkBody, h, subOpsRes, SubOp.run, Res.andThen_assoc, Res.ok_andThen, Bool.false_eq_true, if_false]
  rw [hsplit]
  exact out_of_subOps fun v => (rfl : v.out = v.out)

theorem allSubOps_draws (os : List SubOp) (d : Nat) (s : State) :
    (allSubOps os { s with draws := d }).out = (allSubOps os s).out := by
  exact (congrArg State.out (runSubOps_draws os os.length 0 d s) :)

theorem readPrev_draws (s : State) : ∃ d, (readPrev s).2 = { s with draws := d } := by
  obtain ⟨q, d, h, -⟩ := readPrev_spec s
  exact ⟨d, congrArg Prod.snd h⟩

/-- A lookup answers the same and changes nothing whatever the draw counter. -/
theorem dictGet_draws {c : Code} {s t : State} {r : Option Phrase} {d : Nat}
    (h : dictGet c { s with draws := d } = .ok r t) : dictGet c s = .ok r s ∧ t = { s with draws := d } := by
  obtain ⟨rfl, hcases⟩ := dictGet_ok.1 h
  exact ⟨dictGet_ok.2 ⟨rfl, hcases⟩, rfl⟩

theorem decHit_subOps {s t : State} {c : Code} (hm : s.mode = .steady) (h : (decHit c s).outcome noValue = .next t) :
    t.out = (allSubOps (subOps (some c) s) s).out := by
  obtain ⟨d, hd⟩ := readPrev_draws s
  have hbody : decHit c s = hitBody (readPrev s).1 c { s with draws := d } := by
    rw [decHit, if_neg (not_not.2 hm), hd]
  rw [hbody] at h
  rcases hget : dictGet c { s with draws := d } with ⟨_ | e, u⟩ | ⟨e, u⟩ | g
  case ok.some =>
    obtain ⟨hget', rfl⟩ := dictGet_draws hget
    have hops : subOps (some c) s = [.write e, .add (hitPhrase (readPrev s).1 e)] := by
      simp [subOps, hm, steadyOps, hget']
    rw [hops, ← allSubOps_draws _ d]
    exact (hitBody_subOps hget).outcome_out h
  case raise => exact absurd hget dictGet_not_raise
  all_goals
    rw [hitBody, hget] at h
    cases h

theorem decKwk_subOps {s t : State} {c : Code} (hm : s.mode = .steady) (h : (decKwk c s).outcome noValue = .next t) :
    t.out = (allSubOps (subOps (some c) s) s).out := by
  obtain ⟨d, hd⟩ := readPrev_draws s
  have hbody : decKwk c s = kwkBody (readPrev s).1 c { s with draws := d } := by
    rw [decKwk, if_neg (not_not.2 hm), hd]
  rw [hbody] at h
  rcases hhit : dictContains c { s with draws := d } with ⟨_ | _, u⟩ | ⟨e, u⟩ | g
  case ok.false =>
    obtain ⟨rfl, ⟨-, hb⟩ | ⟨hl, n, hn, hh⟩⟩ := dictContains_ok.1 hhit
    · cases hb
    · have hget : dictGet c s = .ok none s := dictGet_ok.2 ⟨rfl, .inr ⟨hl, ⟨n, hn, hh⟩, rfl⟩⟩
      have hops : subOps (some c) s = [.add (kwkPhrase (readPrev s).1), .write (kwkPhrase (readPrev s).1)] := by
        simp [subOps, hm, steadyOps, hget]
      rw [hops, ← allSubOps_draws _ d]
      exact (kwkBody_subOps hhit).outcome_out h
  case raise => exact absurd hhit dictContains_not_raise
  all_goals
    rw [kwkBody, hhit] at h
    cases h

/-- A step whose read returns leaves the OUT that its sub-operations, all done, leave. -/
theorem step_out_eq_subOps {s t u : State} {r : Option Code} (hq : Quiet s) (hb : s.busy = true)
    (hr : rdCode s.dropInput = .ok r u) (h : step s = .next t) : t.out = (allSubOps (subOps r u) u).out := by
  obtain ⟨r', u', hr', hrow⟩ | ⟨u', hr', -⟩ := step_session hq hb h <;> cases hr.symm.trans hr'
  have hmode := rdCode_mode hr
  obtain ⟨hm, he⟩ | ⟨hm, n, he⟩ := hrow
  · rw [exec_selectBoot] at he
    exact (decBoot_subOps (hmode.trans hm) r).outcome_out he
  · have hm' := hmode.trans hm
    rcases r with _ | c
    · cases (exec_decEnd hm').symm.trans he
      rfl
    · by_cases hf : isLiteral c = true ∨ isHit c n = true
      · exact decHit_subOps hm' (exec_selectSteady_found hf u ▸ he)
      · rw [not_or, Bool.not_eq_true, Bool.not_eq_true] at hf
        obtain ⟨hl, hh⟩ := hf
        exact decKwk_subOps hm' (exec_selectSteady_absent hl hh u ▸ he)

/-! ## Inside the step -/

theorem insideStep_zero (bytes : Nat) (s : State) : s.insideStep 0 bytes = s := by
  unfold State.insideStep
  split
  case h_1 h => cases h
  case h_2 => rfl

theorem insideStep_after_read {s u : State} {r : Option Code} (hb : s.busy = true) (hr : rdCode s = .ok r u)
    (n bytes : Nat) : s.insideStep (n + 1) bytes = runSubOps (subOps r u) n bytes u := by
  simp [State.insideStep, hb, hr]

theorem insideStep_read_raised {s u : State} {e : ErrKind} (hb : s.busy = true) (hr : rdCode s = .raise e u)
    (n bytes : Nat) : s.insideStep (n + 1) bytes = u := by
  simp [State.insideStep, hb, hr]

/-- Inside a step OUT lies before what the whole step leaves. -/
theorem insideStep_prefix {s u : State} (hq : Quiet s) (hb : s.busy = true) (h : step s = .next u) (ops bytes : Nat) :
    (s.dropInput.insideStep ops bytes).out <+: u.out := by
  have hb' : s.dropInput.busy = true := hb
  cases ops with
  | zero =>
    obtain ⟨-, -, -, hout⟩ := step_session_frame hq hb h
    rw [insideStep_zero]
    exact hout
  | succ n =>
    rcases hr : rdCode s.dropInput with ⟨r, v⟩ | ⟨e, v⟩ | g
    · rw [insideStep_after_read hb' hr, step_out_eq_subOps hq hb hr h]
      exact runSubOps_prefix _ _ _ _
    · cases (step_readError hq hb hr).symm.trans h
      rw [insideStep_read_raised hb' hr]
      exact List.prefix_refl _
    · exact absurd hr rdCode_not_stuck

/-- Every OUT between that before a step and that after it is reached inside the step. -/
theorem insideStep_reaches {s u : State} (hq : Quiet s) (hb : s.busy = true) (h : step s = .next u) {ys : List Byte}
    (hlow : s.out <+: ys) (hhigh : ys <+: u.out) :
    ∃ ops bytes, (s.dropInput.insideStep ops bytes).out = ys := by
  have hb' : s.dropInput.busy = true := hb
  rcases hr : rdCode s.dropInput with ⟨r, v⟩ | ⟨e, v⟩ | g
  · rw [step_out_eq_subOps hq hb hr h] at hhigh
    have hv : v.out = s.out := by
      obtain ⟨j, d, p, ph, rfl⟩ := rdCode_frame hr
      rfl
    obtain ⟨n, bytes, hn⟩ := runSubOps_reaches _ v (hv ▸ hlow) hhigh
    exact ⟨n + 1, bytes, by rw [insideStep_after_read hb' hr, hn]⟩
  · cases (step_readError hq hb hr).symm.trans h
    obtain ⟨-, j, d, rfl⟩ := rdCode_raise hr
    exact ⟨0, 0, by rw [insideStep_zero]; exact hlow.eq_of_length_le hhigh.length_le⟩
  · exact absurd hr rdCode_not_stuck

/-- The reset input put inside the coming step. -/
theorem step_resetInside (ops bytes : Nat) (s : State) :
    step { s with inputs := .resetInStep ops bytes :: s.inputs.tail } =
      .next (s.dropInput.insideStep ops bytes).hardReset :=
  step_of_resetInStep (s := { s with inputs := .resetInStep ops bytes :: s.inputs.tail }) rfl

/-! ## The statement -/

/-- Settles O52: a reset inside a step keeps the OUT that the step has come to, which is any between that before and
that after. -/
theorem resetInsideStep : Obligations.ResetInsideStep := by
  unfold Obligations.ResetInsideStep
  refine fun s u hq hb h => ⟨fun ops bytes => ?_, fun ys hlow hhigh => ?_⟩
  · obtain ⟨-, -, -, hout⟩ := insideStep_frame ops bytes s.dropInput
    exact ⟨_, step_resetInside ops bytes s, rfl, rfl, noSession_hardReset _, hout, insideStep_prefix hq hb h ops bytes⟩
  · obtain ⟨ops, bytes, hout⟩ := insideStep_reaches hq hb h hlow hhigh
    exact ⟨ops, bytes, _, step_resetInside ops bytes s, hout⟩

end Sys2Proof.Machine
end

section
/-! The whole run (42_decode_loop.md R153): in the default environment the machine goes through the codes of its source
as the reference function goes through the list of them. -/

namespace Sys2Proof.Machine

/-! ## Runs -/

theorem run_step {s t : State} (h : step s = .next t) (k : Nat) :
    Host.Core.run core (k + 1) s = Host.Core.run core k t := by
  have hcore : core.step s = .next t := h
  simp only [Host.Core.run, hcore]

theorem dropInput_of_nil {s : State} (h : s.inputs = []) : s.dropInput = s := by
  unfold State.dropInput
  rw [h, List.tail_nil, ← h]

theorem quiet_of_nil {s : State} (h : s.inputs = []) : Quiet s := by simp [Quiet, hostInput, h]

/-- With no session and nothing from the host, the block waits. -/
theorem run_waiting {s : State} (hb : s.busy = false) (h : s.inputs = []) (k : Nat) :
    Host.Core.run core k s = .next s := by
  induction k with
  | zero => rfl
  | succ k ih =>
    have hstep := step_of_waiting (quiet_of_nil h) hb
    rw [dropInput_of_nil h] at hstep
    rw [run_step hstep, ih]

/-- A step that ends the session is the last one that does anything. -/
theorem run_finish {s u : State} {x : Result} (h : step s = .next (u.finish x)) (hin : u.inputs = []) (k : Nat) :
    Host.Core.run core (k + 1) s = .next (u.finish x) :=
  (run_step h k).trans (run_waiting (s := u.finish x) rfl hin k)

/-! ## The default environment -/

theorem PerfectEnv.readOk {s : State} (h : PerfectEnv s) : ReadOk s := by
  obtain ⟨hread, -⟩ := h
  simp [ReadOk, srcAnswer, hread]

theorem PerfectEnv.sinkTakes {s : State} (h : PerfectEnv s) (n : Nat) : SinkTakes n s := by
  obtain ⟨-, hsink, -⟩ := h
  simp [SinkTakes, sinkAnswer, hsink, SinkAns.full]

theorem PerfectEnv.storageFor {s : State} (h : PerfectEnv s) (n : Nat) : StorageFor n s := by
  obtain ⟨-, -, halloc, hmax⟩ := h
  simp [StorageFor, State.tooLong, allocAnswer, halloc, hmax]

/-! ## The codes still to come -/

/-- The codes that a reader in phase ph finds in the bytes from its offset on, and whether a stray byte is left. -/
def codesFrom : Phase → Byte → List Byte → List Code × Bool
  | .even, _, bytes => streamCodes bytes
  | .odd, _, [] => ([], false)
  | .odd, pend, b2 :: rest => (assembleOdd pend b2 :: (streamCodes rest).1, (streamCodes rest).2)

/-- After the first code of a group the reader is in ODD, with the group's second byte in PEND. -/
theorem streamCodes_cons_cons (b0 b1 : Byte) (rest : List Byte) :
    streamCodes (b0 :: b1 :: rest) =
      (assembleEven b0 b1 :: (codesFrom .odd b1 rest).1, (codesFrom .odd b1 rest).2) := by
  rcases rest with _ | ⟨b2, rest⟩
  · simp only [streamCodes, codesFrom, assembleEven_eq_ofNat]
  · simp only [streamCodes, codesFrom, assembleEven_eq_ofNat, assembleOdd_eq_ofNat]

/-- The reader of s has the codes cs still to read, and then a stray byte or the clean end. -/
def ReadsAhead (cs : List Code) (stray : Bool) (s : State) : Prop :=
  ∃ ph k pend, s.phase = some ph ∧ s.spos = some k ∧ (ph = .odd → s.pend = some pend) ∧
    codesFrom ph pend (s.src.drop k) = (cs, stray)

theorem drop_of_drop {src rest : List Byte} {b : Byte} {k : Nat} (h : src.drop k = b :: rest) :
    src.drop (k + 1) = rest := by
  rw [← List.drop_drop, h, List.drop_one, List.tail_cons]

/-- With a code ahead, a read answers it and leaves the others ahead. -/
theorem ReadsAhead.code {c : Code} {cs : List Code} {stray : Bool} {s : State} (h : ReadsAhead (c :: cs) stray s)
    (hok : ReadOk s) : ∃ u, rdCode s = .ok (some c) u ∧ ReadsAhead cs stray u := by
  obtain ⟨ph, k, pend, hph, hk, hpend, hcodes⟩ := h
  cases ph with
  | even =>
    rw [codesFrom] at hcodes
    rcases hbytes : s.src.drop k with _ | ⟨b0, _ | ⟨b1, rest⟩⟩ <;> rw [hbytes] at hcodes
    · cases hcodes
    · cases hcodes
    · rw [streamCodes_cons_cons] at hcodes
      obtain ⟨⟨rfl, rfl⟩, rfl⟩ : (assembleEven b0 b1 = c ∧ _ = cs) ∧ _ = stray := by simpa using hcodes
      refine ⟨_, (rdCode_even hph).trans (rdEven_two hk hok (sourceBytes_of_drop hbytes 2)), .odd, k + 2, b1, rfl, rfl,
        fun _ => rfl, ?_⟩
      simp only [drop_of_drop (drop_of_drop hbytes)]
  | odd =>
    rcases hbytes : s.src.drop k with _ | ⟨b2, rest⟩ <;> rw [hbytes] at hcodes
    · cases hcodes
    · obtain ⟨⟨rfl, rfl⟩, rfl⟩ : (assembleOdd pend b2 = c ∧ _ = cs) ∧ _ = stray := by simpa [codesFrom] using hcodes
      refine ⟨_, (rdCode_odd hph).trans (rdOdd_one hk hok (hpend rfl) (sourceBytes_of_drop hbytes 1)), .even, k + 1,
        pend, rfl, rfl, nofun, ?_⟩
      simp only [drop_of_drop hbytes]
      rfl

/-- With no code ahead, a read finds the clean end or the stray byte. -/
theorem ReadsAhead.no_code {stray : Bool} {s : State} (h : ReadsAhead [] stray s) (hok : ReadOk s) :
    ∃ u, rdCode s = if stray then .raise .read u else .ok none u := by
  obtain ⟨ph, k, pend, hph, hk, hpend, hcodes⟩ := h
  have hend : s.src.drop k = [] → s.src.length ≤ k := List.drop_eq_nil_iff.1
  cases ph with
  | even =>
    rw [codesFrom] at hcodes
    rcases hbytes : s.src.drop k with _ | ⟨b0, _ | ⟨b1, rest⟩⟩ <;> rw [hbytes] at hcodes
    · cases hcodes
      exact ⟨_, (rdCode_even hph).trans (rdEven_end hk hok (hend hbytes))⟩
    · cases hcodes
      exact ⟨_, (rdCode_even hph).trans (rdEven_stray hk hok (sourceBytes_of_drop hbytes 2))⟩
    · rw [streamCodes_cons_cons] at hcodes
      cases hcodes
  | odd =>
    rcases hbytes : s.src.drop k with _ | ⟨b2, rest⟩ <;> rw [hbytes] at hcodes
    · cases hcodes
      exact ⟨_, (rdCode_odd hph).trans (rdOdd_end hk hok (hpend rfl) (hend hbytes))⟩
    · cases hcodes

/-- The read of a session changes no answer to come in the default environment. -/
theorem perfectEnv_read {s u : State} {r : Option Code} (h : PerfectEnv s) (hr : rdCode s = .ok r u) :
    PerfectEnv u := by
  obtain ⟨hread, hrest⟩ := h
  obtain ⟨j, d, p, ph, rfl⟩ := rdCode_frame hr
  exact ⟨by simp [hread], hrest⟩

/-- With no code ahead the step ends the session, with ReadError or the clean end's result. -/
theorem run_no_code {s : State} {stray : Bool} (henv : PerfectEnv s) (hin : s.inputs = []) (hb : s.busy = true)
    (hahead : ReadsAhead [] stray s) (k : Nat) :
    ∃ t, Host.Core.run core (k + 1) s = .next t ∧ t.mode = .done ∧ t.out = s.out ∧
      t.err = if stray then .error .read else endResult s.mode := by
  have hdrop := dropInput_of_nil hin
  obtain ⟨u, hr⟩ := hahead.no_code henv.readOk
  cases stray with
  | true =>
    have hraise : rdCode s.dropInput = .raise .read u := (congrArg rdCode hdrop).trans hr
    have hstep := step_readError (quiet_of_nil hin) hb hraise
    obtain ⟨-, j, d, rfl⟩ := rdCode_raise hr
    exact ⟨_, run_finish hstep hin k, rfl, rfl, rfl⟩
  | false =>
    have hnone : rdCode s.dropInput = .ok none u := (congrArg rdCode hdrop).trans hr
    have hstep := step_end (quiet_of_nil hin) hb hnone
    obtain ⟨j, d, p, ph, rfl⟩ := rdCode_frame hr
    exact ⟨_, run_finish hstep hin k, rfl, rfl, rfl⟩

/-! ## The machine and the reference function in STEADY -/

/-- The machine in STEADY stands where the reference loop stands: the same dynamic phrases, PREV and output. -/
structure Follows (dyn : List (List Byte)) (prev out : List Byte) (s : State) : Prop where
  mode : s.mode = .steady
  dict : ∃ n, DictInv n s ∧ s.ent.map (fun e => e.2.bytes) = dyn
  prev : ∃ q, s.prev = some q ∧ q.bytes = prev
  out : s.out = out
  env : PerfectEnv s
  inputs : s.inputs = []

/-- A code that a lookup finds has the phrase that the reference has for it. -/
theorem refLookup_found {n : Next} {s : State} {c : Code} {p : Phrase} (h : DictInv n s) (hp : s.found c = some p) :
    refLookup (s.ent.map fun e => e.2.bytes) c.toNat = some p.bytes := by
  unfold State.found at hp
  unfold refLookup
  by_cases hl : c.toNat < 256
  · rw [if_pos ((isLiteral_iff c).2 hl)] at hp
    cases hp
    rw [if_pos hl, BitVec.ofNat_toNat]
    rfl
  · obtain ⟨-, -, -, -, hent⟩ := h
    rw [isLiteral_false (Nat.not_lt.1 hl), if_neg (by decide),
      Memory.read_eq_getElem? hent (Nat.not_lt.1 hl)] at hp
    obtain ⟨e, he, rfl⟩ := Option.map_eq_some_iff.1 hp
    rw [if_neg hl, List.getElem?_map, he]
    rfl

/-- A code at or above NEXT has no phrase in the reference. -/
theorem refLookup_absent {n : Next} {s : State} {c : Code} (h : DictInv n s) (hc : n.toNat ≤ c.toNat) :
    refLookup (s.ent.map fun e => e.2.bytes) c.toNat = none := by
  have hlen := h.length_ent
  obtain ⟨-, hlow, -⟩ := h
  rw [refLookup, if_neg (by omega), List.getElem?_eq_none]
  rw [List.length_map]
  omega

/-- An addition to the table is the reference's addition. -/
theorem refAdd_stored {n : Next} {a : Phrase} {s t : State} (h : DictInv n s) (hst : Stored a n s t) :
    t.ent.map (fun e => e.2.bytes) = refAdd (s.ent.map fun e => e.2.bytes) a.bytes := by
  have hlen := h.length_ent
  obtain ⟨h1, h2, -, hent⟩ | ⟨hfull, -, hent⟩ := hst
  · have hroom : ¬(s.ent.map fun e => e.2.bytes).length = 3840 := by rw [List.length_map]; omega
    rw [refAdd, if_neg hroom, hent, h.write_next, List.map_append]
    rfl
  · have hall : (s.ent.map fun e => e.2.bytes).length = 3840 := by rw [List.length_map]; omega
    rw [refAdd, if_pos hall, hent]
    rfl

/-- A step that goes on takes the machine where one turn of the reference loop takes the reference. -/
theorem GoesOn.follows {c : Code} {n : Next} {q a p : Phrase} {dyn : List (List Byte)} {prev out : List Byte}
    {u t : State} (h : GoesOn c n q a p u t) (hu : Follows dyn prev out u) (rest : List Code) :
    ∃ dyn' prev' out', Follows dyn' prev' out' t ∧
      refLoop dyn prev out (c :: rest) = refLoop dyn' prev' out' rest := by
  obtain ⟨m, hdict, hdyn⟩ := hu.dict
  have ⟨hm, hlow, _⟩ := hdict
  obtain rfl : m = n := Option.some.inj (hm.symm.trans h.next)
  obtain ⟨x, hx, hprev⟩ := hu.prev
  obtain rfl : x = q := h.prev x hx
  obtain ⟨n', hdict', -⟩ := h.dictInv hdict
  have hadd : t.ent.map (fun e => e.2.bytes) = refAdd dyn a.bytes := hdyn ▸ refAdd_stored hdict h.stored
  have hturn : refLoop dyn prev out (c :: rest) = refLoop (refAdd dyn a.bytes) p.bytes (out ++ p.bytes) rest := by
    obtain ⟨-, hp, rfl⟩ | ⟨-, hh, rfl, rfl⟩ := h.row
    · simp only [refLoop, ← hdyn, refLookup_found hdict hp, bytes_hitPhrase, hprev, take_one_bytes]
    · have habsent : m.toNat ≤ c.toNat := by
        rw [Bool.eq_false_iff, Ne, isHit_iff] at hh
        exact Nat.not_lt.1 hh
      simp only [refLoop, ← hdyn, refLookup_absent hdict habsent, bytes_kwkPhrase, ← hprev, take_one_bytes]
  refine ⟨refAdd dyn a.bytes, p.bytes, out ++ p.bytes, ?_, hturn⟩
  obtain ⟨l, k, d, rfl⟩ := h.frame
  obtain ⟨hread, hsink, halloc, hmax⟩ := hu.env
  exact {
    mode := hu.mode
    dict := ⟨n', hdict', hadd⟩
    prev := ⟨p, rfl, rfl⟩
    out := by rw [← hu.out]
    env := ⟨hread, by simp [hsink], by simp [halloc], hmax⟩
    inputs := hu.inputs }

/-- In the default environment a decode step in STEADY goes on, whatever its code. -/
theorem exec_selectSteady_goesOn {n : Next} {s : State} (hm : s.mode = .steady) (hd : DictInv n s) {q : Phrase}
    (hq : s.prev = some q) (henv : PerfectEnv s) (c : Code) :
    ∃ t, exec (selectSteady n (some c)) s = .next t ∧ ∃ m q a p, GoesOn c m q a p s t := by
  have hsteady : ∃ t, exec (selectSteady n (some c)) s = .next t ∧ t.mode = .steady := by
    have ⟨hn, h1, h2, _⟩ := hd
    by_cases hc : c.toNat < n.toNat
    · obtain ⟨e, he⟩ := hd.entry_below hc
      have hrow : HitRow (selectSteady n (some c)) c := by
        by_cases hl : c.toNat < 256
        · rw [selectSteady_literal n ((isLiteral_iff c).2 hl)]
          exact (literalCode_literalByte ((isLiteral_iff c).2 hl)).symm
        · rw [selectSteady_hit (Nat.not_lt.1 hl) hc]
          exact ⟨rfl, Nat.not_lt.1 hl⟩
      obtain ⟨hit, -, -⟩ := hitStep _ s c n q e hrow hm hq hn h1 h2 hc he
      obtain ⟨p, u, -, -, hu, hexec⟩ := hit (henv.sinkTakes _) (henv.storageFor _)
      exact ⟨_, hexec, hu⟩
    · obtain ⟨kwk, -, -⟩ := kwkStep s c n q hm hq hn h1 (Nat.not_lt.1 hc)
      obtain ⟨t, p, m, hexec, -, rfl, -⟩ := kwk (henv.storageFor _) (henv.sinkTakes _)
      rw [selectSteady_kwk (h1.trans (Nat.not_lt.1 hc)) (Nat.not_lt.1 hc)]
      exact ⟨_, hexec, hm⟩
  obtain ⟨t, hexec, ht⟩ := hsteady
  refine ⟨t, hexec, ?_⟩
  obtain ⟨v, x, rfl, -⟩ | ⟨c', hc', hgo⟩ := exec_selectSteady_cases hm hexec
  · cases ht
  · cases hc'
    exact hgo

/-- One step of the machine in STEADY is one turn of the reference loop. -/
theorem Follows.step {dyn : List (List Byte)} {prev out : List Byte} {s : State} {c : Code} {cs : List Code}
    {stray : Bool} (h : Follows dyn prev out s) (hahead : ReadsAhead (c :: cs) stray s) :
    ∃ t dyn' prev' out', step s = .next t ∧ Follows dyn' prev' out' t ∧ ReadsAhead cs stray t ∧
      refLoop dyn prev out (c :: cs) = refLoop dyn' prev' out' cs := by
  have hb : s.busy = true := (busy_iff s).2 (.inr h.mode)
  have hq := quiet_of_nil h.inputs
  obtain ⟨u, hr, hrest⟩ := hahead.code h.env.readOk
  have hr' : rdCode s.dropInput = .ok (some c) u := (congrArg rdCode (dropInput_of_nil h.inputs)).trans hr
  have hu : Follows dyn prev out u := by
    have henv := perfectEnv_read h.env hr
    obtain ⟨j, d, p, ph, rfl⟩ := rdCode_frame hr
    exact ⟨h.mode, h.dict, h.prev, h.out, henv, h.inputs⟩
  obtain ⟨n, hdict, -⟩ := hu.dict
  obtain ⟨q, hprev, -⟩ := hu.prev
  have ⟨hn, _⟩ := hdict
  obtain ⟨t, hexec, m, q', a, p, hgo⟩ := exec_selectSteady_goesOn hu.mode hdict hprev hu.env c
  obtain ⟨dyn', prev', out', hfollows, hturn⟩ := hgo.follows hu cs
  refine ⟨t, dyn', prev', out', ?_, hfollows, ?_, hturn⟩
  · rw [step_code hq hb hr' hn (i := selectSteady n (some c)) (by rw [hu.mode]; rfl), hexec]
  · obtain ⟨l, k, d, rfl⟩ := hgo.frame
    exact hrest

/-- From where the machine follows the reference, it ends with what the reference loop computes. -/
theorem run_follows {cs : List Code} {stray : Bool} {dyn : List (List Byte)} {prev out : List Byte} {s : State}
    {k : Nat} (h : Follows dyn prev out s) (hahead : ReadsAhead cs stray s) (hk : cs.length + 1 ≤ k) :
    ∃ t, Host.Core.run core k s = .next t ∧ t.mode = .done ∧ t.out = refLoop dyn prev out cs ∧
      t.err = if stray then .error .read else .ok := by
  induction cs generalizing dyn prev out s k with
  | nil =>
    obtain ⟨k, rfl⟩ := Nat.exists_eq_add_of_le' hk
    obtain ⟨t, hrun, hdone, hout, herr⟩ :=
      run_no_code h.env h.inputs ((busy_iff s).2 (.inr h.mode)) hahead k
    rw [h.mode] at herr
    exact ⟨t, hrun, hdone, hout.trans h.out, herr⟩
  | cons c cs ih =>
    obtain ⟨k, rfl⟩ : ∃ j, k = j + 1 := ⟨k - 1, by omega⟩
    obtain ⟨t, dyn', prev', out', hstep, hfollows, hrest, hturn⟩ := h.step hahead
    rw [run_step hstep, hturn]
    exact ih hfollows hrest (Nat.le_of_succ_le_succ hk)

/-! ## The bootstrap -/

section Decode

variable {src : List Byte} {stray : Bool}

theorem refDecode_no_code (h : streamCodes src = ([], stray)) :
    refDecode src = ([], if stray then .error .read else .error .invalidFormat) := by
  simp [refDecode, h]

variable {c : Code} {cs : List Code} (h : streamCodes src = (c :: cs, stray))
include h

theorem refDecode_literal (hc : c.toNat < 256) :
    refDecode src =
      (refLoop [] [BitVec.ofNat 8 c.toNat] [BitVec.ofNat 8 c.toNat] cs, if stray then .error .read else .ok) := by
  simp [refDecode, h, hc]

theorem refDecode_dynamic (hc : 256 ≤ c.toNat) : refDecode src = ([], .error .invalidFormat) := by
  simp [refDecode, h, Nat.not_lt.2 hc]

end Decode

/-- A literal first code takes the machine to where the reference loop begins. -/
theorem exec_selectBoot_follows {s : State} {c : Code} (hm : s.mode = .boot) (hd : DictInv Config.firstCode s)
    (hout : s.out = []) (henv : PerfectEnv s) (hin : s.inputs = []) (hc : c.toNat < 256) :
    ∃ t, exec (selectBoot (some c)) s = .next t ∧
      Follows [] [BitVec.ofNat 8 c.toNat] [BitVec.ofNat 8 c.toNat] t ∧
      t.phase = s.phase ∧ t.pend = s.pend ∧ t.spos = s.spos ∧ t.src = s.src := by
  obtain ⟨boot, -⟩ := bootstrapStep s hm
  have hbyte : literalByte c = BitVec.ofNat 8 c.toNat := by rw [BitVec.ofNat_toNat]; rfl
  rw [selectBoot_literal ((isLiteral_iff c).2 hc), hbyte]
  refine ⟨_, boot (BitVec.ofNat 8 c.toNat) (henv.sinkTakes 1), ?_, rfl, rfl, rfl, rfl⟩
  have ⟨_, _, _, _, hent⟩ := hd
  obtain ⟨hread, hsink, halloc, hmax⟩ := henv
  have hnil : s.ent = [] := List.map_eq_nil_iff.1 hent
  exact {
    mode := rfl
    dict := ⟨_, hd, by rw [hnil]; rfl⟩
    prev := ⟨_, rfl, rfl⟩
    out := by rw [hout]; rfl
    env := ⟨hread, by simp [hsink], halloc, hmax⟩
    inputs := hin }

/-- From BOOT, with the codes of src ahead, the machine ends with `Decode(src)`. -/
theorem run_boot {src : List Byte} {cs : List Code} {stray : Bool} {s : State} {k : Nat}
    (hcodes : streamCodes src = (cs, stray)) (hm : s.mode = .boot)
    (hd : DictInv Config.firstCode s) (hout : s.out = []) (henv : PerfectEnv s) (hin : s.inputs = [])
    (hahead : ReadsAhead cs stray s) (hk : cs.length + 1 ≤ k) :
    ∃ t, Host.Core.run core k s = .next t ∧ t.mode = .done ∧ (t.out, t.err) = refDecode src := by
  have hb : s.busy = true := (busy_iff s).2 (.inl hm)
  obtain ⟨k, rfl⟩ : ∃ j, k = j + 1 := ⟨k - 1, by omega⟩
  cases cs with
  | nil =>
    obtain ⟨t, hrun, hdone, hout', herr⟩ := run_no_code henv hin hb hahead k
    refine ⟨t, hrun, hdone, ?_⟩
    rw [hout', hout, herr, hm, refDecode_no_code hcodes]
    rfl
  | cons c cs =>
    obtain ⟨u, hr, hrest⟩ := hahead.code henv.readOk
    have hr' : rdCode s.dropInput = .ok (some c) u := (congrArg rdCode (dropInput_of_nil hin)).trans hr
    have henv' := perfectEnv_read henv hr
    have hd' := dictInv_read hd hr
    have ⟨hn, _⟩ := hd'
    have hstep : step s = exec (selectBoot (some c)) u := by
      obtain ⟨j, d, p, ph, rfl⟩ := rdCode_frame hr
      exact step_code (quiet_of_nil hin) hb hr' hn (by rw [hm]; rfl)
    have hu : u.mode = .boot ∧ u.out = [] ∧ u.inputs = [] := by
      obtain ⟨j, d, p, ph, rfl⟩ := rdCode_frame hr
      exact ⟨hm, hout, hin⟩
    obtain ⟨hm', hout', hin'⟩ := hu
    by_cases hc : c.toNat < 256
    · obtain ⟨t, hexec, hfollows, hphase, hpend, hspos, hsrc⟩ :=
        exec_selectBoot_follows hm' hd' hout' henv' hin' hc
      have hahead' : ReadsAhead cs stray t := by
        unfold ReadsAhead
        rwa [hphase, hpend, hspos, hsrc]
      obtain ⟨t', hrun, hdone, hout'', herr⟩ := run_follows hfollows hahead' (Nat.le_of_succ_le_succ hk)
      refine ⟨t', (run_step (hstep.trans hexec) k).trans hrun, hdone, ?_⟩
      rw [hout'', herr, refDecode_literal hcodes hc]
    · have hexec := exec_decBootInvalid hm' (Nat.not_lt.1 hc)
      rw [← selectBoot_dynamic (Nat.not_lt.1 hc)] at hexec
      refine ⟨_, run_finish (hstep.trans hexec) hin' k, rfl, ?_⟩
      rw [refDecode_dynamic hcodes (Nat.not_lt.1 hc), ← hout']
      rfl

/-! ## The statement -/

/-- Settles O51: START enters BOOT with the whole source ahead; from there the machine follows the reference. -/
theorem wholeRunIsDecode : Obligations.WholeRunIsDecode := by
  unfold Obligations.WholeRunIsDecode
  intro s k hb henv hin hk
  obtain ⟨hread, hsink, halloc, hmax⟩ := henv
  obtain ⟨k, rfl⟩ : ∃ j, k = j + 1 := ⟨k - 1, by omega⟩
  have hstart : hostInput s = .start := by simp [hostInput, hin]
  have hgranted : allocAnswer s.dropInput = true := by simp [allocAnswer, halloc]
  have hstep := step_of_start hstart
  rw [exec_start_of_not_busy (s := s.dropInput) hb, startSession_granted hgranted] at hstep
  obtain ⟨t, hrun, hdone, hresult⟩ := run_boot (src := s.src) (k := k)
    (s := { s.dropInput with
      mode := .boot, err := .ok, next := some Config.firstCode, seeded := true, ent := [], phase := some .even,
      pend := none, prev := none, spos := some 0, out := [], allocAns := s.dropInput.allocAns.tail, ret := .unit })
    rfl rfl ⟨rfl, by decide, by decide, rfl, rfl⟩ rfl ⟨hread, hsink, by simp [halloc], hmax⟩ (by simp [hin])
    ⟨.even, 0, 0#8, rfl, rfl, nofun, rfl⟩ (by omega)
  exact ⟨t, (run_step hstep k).trans hrun, hdone, hresult⟩

end Sys2Proof.Machine
end
